-- ==== Sys2Proof/Word.lean ====
section
/-! DEFINITION. The widths the core's data travel in (00_scope.md R4, R7; 30_encoding.md R90). -/

namespace Sys2Proof

/-- A register, a host data word or a capture word: 32 bits (00_scope.md R4, REG_WIDTH and NATIVE_WIDTH). -/
abbrev Word := BitVec 32

/-- One byte of a RAM. -/
abbrev Byte := BitVec 8

/-- A byte offset in the core's 16 KiB window (00_scope.md R4, OFFSET_WIDTH). -/
abbrev Offset := BitVec 14

/-- A transaction word T (30_encoding.md R90). -/
abbrev Txn := BitVec 48

end Sys2Proof
end

