-- ==== Sys2Proof/Config.lean ====
section
/-! DEFINITION. What the build fixes, the inputs the environment supplies, and the values the spec leaves
open, each an opaque constant that nothing can evaluate. -/

namespace Sys2Proof

/-- The build parameters the spec leaves open (00_scope.md R5, 93_implementation_defined.md U14). -/
structure Params where
  /-- NLINES_MAX: the number of physical data-line inputs. -/
  nlinesMax : Nat
  /-- HALF_WORDS_MAX: the capture-RAM words of one half of one line. -/
  halfWordsMax : Nat
  nlines_range : 1 ≤ nlinesMax ∧ nlinesMax ≤ 6
  half_range : 1 ≤ halfWordsMax ∧ halfWordsMax ≤ 128
  deriving DecidableEq, Repr

/-- FRAME_BYTES_MAX = 18 × HALF_WORDS_MAX (00_scope.md R5). -/
def Params.frameBytesMax (p : Params) : Nat := 18 * p.halfWordsMax

/-- The build of the spec's examples: three lines, 96 words a half (00_scope.md R5).
DESIGN CHOICE as the build `State.reset` has (unsafe; log 1). -/
def Params.sample : Params := ⟨3, 96, by decide, by decide⟩

/-- What the SERIAL environment supplies to one bit event: the sampled `fs_i`, and `sd_i[l]` as bit l of `sd`
(10_state.md R20, 41_sequencer.md R126). Bits of lines that do not exist are ignored. -/
structure SerialIn where
  fs : Bool
  sd : BitVec 6
  deriving DecidableEq, Repr, Inhabited

/-- Whose turn it is: which step is taken next (00_scope.md R9, R10). -/
inductive Turn where
  /-- HOST performs the next transaction it has to present. -/
  | host
  /-- SEQ takes one bit event, at the next rising edge of `bclk_o`. -/
  | seq
  /-- ASM produces one output sample. -/
  | asm
  /-- One whole system-clock cycle in the hardware's order (60_exceptions.md R248); `present` says whether the host
  presents a transaction in it. -/
  | cycle (present : Bool)
  /-- `rst_n` = 0 at a rising edge of `clk` (70_reset_and_hazards.md R270). -/
  | reset
  deriving DecidableEq, Repr, Inhabited

namespace Config

/-- Which draw the RAMs' contents are after a reset, from the draw and the contents before it: a reset clears neither,
and may keep them (70_reset_and_hazards.md R271). Free value; log 13. -/
opaque nextEpoch (epoch : Nat) (cap frame : List Host.Cell) : Nat

/-- The byte a never written byte of capture RAM holds since the reset whose draw is `epoch`: a draw
(10_state.md R44, 70_reset_and_hazards.md R271, 93_implementation_defined.md U1). Free value; log 5. -/
opaque capDraw (epoch addr : Nat) : Byte

/-- The byte a never written byte of frame RAM holds since the reset whose draw is `epoch`: a draw
(10_state.md R45, 70_reset_and_hazards.md R271, 93_implementation_defined.md U2). Free value; log 5. -/
opaque frameDraw (epoch addr : Nat) : Byte

/-- The serial sample of a bit event for which State lists none (41_sequencer.md R126, 93 U5). Free value; log 9. -/
opaque serialDraw (n : Nat) : SerialIn

/-- The next turn where State lists none (00_scope.md R10, 93 U17). Free value; log 2. -/
opaque turnPick (n : Nat) : Turn

end Config

end Sys2Proof
end

