-- ==== Sys2Proof/Machine/Window.lean ====
section
/-! DEFINITION. The address map of the host window: which offsets exist and what they name
(20_memory.md R73, R78 to R80; 30_encoding.md R100, R101). -/

namespace Sys2Proof.Machine

/-- First byte offset of the capture-RAM window (20_memory.md R78). -/
def capBase : Nat := 0x1000

/-- First byte offset of the frame-RAM window (20_memory.md R78). -/
def frameBase : Nat := 0x3000

/-- Byte offset inside the capture-RAM window of `CAP[l][h][i]`: 1024·l + 512·h + 4·i (30_encoding.md R100). -/
def capAddr (l : Nat) (h : Bool) (i : Nat) : Nat := 1024 * l + 512 * h.toNat + 4 * i

/-- The line an offset of the capture-RAM window names: o[12:10] (30_encoding.md R100). -/
def capLine (off : Nat) : Nat := (off - capBase) / 1024 % 8

/-- The half an offset of the capture-RAM window names: o[9] (30_encoding.md R100). -/
def capHalf (off : Nat) : Bool := (off - capBase) / 512 % 2 == 1

/-- The word index an offset of the capture-RAM window names: o[8:2] (30_encoding.md R100). -/
def capIndex (off : Nat) : Nat := (off - capBase) / 4 % 128

/-- The word an offset of the frame-RAM window names: (off − 0x3000)[11:2] (30_encoding.md R101). -/
def frameIndex (off : Nat) : Nat := (off - frameBase) / 4 % 1024

/-- `CAP[l][h][i]` exists: l < NLINES_MAX and i < HALF_WORDS_MAX (10_state.md R44). -/
def capExists (p : Params) (l i : Nat) : Bool := decide (l < p.nlinesMax) && decide (i < p.halfWordsMax)

/-- The frame-RAM window maps word k: 4k < FRAME_BYTES_MAX (30_encoding.md R101). -/
def frameMapped (p : Params) (k : Nat) : Bool := decide (4 * k < p.frameBytesMax)

/-- The offset lies in the capture-RAM window, 0x1000 to 0x2FFF (20_memory.md R78). -/
def inCapWindow (off : Nat) : Bool := decide (capBase ≤ off) && decide (off < frameBase)

/-- The offset lies in the frame-RAM window, 0x3000 to 0x3FFF (20_memory.md R78). -/
def inFrameWindow (off : Nat) : Bool := decide (frameBase ≤ off)

/-- The offset names nothing: clauses (a) to (d) of 20_memory.md R80. -/
def unmapped (p : Params) (off : Nat) : Bool :=
  decide (off % 4 ≠ 0)
    || (decide (0x44 ≤ off) && decide (off < capBase))
    || (inCapWindow off && !capExists p (capLine off) (capIndex off))
    || (inFrameWindow off && !frameMapped p (frameIndex off))

/-- The transaction's response is ERR: 20_memory.md R80, clauses (a) to (e). -/
def respondsErr (p : Params) (write : Bool) (off : Nat) : Bool :=
  unmapped p off || (write && (inCapWindow off || inFrameWindow off))

end Sys2Proof.Machine
end

