-- ==== Sys2Proof/Syntax.lean ====
section
/-! DEFINITION. The host transactions: one constructor per row of spec/opcode_table.json
(30_encoding.md R94). A read's DATA is don't-care and is no operand (R92); a write's DATA is kept even where
the transaction ignores it. -/

namespace Sys2Proof

/-- A host transaction. `data` is DATA[31:0]; `l`, `h`, `i` name a capture-RAM word (R100); `k` names a word of
the frame-RAM window (R101). -/
inductive Instr where
  | rdId
  | wrId (data : Word)
  | rdParams
  | wrParams (data : Word)
  | rdCfg0
  | wrCfg0 (data : Word)
  | rdRate
  | wrRate (data : Word)
  | rdSysclk
  | wrSysclk (data : Word)
  | rdFramebytes
  | wrFramebytes (data : Word)
  | rdChmap
  | wrChmap (data : Word)
  | rdCtrl
  | wrCtrl (data : Word)
  | rdCmd
  | rdStatus
  | wrStatus (data : Word)
  | rdDiv
  | wrDiv (data : Word)
  | rdErrflags
  | w1cErrflags (data : Word)
  | rdIrqPend
  | w1cIrqPend (data : Word)
  | rdIrqEn
  | wrIrqEn (data : Word)
  | rdMissed
  | wrMissed (data : Word)
  | rdHalfcnt
  | wrHalfcnt (data : Word)
  | rdFrameLen
  | wrFrameLen (data : Word)
  | cmdNop
  | cmdStart
  | cmdStop
  | cmdFrameReq
  | cmdClrDiag
  | cmdRsvd (data : Word)
  | rdCapwin (l : BitVec 3) (h : Bool) (i : BitVec 7)
  | wrCapwin (l : BitVec 3) (h : Bool) (i : BitVec 7) (data : Word)
  | rdFramewin (k : BitVec 10)
  | wrFramewin (k : BitVec 10) (data : Word)
  | busErr (write : Bool) (off : Offset) (data : Word)
  deriving DecidableEq, Repr

end Sys2Proof
end

