-- ==== Sys2Proof/WellFormed.lean ====
section
/-! DEFINITION. Which transactions are well formed: those that are the reading of some transaction word in a
build `p` (30_encoding.md R93, R94, R96, R100, R101). -/

namespace Sys2Proof

open Machine in
/-- The checks on a transaction's operands. CMD_RSVD carries no code of another command (R96); a window transaction
names a mapped word (R100, R101); BUSERR carries an offset that names nothing (20_memory.md R80), and no data if it
reads (R92). -/
def Instr.wf (p : Params) : Instr → Bool
  | .cmdRsvd data => decide (4 < data.toNat)
  | .rdCapwin l _ i => capExists p l.toNat i.toNat
  | .wrCapwin l _ i _ => capExists p l.toNat i.toNat
  | .rdFramewin k => frameMapped p k.toNat
  | .wrFramewin k _ => frameMapped p k.toNat
  | .busErr write off data => unmapped p off.toNat && (write || decide (data = 0))
  | .rdId | .wrId _ | .rdParams | .wrParams _ | .rdCfg0 | .wrCfg0 _ | .rdRate | .wrRate _ | .rdSysclk | .wrSysclk _
  | .rdFramebytes | .wrFramebytes _ | .rdChmap | .wrChmap _ | .rdCtrl | .wrCtrl _ | .rdCmd | .rdStatus | .wrStatus _
  | .rdDiv | .wrDiv _ | .rdErrflags | .w1cErrflags _ | .rdIrqPend | .w1cIrqPend _ | .rdIrqEn | .wrIrqEn _ | .rdMissed
  | .wrMissed _ | .rdHalfcnt | .wrHalfcnt _ | .rdFrameLen | .wrFrameLen _ | .cmdNop | .cmdStart | .cmdStop
  | .cmdFrameReq | .cmdClrDiag => true

end Sys2Proof
end

