-- ==== Sys2Proof/Decode.lean ====
section
/-! DEFINITION. The decoder of transaction words (30_encoding.md R90, R93, R94), the encoder, and the decoder as
the opcode table numbers bits. -/

namespace Sys2Proof

open Machine

/-- Field W of a transaction word: bit 47 (R90). -/
def Txn.w (t : Txn) : Bool := t.getLsbD 47

/-- Field Z of a transaction word: bit 46 (R90). -/
def Txn.z (t : Txn) : Bool := t.getLsbD 46

/-- Field OFF of a transaction word: bits 45:32 (R90). -/
def Txn.off (t : Txn) : Offset := t.extractLsb' 32 14

/-- Field DATA of a transaction word: bits 31:0 (R90). -/
def Txn.data (t : Txn) : Word := t.extractLsb' 0 32

/-- A transaction word from its fields, Z = 0 (R90). -/
def mkTxn (w : Bool) (off : Offset) (data : Word) : Txn := BitVec.ofBool w ++ (0#1 ++ (off ++ data))

/-- A write to CMD: the whole DATA selects the command (10_state.md R30, 30_encoding.md R96). -/
def decodeCmd (data : Word) : Instr :=
  if data = 0#32 then .cmdNop
  else if data = 1#32 then .cmdStart
  else if data = 2#32 then .cmdStop
  else if data = 3#32 then .cmdFrameReq
  else if data = 4#32 then .cmdClrDiag
  else .cmdRsvd data

/-- BUSERR; a read's DATA is don't-care and is dropped (R92). -/
def mkBusErr (write : Bool) (off : Offset) (data : Word) : Instr :=
  .busErr write off (if write then data else 0)

/-- A read of the register at a byte offset (10_state.md R21, 30_encoding.md R94). -/
def decodeRegRead (off : Offset) : Instr :=
  match off.toNat / 4 with
  | 0 => .rdId
  | 1 => .rdParams
  | 2 => .rdCfg0
  | 3 => .rdRate
  | 4 => .rdSysclk
  | 5 => .rdFramebytes
  | 6 => .rdChmap
  | 7 => .rdCtrl
  | 8 => .rdCmd
  | 9 => .rdStatus
  | 10 => .rdDiv
  | 11 => .rdErrflags
  | 12 => .rdIrqPend
  | 13 => .rdIrqEn
  | 14 => .rdMissed
  | 15 => .rdHalfcnt
  | 16 => .rdFrameLen
  | _ => mkBusErr false off 0

/-- A write to the register at a byte offset (10_state.md R21, 30_encoding.md R94). -/
def decodeRegWrite (off : Offset) (data : Word) : Instr :=
  match off.toNat / 4 with
  | 0 => .wrId data
  | 1 => .wrParams data
  | 2 => .wrCfg0 data
  | 3 => .wrRate data
  | 4 => .wrSysclk data
  | 5 => .wrFramebytes data
  | 6 => .wrChmap data
  | 7 => .wrCtrl data
  | 8 => decodeCmd data
  | 9 => .wrStatus data
  | 10 => .wrDiv data
  | 11 => .w1cErrflags data
  | 12 => .w1cIrqPend data
  | 13 => .wrIrqEn data
  | 14 => .wrMissed data
  | 15 => .wrHalfcnt data
  | 16 => .wrFrameLen data
  | _ => mkBusErr true off data

/-- An access to a mapped word of the capture-RAM window (30_encoding.md R100). -/
def decodeCapWindow (write : Bool) (off : Offset) (data : Word) : Instr :=
  let l := BitVec.ofNat 3 (capLine off.toNat)
  let i := BitVec.ofNat 7 (capIndex off.toNat)
  if write then .wrCapwin l (capHalf off.toNat) i data else .rdCapwin l (capHalf off.toNat) i

/-- An access to a mapped word of the frame-RAM window (30_encoding.md R101). -/
def decodeFrameWindow (write : Bool) (off : Offset) (data : Word) : Instr :=
  let k := BitVec.ofNat 10 (frameIndex off.toNat)
  if write then .wrFramewin k data else .rdFramewin k

/-- The transaction with fields W, OFF and DATA, in a build `p` (R93). A write to a mapped window word is
WR_CAPWIN or WR_FRAMEWIN, as R94 and the table have it; its response is ERR all the same (log 11). -/
def decodeAccess (p : Params) (write : Bool) (off : Offset) (data : Word) : Instr :=
  if unmapped p off.toNat then mkBusErr write off data
  else if inCapWindow off.toNat then decodeCapWindow write off data
  else if inFrameWindow off.toNat then decodeFrameWindow write off data
  else if write then decodeRegWrite off data
  else decodeRegRead off

/-- The decoder (R93): a word with T[46] = 1 spells no transaction; every other word is exactly one. -/
def decode (p : Params) (t : Txn) : Option Instr :=
  if t.z then none else some (decodeAccess p t.w t.off t.data)

/-- The transaction word of a transaction, a read with DATA = 0 (R90, R92, R94). -/
def encode : Instr → Txn
  | .rdId => mkTxn false 0x000 0
  | .wrId data => mkTxn true 0x000 data
  | .rdParams => mkTxn false 0x004 0
  | .wrParams data => mkTxn true 0x004 data
  | .rdCfg0 => mkTxn false 0x008 0
  | .wrCfg0 data => mkTxn true 0x008 data
  | .rdRate => mkTxn false 0x00C 0
  | .wrRate data => mkTxn true 0x00C data
  | .rdSysclk => mkTxn false 0x010 0
  | .wrSysclk data => mkTxn true 0x010 data
  | .rdFramebytes => mkTxn false 0x014 0
  | .wrFramebytes data => mkTxn true 0x014 data
  | .rdChmap => mkTxn false 0x018 0
  | .wrChmap data => mkTxn true 0x018 data
  | .rdCtrl => mkTxn false 0x01C 0
  | .wrCtrl data => mkTxn true 0x01C data
  | .rdCmd => mkTxn false 0x020 0
  | .rdStatus => mkTxn false 0x024 0
  | .wrStatus data => mkTxn true 0x024 data
  | .rdDiv => mkTxn false 0x028 0
  | .wrDiv data => mkTxn true 0x028 data
  | .rdErrflags => mkTxn false 0x02C 0
  | .w1cErrflags data => mkTxn true 0x02C data
  | .rdIrqPend => mkTxn false 0x030 0
  | .w1cIrqPend data => mkTxn true 0x030 data
  | .rdIrqEn => mkTxn false 0x034 0
  | .wrIrqEn data => mkTxn true 0x034 data
  | .rdMissed => mkTxn false 0x038 0
  | .wrMissed data => mkTxn true 0x038 data
  | .rdHalfcnt => mkTxn false 0x03C 0
  | .wrHalfcnt data => mkTxn true 0x03C data
  | .rdFrameLen => mkTxn false 0x040 0
  | .wrFrameLen data => mkTxn true 0x040 data
  | .cmdNop => mkTxn true 0x020 0
  | .cmdStart => mkTxn true 0x020 1
  | .cmdStop => mkTxn true 0x020 2
  | .cmdFrameReq => mkTxn true 0x020 3
  | .cmdClrDiag => mkTxn true 0x020 4
  | .cmdRsvd data => mkTxn true 0x020 data
  | .rdCapwin l h i => mkTxn false (BitVec.ofNat 14 (capBase + capAddr l.toNat h i.toNat)) 0
  | .wrCapwin l h i data => mkTxn true (BitVec.ofNat 14 (capBase + capAddr l.toNat h i.toNat)) data
  | .rdFramewin k => mkTxn false (BitVec.ofNat 14 (frameBase + 4 * k.toNat)) 0
  | .wrFramewin k data => mkTxn true (BitVec.ofNat 14 (frameBase + 4 * k.toNat)) data
  | .busErr write off data => mkTxn write off data

/-- The transaction word whose bits, as spec/opcode_table.json numbers them, are the low `nbits` bits of `w`. -/
def tableTxn (nbits w : Nat) : Txn := BitVec.ofNat 48 (w % 2 ^ nbits)

/-- The instruction the decoder reads from a word of the opcode table, in the build of the spec's examples
(95_test_vectors.md section 1; log 1). -/
def decodeTableWord (nbits w : Nat) : Option Instr := decode Params.sample (tableTxn nbits w)

end Sys2Proof
end

