-- ==== Sys2Proof/Machine/State.lean ====
section
/-! DEFINITION. The machine's state as plain data, its faults and refusals, and the state after reset
(10_state.md, 70_reset_and_hazards.md R270). INVENTORY.md lists every field with its rule. -/

namespace Sys2Proof.Machine

/-- Why a step stops. Raised by SEQ and ASM alone; no host transaction faults. -/
inductive Fault where
  /-- SEQ would write, or ASM would read, a capture-RAM word that does not exist (10_state.md R44). Safe: START's
  validation keeps every index inside the RAM, so no run reaches it (log 16). -/
  | noSuchCapWord
  /-- ASM would write a frame-RAM byte that does not exist (10_state.md R45). Safe: as above (log 16). -/
  | noSuchFrameByte
  deriving DecidableEq, Repr

/-- Why a step has no meaning. -/
inductive Refusal where
  /-- An instruction without a meaning yet: raised by an arm of `exec`, of which there is none left. Safe. -/
  | notModelled (mnemonic : String)
  /-- HOST presents a transaction word with T[46] = 1, which spells no transaction (30_encoding.md R93, R97;
  93_implementation_defined.md U7): raised by HOST's step. Safe. -/
  | illegalTransaction
  deriving DecidableEq, Repr

/-- The five configuration registers (10_state.md R24 to R28, R49); also the shape of the active configuration A (R39). -/
structure CfgRegs where
  cfg0 : Word
  rate : Word
  sysclk : Word
  framebytes : Word
  chmap : Word
  deriving DecidableEq, Repr

/-- The response to a host transaction (30_encoding.md R90): a read's is (`bus_rdata`, `bus_err`), a write's is
`bus_err` alone. `err = false` is OKAY. -/
inductive Response where
  | read (data : Word) (err : Bool)
  | write (err : Bool)
  deriving DecidableEq, Repr

/-- A RAM: the bytes written since reset, as (address, byte) pairs with addresses strictly rising. An unlisted byte
was never written; what it reads as is `State.capByte`'s and `State.frameByte`'s to say (log 5). -/
abbrev Memory := List Host.Cell

/-- The canonical form of a RAM: addresses strictly rising. An unlisted address holds no written byte, which no entry
equals, so equal contents are equal lists (log 5). -/
def Memory.wf : Memory → Bool
  | [] => true
  | [_] => true
  | a :: b :: r => decide (a.1 < b.1) && Memory.wf (b :: r)

/-- The state of the core and of its inputs. -/
structure State where
  /-- The build's parameters; no step changes them (00_scope.md R5). -/
  params : Params
  /-- CFG0, RATE, SYSCLK, FRAMEBYTES, CHMAP (10_state.md R24 to R28). -/
  cfg : CfgRegs
  /-- CTRL (R29). -/
  ctrl : Word
  /-- STATUS.RUN (R31). -/
  run : Bool
  /-- STATUS.SYNCED (R31). -/
  synced : Bool
  /-- STATUS.PRIMED (R31). -/
  primed : Bool
  /-- STATUS.ASM_BUSY (R31). -/
  asmBusy : Bool
  /-- STATUS.FRAME_READY (R31). -/
  frameReady : Bool
  /-- STATUS.FRAME_OK (R31). -/
  frameOk : Bool
  /-- STATUS.CFG_VALID (R31). -/
  cfgValid : Bool
  /-- STATUS.CFG_ERR (R31). -/
  cfgErr : Bool
  /-- STATUS.ERRCODE (R31, 60_exceptions.md R242). -/
  errcode : BitVec 4
  /-- WT[l] as bit l (R42). -/
  wt : BitVec 6
  /-- DIV.DIVQ (R32). -/
  divq : BitVec 24
  /-- ERRFLAGS (R33). -/
  errflags : Word
  /-- IRQ_PEND (R34). -/
  irqPend : Word
  /-- IRQ_EN (R35). -/
  irqEn : Word
  /-- MISSED (R36). -/
  missed : Word
  /-- HALFCNT (R37). -/
  halfcnt : Word
  /-- FRAME_LEN.LEN (R38). -/
  frameLen : BitVec 16
  /-- The active configuration A (R39). -/
  active : CfgRegs
  /-- `fsv` (R41). -/
  fsv : Bool
  /-- `fs_prev` (R41). -/
  fsPrev : Bool
  /-- `pos` (R41). -/
  pos : BitVec 6
  /-- `widx` (R41). -/
  widx : BitVec 7
  /-- `sr[l]` (R41); lanes l ≥ NLINES_MAX do not exist and are never touched. -/
  sr : Vector Word 6
  /-- Divider phase: system-clock cycles of the current period (R41, 41_sequencer.md R125). -/
  divCnt : Nat
  /-- Divider phase: the fractional accumulator (R41, 41_sequencer.md R125). -/
  divAcc : BitVec 8
  /-- The bit clock `bclk_o` (R20, 41_sequencer.md R125). -/
  bclk : Bool
  /-- `rh[l]` as bit l (R43). -/
  rh : BitVec 6
  /-- `asm_zero` (R43). -/
  asmZero : Bool
  /-- `asm_n` (R43). -/
  asmN : BitVec 10
  /-- The capture RAM, keyed by byte offset in its window (R44; log 6). -/
  cap : Memory
  /-- The frame RAM, keyed by frame byte index (R45). -/
  frame : Memory
  /-- The response to the last transaction; none before the first (R20; log 10). -/
  resp : Option Response
  /-- The model's own: which draw the RAMs' contents since the last reset are (log 5, log 13). -/
  ramEpoch : Nat
  /-- The model's own: the transactions HOST has still to present, in issue order (log 2). -/
  bus : List Txn
  /-- The model's own: the serial samples still to come (log 9). -/
  serial : List SerialIn
  /-- The model's own: whose turn it is, in order (log 2). -/
  turns : List Turn
  /-- The model's own: how many free values were taken (log 2, log 9). -/
  draws : Nat
  deriving DecidableEq, Repr

/-- The configuration registers after reset: the 2-channel, 48 kHz, 16-bit case, with no system clock stated
(70_reset_and_hazards.md R270). -/
def CfgRegs.atReset : CfgRegs := ⟨0x00210212, 0x0000BB80, 0, 0x000000C0, 0x00A29180⟩

/-- The state after a reset of a build `p`, the RAMs' contents the draw `epoch`, its inputs as given (70_reset_and_hazards.md R270).
DESIGN CHOICE: A (log 7) and `sr` (log 8) are zero, where the spec says unspecified. -/
def State.resetWith (p : Params) (epoch : Nat) (bus : List Txn) (serial : List SerialIn) (turns : List Turn)
    (draws : Nat) : State where
  params := p
  cfg := CfgRegs.atReset
  ctrl := 0
  run := false
  synced := false
  primed := false
  asmBusy := false
  frameReady := false
  frameOk := false
  cfgValid := false
  cfgErr := false
  errcode := 0
  wt := 0
  divq := 0
  errflags := 0
  irqPend := 0
  irqEn := 0
  missed := 0
  halfcnt := 0
  frameLen := 0
  active := ⟨0, 0, 0, 0, 0⟩
  fsv := false
  fsPrev := false
  pos := 0
  widx := 0
  sr := Vector.replicate 6 0
  divCnt := 0
  divAcc := 0
  bclk := false
  rh := 0
  asmZero := false
  asmN := 0
  cap := []
  frame := []
  resp := none
  ramEpoch := epoch
  bus := bus
  serial := serial
  turns := turns
  draws := draws

/-- The machine right after reset in the build of the spec's examples, with no input listed
(70_reset_and_hazards.md R270; log 1, log 2). -/
def State.reset : State := State.resetWith Params.sample 0 [] [] [] 0

end Sys2Proof.Machine
end

