-- ==== Sys2Proof/Machine/Ops.lean ====
section
/-! DEFINITION. The named operations over the RAMs and the registers. -/

namespace Sys2Proof.Machine

/-! ### The RAMs (10_state.md R44, R45) -/

/-- The byte written at an address, none if it was never written. -/
def Memory.lookup : Memory → Nat → Option Byte
  | [], _ => none
  | (k, v) :: r, a => if a = k then some v else Memory.lookup r a

/-- Write one byte, keeping the canonical form. -/
def Memory.write : Memory → Nat → Byte → Memory
  | [], a, b => [(a, b)]
  | (k, v) :: r, a, b =>
    if a < k then (a, b) :: (k, v) :: r
    else if a = k then (a, b) :: r
    else (k, v) :: Memory.write r a b

/-- Write bytes at consecutive addresses from `a` on. -/
def Memory.writeBytes : Memory → Nat → List Byte → Memory
  | m, _, [] => m
  | m, a, b :: bs => Memory.writeBytes (m.write a b) (a + 1) bs

/-- Byte `k` of a word, byte 0 the least significant (00_scope.md R7). -/
def byteOf (w : Word) (k : Nat) : Byte := w.extractLsb' (8 * k) 8

/-- The word of four bytes, `b0` the least significant (20_memory.md R72). -/
def wordOf (b0 b1 b2 b3 : Byte) : Word := b3 ++ (b2 ++ (b1 ++ b0))

/-- The byte of capture RAM at an offset in its window: what was last written there, or the draw of the last reset
(10_state.md R44, 93_implementation_defined.md U1). -/
def State.capByte (s : State) (a : Nat) : Byte := (s.cap.lookup a).getD (Config.capDraw s.ramEpoch a)

/-- Frame byte `FRAME[a]`: what was last written there, or the draw of the last reset (10_state.md R45,
93_implementation_defined.md U2). -/
def State.frameByte (s : State) (a : Nat) : Byte := (s.frame.lookup a).getD (Config.frameDraw s.ramEpoch a)

/-- `CAP[l][h][i]` (10_state.md R44). -/
def State.capWord (s : State) (l : Nat) (h : Bool) (i : Nat) : Word :=
  wordOf (s.capByte (capAddr l h i)) (s.capByte (capAddr l h i + 1)) (s.capByte (capAddr l h i + 2))
    (s.capByte (capAddr l h i + 3))

/-- `CAP[l][h][i] <- w` (10_state.md R44); which of its four places holds which byte cannot be seen (20_memory.md R71; log 6). -/
def State.capStore (s : State) (l : Nat) (h : Bool) (i : Nat) (w : Word) : State :=
  { s with cap := s.cap.writeBytes (capAddr l h i) [byteOf w 0, byteOf w 1, byteOf w 2, byteOf w 3] }

/-- A frame byte as the frame-RAM window shows it: 0 at or above FRAME_BYTES_MAX (20_memory.md R72). -/
def State.frameWindowByte (s : State) (a : Nat) : Byte := if a < s.params.frameBytesMax then s.frameByte a else 0

/-- Word k of the frame-RAM window (20_memory.md R72). -/
def State.frameWord (s : State) (k : Nat) : Word :=
  wordOf (s.frameWindowByte (4 * k)) (s.frameWindowByte (4 * k + 1)) (s.frameWindowByte (4 * k + 2))
    (s.frameWindowByte (4 * k + 3))

/-- `FRAME[a], FRAME[a+1], … <- bs` (10_state.md R45). -/
def State.frameStore (s : State) (a : Nat) (bs : List Byte) : State := { s with frame := s.frame.writeBytes a bs }

/-! ### Responses (30_encoding.md R90) -/

/-- A read's response OKAY with data. -/
def State.respondRead (s : State) (data : Word) : State := { s with resp := some (.read data false) }

/-- A write's response OKAY. -/
def State.respondWrite (s : State) : State := { s with resp := some (.write false) }

/-- `raise BusError`: the core's one synchronous error. The response is ERR, a read returns 0, and no state of the core
changes (00_scope.md R8, 20_memory.md R80, 60_exceptions.md R241). It saves nothing and there is no return from it
(60_exceptions.md R240, R252). -/
def State.busError (s : State) (write : Bool) : State :=
  { s with resp := some (if write then .write true else .read 0 true) }

/-- The port `bus_err`: 0 until the first transaction (10_state.md R20, 70_reset_and_hazards.md R272), and in each
transaction's response that response's (60_exceptions.md R241). DESIGN CHOICE: after it, until the next transaction or
reset, it keeps the last response's, where the spec says nothing (log 10). -/
def State.busErrOut (s : State) : Bool :=
  match s.resp with
  | none => false
  | some (.read _ e) => e
  | some (.write e) => e

/-! ### Lines and lanes -/

/-- The lines l < n, as bits (10_state.md R42: one bit per line). -/
def lineMask (n : Nat) : BitVec 6 := BitVec.ofNat 6 (2 ^ n - 1)

/-- `sr[l]` (10_state.md R41). -/
def State.lane (s : State) (l : Nat) : Word := s.sr[l]?.getD 0

/-! ### Outcomes -/

/-- One step after another: the second runs on the state the first answers. -/
def andThen (o : Host.Outcome State Fault Refusal) (f : State → Host.Outcome State Fault Refusal) :
    Host.Outcome State Fault Refusal :=
  match o with
  | .next s => f s
  | .fault r => .fault r
  | .refused r => .refused r

end Sys2Proof.Machine
end

