-- ==== Sys2Proof/Machine/Flags.lean ====
section
/-! DEFINITION. The status word, the sticky diagnostic flags and the pending interrupt bits
(10_state.md R31, R33 to R36, R46). -/

namespace Sys2Proof.Machine

/-- The sticky flags of ERRFLAGS (10_state.md R33). -/
inductive ErrFlag where
  | syncErr
  | tear
  | overrun
  | wign
  | cmdIgn
  deriving DecidableEq, Repr

/-- The flag's bit of ERRFLAGS (10_state.md R33). -/
def errFlagBit : ErrFlag → Nat
  | .syncErr => 0
  | .tear => 1
  | .overrun => 2
  | .wign => 3
  | .cmdIgn => 4

/-- The bits of ERRFLAGS that exist (10_state.md R33). -/
def errMask : Word := 0x0000001F

/-- The bits of IRQ_PEND and IRQ_EN that exist: HALF_DONE[5:0] and FRAME_DONE (10_state.md R34, R35). -/
def irqMask : Word := 0x0000013F

/-- HALF_DONE[5:0] in IRQ_PEND (10_state.md R34). -/
def halfDoneMask : Word := 0x0000003F

/-- FRAME_DONE in IRQ_PEND (10_state.md R34). -/
def frameDoneBit : Word := 0x00000100

/-- `set ERRFLAGS.F` (00_scope.md R8, 10_state.md R33). -/
def State.setErr (s : State) (f : ErrFlag) : State := { s with errflags := s.errflags ||| (1#32 <<< errFlagBit f) }

/-- The lines whose HALF_DONE is pending, as bits (10_state.md R34). -/
def State.halfDone (s : State) : BitVec 6 := s.irqPend.extractLsb' 0 6

/-- `IRQ_PEND.HALF_DONE[l] <- 1` for the lines of a mask (10_state.md R34). -/
def State.setHalfDone (s : State) (lines : BitVec 6) : State := { s with irqPend := s.irqPend ||| lines.setWidth 32 }

/-- `sat32(x + 1)` (00_scope.md R8). -/
def satIncr (x : Word) : Word := if x = BitVec.allOnes 32 then x else x + 1

/-- The interrupt line `irq_o` (10_state.md R46): some pending bit has its enable bit set. -/
def State.irqO (s : State) : Bool := decide (s.irqPend &&& s.irqEn &&& irqMask ≠ 0)

/-- A single bit placed at bit k of a register. -/
def bitAt (b : Bool) (k : Nat) : Word := (BitVec.ofBool b).setWidth 32 <<< k

/-- The STATUS word (10_state.md R31, 45_bus_access.md R224). -/
def State.statusWord (s : State) : Word :=
  bitAt s.run 0 ||| bitAt s.synced 1 ||| bitAt s.primed 2 ||| bitAt s.asmBusy 3 ||| bitAt s.frameReady 4
    ||| bitAt s.frameOk 5 ||| bitAt s.cfgValid 6 ||| bitAt s.cfgErr 8 ||| s.errcode.setWidth 32 <<< 12
    ||| (s.wt &&& lineMask s.params.nlinesMax).setWidth 32 <<< 16 ||| bitAt s.irqO 24

end Sys2Proof.Machine
end

