-- ==== Sys2Proof/Machine/Operands.lean ====
section
/-! DEFINITION. The registers' fields, the quantities derived from them, and the two constant registers
(00_scope.md R4, R6; 10_state.md R22 to R29). -/

namespace Sys2Proof.Machine

/-! ### Fields of the configuration registers -/

/-- CFG0.NCH (10_state.md R24). -/
def CfgRegs.nch (c : CfgRegs) : Nat := (c.cfg0.extractLsb' 0 3).toNat

/-- CFG0.NLINES (10_state.md R24). -/
def CfgRegs.nlines (c : CfgRegs) : Nat := (c.cfg0.extractLsb' 4 3).toNat

/-- CFG0.SLOTS (10_state.md R24). -/
def CfgRegs.slots (c : CfgRegs) : Nat := (c.cfg0.extractLsb' 8 2).toNat

/-- CFG0.DEPTH (10_state.md R24). -/
def CfgRegs.depth (c : CfgRegs) : Nat := (c.cfg0.extractLsb' 12 6).toNat

/-- CFG0.FS_EDGE: true is the rising edge (10_state.md R24). -/
def CfgRegs.fsEdge (c : CfgRegs) : Bool := c.cfg0.getLsbD 20

/-- CFG0.FS_DELAY (10_state.md R24). -/
def CfgRegs.fsDelay (c : CfgRegs) : Bool := c.cfg0.getLsbD 21

/-- RATE.SAMPLE_RATE (10_state.md R25). -/
def CfgRegs.sampleRate (c : CfgRegs) : Nat := (c.rate.extractLsb' 0 20).toNat

/-- SYSCLK.SYSCLK_HZ (10_state.md R26). -/
def CfgRegs.sysclkHz (c : CfgRegs) : Nat := c.sysclk.toNat

/-- FRAMEBYTES.BYTES (10_state.md R27). -/
def CfgRegs.bytes (c : CfgRegs) : BitVec 16 := c.framebytes.extractLsb' 0 16

/-- CHMAP.LINE_c (10_state.md R28). -/
def CfgRegs.line (c : CfgRegs) (ch : Nat) : Nat := (c.chmap.extractLsb' (4 * ch) 3).toNat

/-- CHMAP.SLOT_c (10_state.md R28). -/
def CfgRegs.slot (c : CfgRegs) (ch : Nat) : Nat := (c.chmap.getLsbD (4 * ch + 3)).toNat

/-! ### Derived quantities (00_scope.md R6) -/

/-- B: bytes per output sample. -/
def CfgRegs.sampleBytes (c : CfgRegs) : Nat := c.depth / 8

/-- S: samples per channel per delivery frame. -/
def CfgRegs.samples (c : CfgRegs) : Nat := c.sampleRate / 1000

/-- FRAME_BITS: bit-clock periods per serial frame. -/
def CfgRegs.frameBits (c : CfgRegs) : Nat := 32 * c.slots

/-- HALF: capture words per half per line. -/
def CfgRegs.half (c : CfgRegs) : Nat := c.samples * c.slots

/-- N: output samples per delivery frame. -/
def CfgRegs.outSamples (c : CfgRegs) : Nat := c.samples * c.nch

/-! ### CTRL (10_state.md R29) -/

/-- CTRL.MOUNTED. -/
def State.mounted (s : State) : Bool := s.ctrl.getLsbD 0

/-- CTRL.STREAM. -/
def State.stream (s : State) : Bool := s.ctrl.getLsbD 1

/-! ### Constant registers -/

/-- ID (10_state.md R22). -/
def idWord : Word := 0x48540001

/-- PARAMS (10_state.md R23, 45_bus_access.md R222). -/
def paramsWord (p : Params) : Word :=
  (BitVec.ofNat 3 p.nlinesMax).setWidth 32 ||| (BitVec.ofNat 8 p.halfWordsMax).setWidth 32 <<< 8 ||| 6#32 <<< 16

/-! ### Writable masks (10_state.md R24 to R29) -/

/-- CFG0's writable bits (R24). -/
def cfg0Mask : Word := 0x0033F377

/-- RATE's writable bits (R25). -/
def rateMask : Word := 0x000FFFFF

/-- FRAMEBYTES's writable bits (R27). -/
def framebytesMask : Word := 0x0000FFFF

/-- CHMAP's writable bits (R28). -/
def chmapMask : Word := 0x00FFFFFF

/-- CTRL's writable bits (R29, 44_delivery.md R200). -/
def ctrlMask : Word := 0x00000003

end Sys2Proof.Machine
end

