-- ==== Sys2Proof/Machine/BitEvent.lean ====
section
/-! DEFINITION. SEQ's step: the bit event, the DMA write, the completion event and the handoff
(41_sequencer.md R126 to R132, 42_capture_buffer.md R150 to R154). -/

namespace Sys2Proof.Machine

/-! ### The completion event -/

/-- The lines in use, as bits: l < NLINES of A (00_scope.md R6). -/
def State.activeLines (s : State) : BitVec 6 := lineMask s.active.nlines

/-- `Flip()` (42_capture_buffer.md R152). -/
def State.flip (s : State) : State := { s with wt := s.wt ^^^ s.activeLines }

/-- `TearCheck()` (42_capture_buffer.md R154). -/
def State.tearCheck (s : State) : State := if s.asmBusy && !s.asmZero then s.setErr .tear else s

/-- `Handoff()` (42_capture_buffer.md R153). -/
def State.handoff (s : State) : State :=
  let missed := decide (s.halfDone &&& s.activeLines ≠ 0)
  let s := if missed then { s.setErr .overrun with missed := satIncr s.missed } else s
  s.setHalfDone s.activeLines

/-- `CompletionEvent()` (42_capture_buffer.md R151). -/
def State.completionEvent (s : State) : State :=
  { s.flip with widx := 0, primed := true, halfcnt := s.halfcnt + 1 }.tearCheck.handoff

/-! ### The DMA write -/

/-- `CAP[l][WT[l]][widx] <- latch[l]` for the lanes l < n, in ascending order (42_capture_buffer.md R150). -/
def State.storeLanes : Nat → State → State
  | 0, s => s
  | n + 1, s => (State.storeLanes n s).capStore n (s.wt.getLsbD n) s.widx.toNat (s.lane n)

/-- `LatchAndStore()` with its `DmaStore` (41_sequencer.md R131, 42_capture_buffer.md R150). The words written exist in
every state a run reaches (log 16). -/
def State.latchAndStore (s : State) : Host.Outcome State Fault Refusal :=
  if s.active.nlines ≤ s.params.nlinesMax ∧ s.widx.toNat < s.params.halfWordsMax then
    let t := State.storeLanes s.active.nlines s
    if s.widx.toNat + 1 = s.active.half then .next t.completionEvent
    else .next { t with widx := s.widx + 1 }
  else .fault .noSuchCapWord

/-! ### The bit event -/

/-- `FsEdge(fs_prev, fs)` (41_sequencer.md R127). -/
def fsEdge (c : CfgRegs) (prev fs : Bool) : Bool := if c.fsEdge then !prev && fs else prev && !fs

/-- `Acquire(edge)`: the state, and the frame position of this bit if it is used (41_sequencer.md R128). -/
def State.acquire (s : State) (edge : Bool) : State × Option Nat :=
  if !edge then (s, none)
  else if s.active.fsDelay then ({ s with synced := true, pos := 0 }, none)
  else ({ s with synced := true }, some 0)

/-- E: the position of the bit at which an edge is expected (41_sequencer.md R129). -/
def CfgRegs.edgePos (c : CfgRegs) : Nat := (c.frameBits - c.fsDelay.toNat) % c.frameBits

/-- Re-alignment at an unexpected edge: SYNC_ERR, and the slots of the partial serial frame are dropped
(41_sequencer.md R129). -/
def State.realign (s : State) : State :=
  { s.setErr .syncErr with widx := s.widx - BitVec.ofNat 7 (s.widx.toNat % s.active.slots) }

/-- `Track(edge)`: the state, and the frame position of this bit if it is used (41_sequencer.md R129). -/
def State.track (s : State) (edge : Bool) : State × Option Nat :=
  if edge && decide (s.pos.toNat ≠ s.active.edgePos) then
    if s.active.fsDelay then ({ s.realign with pos := 0 }, none) else (s.realign, some 0)
  else (s, some s.pos.toNat)

/-- `Shift(d)`: one bit into every lane in use, most significant bit first (41_sequencer.md R130). -/
def State.shift (s : State) (d : BitVec 6) : State :=
  { s with
    sr := Vector.ofFn fun l : Fin 6 =>
      if l.val < s.active.nlines then ((s.lane l.val).setWidth 31).concat (d.getLsbD l.val) else s.lane l.val }

/-- A bit that is used, at frame position p: shift, latch and store at the end of a slot, advance
(41_sequencer.md R126, R130 to R132). -/
def State.useBit (s : State) (d : BitVec 6) (p : Nat) : Host.Outcome State Fault Refusal :=
  andThen (if p % 32 = 31 then (s.shift d).latchAndStore else .next (s.shift d)) fun t =>
    .next { t with pos := BitVec.ofNat 6 ((p + 1) % s.active.frameBits) }

/-- `BitEvent(fs, d)`, SEQ's step while RUN = 1 (41_sequencer.md R126). -/
def State.bitEvent (s : State) (i : SerialIn) : Host.Outcome State Fault Refusal :=
  if !s.fsv then .next { s with fsPrev := i.fs, fsv := true }
  else
    let edge := fsEdge s.active s.fsPrev i.fs
    let s := { s with fsPrev := i.fs }
    match if s.synced then s.track edge else s.acquire edge with
    | (t, none) => .next t
    | (t, some p) => t.useBit i.sd p

end Sys2Proof.Machine
end

