-- ==== Sys2Proof/Machine/BusAccess.lean ====
section
/-! DEFINITION. The host transactions of identification, status, diagnostics and bus errors
(45_bus_access.md R220 to R235). -/

namespace Sys2Proof.Machine

/-- RD_ID (R220). -/
def execRdId (s : State) : Host.Outcome State Fault Refusal := .next (s.respondRead idWord)

/-- WR_ID (R221). -/
def execWrId (_data : Word) (s : State) : Host.Outcome State Fault Refusal := .next s.respondWrite

/-- RD_PARAMS (R222). -/
def execRdParams (s : State) : Host.Outcome State Fault Refusal := .next (s.respondRead (paramsWord s.params))

/-- WR_PARAMS (R223). -/
def execWrParams (_data : Word) (s : State) : Host.Outcome State Fault Refusal := .next s.respondWrite

/-- RD_STATUS (R224). -/
def execRdStatus (s : State) : Host.Outcome State Fault Refusal := .next (s.respondRead s.statusWord)

/-- WR_STATUS (R225). -/
def execWrStatus (_data : Word) (s : State) : Host.Outcome State Fault Refusal := .next s.respondWrite

/-- WR_DIV (R226). -/
def execWrDiv (_data : Word) (s : State) : Host.Outcome State Fault Refusal := .next s.respondWrite

/-- RD_ERRFLAGS (R227). -/
def execRdErrflags (s : State) : Host.Outcome State Fault Refusal := .next (s.respondRead s.errflags)

/-- W1C_ERRFLAGS (R228). -/
def execW1cErrflags (data : Word) (s : State) : Host.Outcome State Fault Refusal :=
  .next { s with errflags := s.errflags &&& ~~~(data &&& errMask) }.respondWrite

/-- CMD_NOP (R229). -/
def execCmdNop (s : State) : Host.Outcome State Fault Refusal := .next s.respondWrite

/-- CMD_CLR_DIAG (R230). -/
def execCmdClrDiag (s : State) : Host.Outcome State Fault Refusal :=
  .next { s with errflags := 0, missed := 0 }.respondWrite

/-- CMD_RSVD (R231). -/
def execCmdRsvd (_data : Word) (s : State) : Host.Outcome State Fault Refusal := .next (s.setErr .cmdIgn).respondWrite

/-- RD_CMD (R232). -/
def execRdCmd (s : State) : Host.Outcome State Fault Refusal := .next (s.respondRead 0)

/-- WR_MISSED (R233). -/
def execWrMissed (_data : Word) (s : State) : Host.Outcome State Fault Refusal := .next s.respondWrite

/-- WR_HALFCNT (R234). -/
def execWrHalfcnt (_data : Word) (s : State) : Host.Outcome State Fault Refusal := .next s.respondWrite

/-- BUSERR (R235). -/
def execBusErr (write : Bool) (_off : Offset) (_data : Word) (s : State) : Host.Outcome State Fault Refusal :=
  .next (s.busError write)

end Sys2Proof.Machine
end

