-- ==== Sys2Proof/Machine/Capture.lean ====
section
/-! DEFINITION. The host transactions of the double-buffer manager: interrupts, counters, capture-RAM window
(42_capture_buffer.md R155 to R163). -/

namespace Sys2Proof.Machine

/-- RD_IRQ_PEND (R155). -/
def execRdIrqPend (s : State) : Host.Outcome State Fault Refusal := .next (s.respondRead s.irqPend)

/-- W1C_IRQ_PEND (R156). -/
def execW1cIrqPend (data : Word) (s : State) : Host.Outcome State Fault Refusal :=
  .next { s with irqPend := s.irqPend &&& ~~~(data &&& irqMask) }.respondWrite

/-- RD_IRQ_EN (R157). -/
def execRdIrqEn (s : State) : Host.Outcome State Fault Refusal := .next (s.respondRead s.irqEn)

/-- WR_IRQ_EN (R158). -/
def execWrIrqEn (data : Word) (s : State) : Host.Outcome State Fault Refusal :=
  .next { s with irqEn := data &&& irqMask }.respondWrite

/-- RD_MISSED (R159). -/
def execRdMissed (s : State) : Host.Outcome State Fault Refusal := .next (s.respondRead s.missed)

/-- RD_HALFCNT (R160). -/
def execRdHalfcnt (s : State) : Host.Outcome State Fault Refusal := .next (s.respondRead s.halfcnt)

/-- RD_CAPWIN (R162). -/
def execRdCapwin (l : BitVec 3) (h : Bool) (i : BitVec 7) (s : State) : Host.Outcome State Fault Refusal :=
  if capExists s.params l.toNat i.toNat then .next (s.respondRead (s.capWord l.toNat h i.toNat))
  else .next (s.busError false)

/-- WR_CAPWIN (R163): the response is ERR whatever the operands. -/
def execWrCapwin (_l : BitVec 3) (_h : Bool) (_i : BitVec 7) (_data : Word) (s : State) :
    Host.Outcome State Fault Refusal :=
  .next (s.busError true)

end Sys2Proof.Machine
end

