-- ==== Sys2Proof/Machine/Assembler.lean ====
section
/-! DEFINITION. The window extractor, the interleaver and ASM's step
(43_frame_assembler.md R180 to R184; 44_delivery.md R203). -/

namespace Sys2Proof.Machine

/-- `Extract(w, D)`: the top D bits of a capture word (43_frame_assembler.md R180). -/
def extract (w : Word) (d : Nat) : BitVec d := w.extractLsb' (32 - d) d

/-- `Pack(v, D)`: the D/8 bytes of a sample, least significant first (43_frame_assembler.md R181). -/
def pack {d : Nat} (v : BitVec d) : List Byte := (List.range (d / 8)).map fun b => v.extractLsb' (8 * b) 8

/-- `Finish(ok, len)` (44_delivery.md R203). -/
def State.finish (s : State) (ok : Bool) (len : BitVec 16) : State :=
  { s with
    frameOk := ok
    frameLen := len
    asmBusy := false
    frameReady := true
    irqPend := s.irqPend ||| frameDoneBit }

/-- The channel of the next output sample (43_frame_assembler.md R182). -/
def State.asmChannel (s : State) : Nat := s.asmN.toNat % s.active.nch

/-- The line the next output sample is read from (43_frame_assembler.md R182). -/
def State.asmLine (s : State) : Nat := s.active.line s.asmChannel

/-- The word index the next output sample is read from (43_frame_assembler.md R182). -/
def State.asmIndex (s : State) : Nat :=
  s.asmN.toNat / s.active.nch * s.active.slots + s.active.slot s.asmChannel

/-- The capture word of the next output sample: 0 in a zero-fill assembly (43_frame_assembler.md R183, R184). -/
def State.asmWord (s : State) : Word :=
  if s.asmZero then 0 else s.capWord s.asmLine (s.rh.getLsbD s.asmLine) s.asmIndex

/-- The frame byte at which the next output sample starts (43_frame_assembler.md R182). -/
def State.asmAddr (s : State) : Nat := s.asmN.toNat * s.active.sampleBytes

/-- The bytes of the next output sample (43_frame_assembler.md R182). -/
def State.asmBytes (s : State) : List Byte := pack (extract s.asmWord s.active.depth)

/-- The end of one ASM step: the next sample, or the end of the request (43_frame_assembler.md R183). -/
def State.asmAdvance (s : State) : State :=
  if s.asmN.toNat + 1 = s.active.outSamples then { s with asmN := 0 }.finish true s.active.bytes
  else { s with asmN := s.asmN + 1 }

/-- `AsmStep()`, ASM's step while ASM_BUSY = 1 (43_frame_assembler.md R183). The word read and the bytes written exist
in every state a run reaches (log 16). -/
def State.asmStep (s : State) : Host.Outcome State Fault Refusal :=
  if !s.asmZero && !capExists s.params s.asmLine s.asmIndex then .fault .noSuchCapWord
  else if s.params.frameBytesMax < s.asmAddr + s.asmBytes.length then .fault .noSuchFrameByte
  else .next (s.frameStore s.asmAddr s.asmBytes).asmAdvance

end Sys2Proof.Machine
end

