-- ==== Sys2Proof/Machine/Delivery.lean ====
section
/-! DEFINITION. The host transactions of the delivery handshake (44_delivery.md R200 to R207). -/

namespace Sys2Proof.Machine

/-- RD_CTRL (R201). -/
def execRdCtrl (s : State) : Host.Outcome State Fault Refusal := .next (s.respondRead s.ctrl)

/-- WR_CTRL (R200). -/
def execWrCtrl (data : Word) (s : State) : Host.Outcome State Fault Refusal :=
  .next { s with ctrl := data &&& ctrlMask }.respondWrite

/-- The start of an assembly: the snapshot of the read-ready halves (R202). -/
def State.startAssembly (s : State) : State :=
  { s with asmZero := !s.primed, rh := ~~~s.wt, asmN := 0, asmBusy := true }

/-- CMD_FRAME_REQ (R202): busy, then not mounted, then not streaming, then not configured (60_exceptions.md R250). -/
def execCmdFrameReq (s : State) : Host.Outcome State Fault Refusal :=
  if s.asmBusy then .next (s.setErr .cmdIgn).respondWrite
  else
    let s := { s with frameReady := false }
    if !s.mounted then .next (s.finish false 0).respondWrite
    else if !s.stream then .next (s.finish true 0).respondWrite
    else if !s.cfgValid then .next (s.finish false 0).respondWrite
    else .next s.startAssembly.respondWrite

/-- RD_FRAMEWIN (R204). -/
def execRdFramewin (k : BitVec 10) (s : State) : Host.Outcome State Fault Refusal :=
  if frameMapped s.params k.toNat then .next (s.respondRead (s.frameWord k.toNat)) else .next (s.busError false)

/-- WR_FRAMEWIN (R205): the response is ERR whatever the operands. -/
def execWrFramewin (_k : BitVec 10) (_data : Word) (s : State) : Host.Outcome State Fault Refusal :=
  .next (s.busError true)

/-- RD_FRAME_LEN (R206). -/
def execRdFrameLen (s : State) : Host.Outcome State Fault Refusal := .next (s.respondRead (s.frameLen.setWidth 32))

/-- WR_FRAME_LEN (R207). -/
def execWrFrameLen (_data : Word) (s : State) : Host.Outcome State Fault Refusal := .next s.respondWrite

end Sys2Proof.Machine
end

