-- ==== Sys2Proof/Machine/Clock.lean ====
section
/-! DEFINITION. The bit-clock divider (41_sequencer.md R122, R125). -/

namespace Sys2Proof.Machine

/-- `DivQ(f, fs, sl)`: the divider in units of 1/256 cycle, rounded to nearest with ties up, in exact arithmetic
(41_sequencer.md R122). -/
def divQ (f fs sl : Nat) : Nat := (512 * f + 64 * sl * fs) / (2 * (64 * sl) * fs)

/-- The divider a configuration asks for (41_sequencer.md R121, R123). -/
def CfgRegs.divQ (c : CfgRegs) : Nat := Sys2Proof.Machine.divQ c.sysclkHz c.sampleRate c.slots

/-- DIV_INT (10_state.md R32). -/
def State.divInt (s : State) : Nat := (s.divq.extractLsb' 8 16).toNat

/-- DIV_FRAC (10_state.md R32). -/
def State.divFrac (s : State) : BitVec 8 := s.divq.extractLsb' 0 8

/-- The length of the current period in system-clock cycles: I + carry (41_sequencer.md R125). -/
def State.divPeriod (s : State) : Nat :=
  s.divInt + if 256 ≤ s.divAcc.toNat + s.divFrac.toNat then 1 else 0

/-- The end of a period: `bclk_o` toggles and the accumulator takes the fraction (41_sequencer.md R125). -/
def State.divToggle (s : State) : State :=
  { s with divCnt := 0, divAcc := s.divAcc + s.divFrac, bclk := !s.bclk }

/-- One system-clock cycle of the divider (41_sequencer.md R125). -/
def State.divTick (s : State) : State :=
  if s.divPeriod ≤ s.divCnt + 1 then s.divToggle else { s with divCnt := s.divCnt + 1 }

/-- The divider taken to its next rising edge, however many cycles that is (41_sequencer.md R125, R126; log 14). -/
def State.toRisingEdge (s : State) : State := if s.bclk then s.divToggle.divToggle else s.divToggle

/-- `divider phase <- 0; bclk_o <- 0` (41_sequencer.md R123, R124). -/
def State.divClear (s : State) : State := { s with divCnt := 0, divAcc := 0, bclk := false }

end Sys2Proof.Machine
end

