-- ==== Sys2Proof/Machine/Sequencer.lean ====
section
/-! DEFINITION. The host transactions of the sequencer: configuration registers, validation, START, STOP, RD_DIV
(41_sequencer.md R110 to R124, R133). -/

namespace Sys2Proof.Machine

/-! ### Configuration registers -/

/-- A write to a configuration register: it takes effect while RUN = 0 and sets WIGN otherwise; the response is OKAY
(10_state.md R49). -/
def State.writeCfg (s : State) (c : CfgRegs) : State :=
  if s.run then (s.setErr .wign).respondWrite else { s with cfg := c }.respondWrite

/-- RD_CFG0 (R111). -/
def execRdCfg0 (s : State) : Host.Outcome State Fault Refusal := .next (s.respondRead s.cfg.cfg0)

/-- WR_CFG0 (R110). -/
def execWrCfg0 (data : Word) (s : State) : Host.Outcome State Fault Refusal :=
  .next (s.writeCfg { s.cfg with cfg0 := data &&& cfg0Mask })

/-- RD_RATE (R113). -/
def execRdRate (s : State) : Host.Outcome State Fault Refusal := .next (s.respondRead s.cfg.rate)

/-- WR_RATE (R112). -/
def execWrRate (data : Word) (s : State) : Host.Outcome State Fault Refusal :=
  .next (s.writeCfg { s.cfg with rate := data &&& rateMask })

/-- RD_SYSCLK (R115). -/
def execRdSysclk (s : State) : Host.Outcome State Fault Refusal := .next (s.respondRead s.cfg.sysclk)

/-- WR_SYSCLK (R114). -/
def execWrSysclk (data : Word) (s : State) : Host.Outcome State Fault Refusal :=
  .next (s.writeCfg { s.cfg with sysclk := data })

/-- RD_FRAMEBYTES (R117). -/
def execRdFramebytes (s : State) : Host.Outcome State Fault Refusal := .next (s.respondRead s.cfg.framebytes)

/-- WR_FRAMEBYTES (R116). -/
def execWrFramebytes (data : Word) (s : State) : Host.Outcome State Fault Refusal :=
  .next (s.writeCfg { s.cfg with framebytes := data &&& framebytesMask })

/-- RD_CHMAP (R119). -/
def execRdChmap (s : State) : Host.Outcome State Fault Refusal := .next (s.respondRead s.cfg.chmap)

/-- WR_CHMAP (R118). -/
def execWrChmap (data : Word) (s : State) : Host.Outcome State Fault Refusal :=
  .next (s.writeCfg { s.cfg with chmap := data &&& chmapMask })

/-- RD_DIV (R133). -/
def execRdDiv (s : State) : Host.Outcome State Fault Refusal := .next (s.respondRead (s.divq.setWidth 32))

/-! ### Validation (R121) -/

/-- Some channel c < NCH is mapped to a line ≥ NLINES or a slot ≥ SLOTS (R121, code 6). -/
def CfgRegs.chmapBad (c : CfgRegs) : Bool :=
  (List.range c.nch).any fun ch => decide (c.nlines ≤ c.line ch) || decide (c.slots ≤ c.slot ch)

/-- `Validate()`: the ERRCODE of the first check that fails, 0 if none does (R121, 60_exceptions.md R242, R250). -/
def validate (p : Params) (c : CfgRegs) : Nat :=
  if c.nch < 1 ∨ 6 < c.nch then 1
  else if c.nlines < 1 ∨ p.nlinesMax < c.nlines then 2
  else if c.slots ≠ 1 ∧ c.slots ≠ 2 then 3
  else if c.depth ≠ 16 ∧ c.depth ≠ 24 then 4
  else if c.sampleRate < 1000 ∨ c.sampleRate % 1000 ≠ 0 ∨ p.halfWordsMax < c.sampleRate / 1000 * c.slots then 5
  else if c.chmapBad then 6
  else if c.bytes.toNat ≠ c.nch * (c.depth / 8) * (c.sampleRate / 1000) then 7
  else if c.divQ < 256 ∨ 0xFFFFFF < c.divQ then 8
  else 0

/-! ### START and STOP -/

/-- Alignment lost and position cleared: `SYNCED`, `PRIMED`, `fsv`, `pos`, `widx` (R123, R124). -/
def State.clearSequencer (s : State) : State :=
  { s with synced := false, primed := false, fsv := false, pos := 0, widx := 0 }

/-- What a START that passes validation does (R123). -/
def State.startStreaming (s : State) : State :=
  { s.clearSequencer.divClear with
    active := s.cfg
    divq := BitVec.ofNat 24 s.cfg.divQ
    cfgErr := false
    errcode := 0
    cfgValid := true
    run := true
    wt := 0
    halfcnt := 0
    irqPend := s.irqPend &&& ~~~halfDoneMask }

/-- CMD_START (R123). -/
def execCmdStart (s : State) : Host.Outcome State Fault Refusal :=
  if s.run || s.asmBusy then .next (s.setErr .cmdIgn).respondWrite
  else if validate s.params s.cfg ≠ 0 then
    .next { s with cfgErr := true, errcode := BitVec.ofNat 4 (validate s.params s.cfg) }.respondWrite
  else .next s.startStreaming.respondWrite

/-- What a STOP does while streaming (R124). -/
def State.stopStreaming (s : State) : State := { s.clearSequencer.divClear with run := false }

/-- CMD_STOP (R124). -/
def execCmdStop (s : State) : Host.Outcome State Fault Refusal :=
  if s.run then .next s.stopStreaming.respondWrite else .next s.respondWrite

end Sys2Proof.Machine
end

