-- ==== Sys2Proof/Machine/Dispatch.lean ====
section
/-! DEFINITION. The meaning of each host transaction, one arm per row of spec/opcode_table.json
(30_encoding.md R94). -/

namespace Sys2Proof.Machine

/-- What HOST's transaction does to the core. -/
def exec (i : Instr) (s : State) : Host.Outcome State Fault Refusal :=
  match i with
  | .rdId => Sys2Proof.Machine.execRdId s
  | .wrId data => Sys2Proof.Machine.execWrId data s
  | .rdParams => Sys2Proof.Machine.execRdParams s
  | .wrParams data => Sys2Proof.Machine.execWrParams data s
  | .rdCfg0 => Sys2Proof.Machine.execRdCfg0 s
  | .wrCfg0 data => Sys2Proof.Machine.execWrCfg0 data s
  | .rdRate => Sys2Proof.Machine.execRdRate s
  | .wrRate data => Sys2Proof.Machine.execWrRate data s
  | .rdSysclk => Sys2Proof.Machine.execRdSysclk s
  | .wrSysclk data => Sys2Proof.Machine.execWrSysclk data s
  | .rdFramebytes => Sys2Proof.Machine.execRdFramebytes s
  | .wrFramebytes data => Sys2Proof.Machine.execWrFramebytes data s
  | .rdChmap => Sys2Proof.Machine.execRdChmap s
  | .wrChmap data => Sys2Proof.Machine.execWrChmap data s
  | .rdCtrl => Sys2Proof.Machine.execRdCtrl s
  | .wrCtrl data => Sys2Proof.Machine.execWrCtrl data s
  | .rdCmd => Sys2Proof.Machine.execRdCmd s
  | .rdStatus => Sys2Proof.Machine.execRdStatus s
  | .wrStatus data => Sys2Proof.Machine.execWrStatus data s
  | .rdDiv => Sys2Proof.Machine.execRdDiv s
  | .wrDiv data => Sys2Proof.Machine.execWrDiv data s
  | .rdErrflags => Sys2Proof.Machine.execRdErrflags s
  | .w1cErrflags data => Sys2Proof.Machine.execW1cErrflags data s
  | .rdIrqPend => Sys2Proof.Machine.execRdIrqPend s
  | .w1cIrqPend data => Sys2Proof.Machine.execW1cIrqPend data s
  | .rdIrqEn => Sys2Proof.Machine.execRdIrqEn s
  | .wrIrqEn data => Sys2Proof.Machine.execWrIrqEn data s
  | .rdMissed => Sys2Proof.Machine.execRdMissed s
  | .wrMissed data => Sys2Proof.Machine.execWrMissed data s
  | .rdHalfcnt => Sys2Proof.Machine.execRdHalfcnt s
  | .wrHalfcnt data => Sys2Proof.Machine.execWrHalfcnt data s
  | .rdFrameLen => Sys2Proof.Machine.execRdFrameLen s
  | .wrFrameLen data => Sys2Proof.Machine.execWrFrameLen data s
  | .cmdNop => Sys2Proof.Machine.execCmdNop s
  | .cmdStart => Sys2Proof.Machine.execCmdStart s
  | .cmdStop => Sys2Proof.Machine.execCmdStop s
  | .cmdFrameReq => Sys2Proof.Machine.execCmdFrameReq s
  | .cmdClrDiag => Sys2Proof.Machine.execCmdClrDiag s
  | .cmdRsvd data => Sys2Proof.Machine.execCmdRsvd data s
  | .rdCapwin l h k => Sys2Proof.Machine.execRdCapwin l h k s
  | .wrCapwin l h k data => Sys2Proof.Machine.execWrCapwin l h k data s
  | .rdFramewin k => Sys2Proof.Machine.execRdFramewin k s
  | .wrFramewin k data => Sys2Proof.Machine.execWrFramewin k data s
  | .busErr write off data => Sys2Proof.Machine.execBusErr write off data s

end Sys2Proof.Machine
end

