-- ==== Sys2Proof/Machine/Agents.lean ====
section
/-! DEFINITION. The agents' steps, the system-clock cycle that orders them, and reset
(00_scope.md R9, R10; 60_exceptions.md R248, R249; 70_reset_and_hazards.md R270). -/

namespace Sys2Proof.Machine

/-- HOST's step: the next transaction it has to present is decoded and performed; with none to present, nothing happens
(00_scope.md R9; log 2, log 3). -/
def hostTurn (s : State) : Host.Outcome State Fault Refusal :=
  match s.bus with
  | [] => .next s
  | t :: rest =>
    match decode s.params t with
    | some i => exec i { s with bus := rest }
    | none => .refused .illegalTransaction

/-- The serial sample of a bit event: the next one listed, or a draw (41_sequencer.md R126; log 9). -/
def State.sample (s : State) : SerialIn :=
  match s.serial with
  | i :: _ => i
  | [] => Config.serialDraw s.draws

/-- The serial sample of a bit event is used up (log 9). -/
def State.sampled (s : State) : State :=
  match s.serial with
  | _ :: rest => { s with serial := rest }
  | [] => { s with draws := s.draws + 1 }

/-- SEQ's step: enabled iff RUN = 1, one bit event at the next rising edge of `bclk_o`
(00_scope.md R10, 41_sequencer.md R126; log 4, log 14). DESIGN CHOICE: while RUN = 0 no sample is used up, so the samples
listed stay for the bit events after the next START (log 9). -/
def seqTurn (s : State) : Host.Outcome State Fault Refusal :=
  if s.run then s.toRisingEdge.sampled.bitEvent s.sample else .next s

/-- ASM's step: enabled iff ASM_BUSY = 1 (00_scope.md R10, 43_frame_assembler.md R183; log 4). -/
def asmTurn (s : State) : Host.Outcome State Fault Refusal :=
  if s.asmBusy then s.asmStep else .next s

/-- The divider's part of a system-clock cycle while RUN = 1: one tick, and a bit event if `bclk_o` rises
(41_sequencer.md R125, R126). -/
def clockTick (s : State) : Host.Outcome State Fault Refusal :=
  if !s.bclk && s.divTick.bclk then s.divTick.sampled.bitEvent s.sample else .next s.divTick

/-- The next transaction HOST has to present is a W1C write to IRQ_PEND. -/
def State.nextIsAck (s : State) : Bool :=
  match s.bus with
  | [] => false
  | t :: _ =>
    match decode s.params t with
    | some (.w1cIrqPend _) => true
    | _ => false

/-- ASM's and HOST's part of a system-clock cycle: ASM, then HOST (60_exceptions.md R248). A W1C write to IRQ_PEND goes
first instead, so that the FRAME_DONE of an assembly that ends in the same cycle stays set (R249; log 15). -/
def cycleFront (present : Bool) (s : State) : Host.Outcome State Fault Refusal :=
  if !present then asmTurn s
  else if s.nextIsAck then andThen (hostTurn s) asmTurn
  else andThen (asmTurn s) hostTurn

/-- One system-clock cycle: ASM, then HOST, then SEQ (60_exceptions.md R248, R249; 70_reset_and_hazards.md R282). The
divider ticks if RUN was 1 when the cycle began and still is: the cycle of a START is before its first period
(log 15). -/
def cycleTurn (present : Bool) (s : State) : Host.Outcome State Fault Refusal :=
  andThen (cycleFront present s) fun t => if s.run && t.run then clockTick t else .next t

/-- Reset: the reset values are loaded and no agent steps; the RAMs' contents are a new draw, and the inputs stay
(70_reset_and_hazards.md R270, R271; log 13). -/
def resetTurn (s : State) : State :=
  State.resetWith s.params (Config.nextEpoch s.ramEpoch s.cap s.frame) s.bus s.serial s.turns s.draws

/-- One turn (00_scope.md R9, R10). -/
def takeTurn (t : Turn) (s : State) : Host.Outcome State Fault Refusal :=
  match t with
  | .host => hostTurn s
  | .seq => seqTurn s
  | .asm => asmTurn s
  | .cycle present => cycleTurn present s
  | .reset => .next (resetTurn s)

/-- The turns of a list, one after another. -/
def runTurns : List Turn → State → Host.Outcome State Fault Refusal
  | [], s => .next s
  | t :: ts, s => andThen (takeTurn t s) (runTurns ts)

/-- Whose turn is next: the first listed, or a free pick (00_scope.md R10; log 2). -/
def State.nextTurn (s : State) : Turn :=
  match s.turns with
  | t :: _ => t
  | [] => Config.turnPick s.draws

/-- The next turn is used up (log 2). -/
def State.turnTaken (s : State) : State :=
  match s.turns with
  | _ :: rest => { s with turns := rest }
  | [] => { s with draws := s.draws + 1 }

end Sys2Proof.Machine
end

