-- ==== Sys2Proof/Machine/Step.lean ====
section
/-! DEFINITION. One step of the machine: one turn of one agent (00_scope.md R10). -/

namespace Sys2Proof.Machine

/-- One step: the next turn is taken. -/
def step (s : State) : Host.Outcome State Fault Refusal := takeTurn s.nextTurn s.turnTaken

/-- The transaction of an opcode-table word is the next HOST presents, and HOST's turn is next (log 2). -/
def State.withFetchWord (s : State) (nbits w : Nat) : State :=
  { s with bus := tableTxn nbits w :: s.bus, turns := .host :: s.turns }

end Sys2Proof.Machine
end

