-- ==== Sys2Proof/Machine/Program.lean ====
section
/-! DEFINITION. The host's programs: the lines of the assembly syntax and the pseudo-instructions, their transaction
words and the turns they take (30_encoding.md R102, R103), the end of a program's run (70_reset_and_hazards.md R285), and
the accesses of a host in whose address space the window sits at a base (20_memory.md R78). -/

namespace Sys2Proof.Machine

/-- The register names of 10_state.md R21. -/
inductive RegName where
  | id | params | cfg0 | rate | sysclk | framebytes | chmap | ctrl | cmd | status | div | errflags | irqPend | irqEn
  | missed | halfcnt | frameLen
  deriving DecidableEq, Repr

/-- A register name spells its offset (10_state.md R21, 30_encoding.md R102). -/
def RegName.offset : RegName → Offset
  | .id => 0x000
  | .params => 0x004
  | .cfg0 => 0x008
  | .rate => 0x00C
  | .sysclk => 0x010
  | .framebytes => 0x014
  | .chmap => 0x018
  | .ctrl => 0x01C
  | .cmd => 0x020
  | .status => 0x024
  | .div => 0x028
  | .errflags => 0x02C
  | .irqPend => 0x030
  | .irqEn => 0x034
  | .missed => 0x038
  | .halfcnt => 0x03C
  | .frameLen => 0x040

/-- One line of a program: a transaction (R102), a pseudo-instruction or a directive (R103). -/
inductive Line where
  | rd (r : RegName)
  | wr (r : RegName) (imm : Word)
  | rdCap (l : BitVec 3) (h : Bool) (i : BitVec 7)
  | rdFrw (k : BitVec 10)
  | rdAt (off : Offset)
  | wrAt (off : Offset) (imm : Word)
  | nop
  | start
  | stop
  | freq
  | clrdiag
  | ack (m : Word)
  | clrerr (m : Word)
  /-- The host reads `r` until (data AND mask) = val: a loop of the host (`runWait`). -/
  | wait (r : RegName) (mask val : Word)
  /-- Bit events, one a sample. -/
  | ser (samples : List SerialIn)
  /-- ASM steps until ASM_BUSY = 0. -/
  | asmrun
  deriving DecidableEq, Repr

/-- The transaction words of a line, in issue order; of a WAIT, the word of each iteration (R102, R103). -/
def Line.words : Line → List Txn
  | .rd r => [mkTxn false r.offset 0]
  | .wr r imm => [mkTxn true r.offset imm]
  | .rdCap l h i => [encode (.rdCapwin l h i)]
  | .rdFrw k => [encode (.rdFramewin k)]
  | .rdAt off => [mkTxn false off 0]
  | .wrAt off imm => [mkTxn true off imm]
  | .nop => [mkTxn true 0x020 0]
  | .start => [mkTxn true 0x020 1]
  | .stop => [mkTxn true 0x020 2]
  | .freq => [mkTxn true 0x020 3]
  | .clrdiag => [mkTxn true 0x020 4]
  | .ack m => [mkTxn true 0x030 m]
  | .clrerr m => [mkTxn true 0x02C m]
  | .wait r _ _ => [mkTxn false r.offset 0]
  | .ser _ => []
  | .asmrun => []

/-- The condition that ends a WAIT (R103). -/
def waitHolds (mask val : Word) : Response → Bool
  | .read data _ => data &&& mask == val
  | .write _ => false

/-- The samples a line supplies (R103). -/
def Line.samples : Line → List SerialIn
  | .ser samples => samples
  | .rd _ | .wr _ _ | .rdCap _ _ _ | .rdFrw _ | .rdAt _ | .wrAt _ _ | .nop | .start | .stop | .freq | .clrdiag | .ack _
  | .clrerr _ | .wait _ _ _ | .asmrun => []

/-- The most output samples a frame has in any build: 128 time slots of 6 channels (00_scope.md R5, R6). -/
def maxOutSamples : Nat := 768

/-- ASM's turns until ASM_BUSY = 0: as many as any assembly can need; those past its end change nothing (log 4,
log 21). -/
def assemblyTurns : List Turn := List.replicate maxOutSamples .asm

/-- The turns a line takes: HOST's for each word, SEQ's for each sample, ASM's until ASM_BUSY = 0 for ASMRUN; of a WAIT,
the turn of each iteration (R103; 70_reset_and_hazards.md R285). -/
def Line.turns : Line → List Turn
  | .ser samples => List.replicate samples.length .seq
  | .asmrun => assemblyTurns
  | .rd _ | .wr _ _ | .rdCap _ _ _ | .rdFrw _ | .rdAt _ | .wrAt _ _ | .nop | .start | .stop | .freq | .clrdiag | .ack _
  | .clrerr _ | .wait _ _ _ => [.host]

/-- What a line supplies, placed after what the environment already has to do (log 2). DESIGN CHOICE: samples that no bit
event took, since RUN = 0, stay before it (log 9). -/
def State.place (s : State) (l : Line) : State :=
  { s with bus := s.bus ++ l.words, serial := s.serial ++ l.samples, turns := s.turns ++ l.turns }

/-! ### A program's run -/

/-- So many steps of the machine, one after another. -/
def runSteps : Nat → State → Host.Outcome State Fault Refusal
  | 0, s => .next s
  | n + 1, s => andThen (step s) (runSteps n)

/-- A line, and of a WAIT one iteration: what it supplies is placed, and every turn listed is taken. -/
def runLine (l : Line) (s : State) : Host.Outcome State Fault Refusal :=
  runSteps (s.place l).turns.length (s.place l)

/-- One outcome, and a run from the state it answers; a fault or a refusal ends the run. -/
def thenRun (o : Host.Outcome State Fault Refusal) (f : State → Option (Host.Outcome State Fault Refusal)) :
    Option (Host.Outcome State Fault Refusal) :=
  match o with
  | .next s => f s
  | .fault r => some (.fault r)
  | .refused r => some (.refused r)

/-- The read that was just made ends the WAIT. -/
def State.waitEnds (s : State) (mask val : Word) : Bool := s.resp.any (waitHolds mask val)

/-- A WAIT: the host reads `r` until (data AND mask) = val (R103). After a read for which that does not hold, ASM steps
until ASM_BUSY = 0, and the host reads again (70_reset_and_hazards.md R285; log 21). None where it has not ended after so
many reads: a WAIT whose condition never holds does not end (93_implementation_defined.md U21). -/
def runWait (r : RegName) (mask val : Word) : Nat → State → Option (Host.Outcome State Fault Refusal)
  | 0, _ => none
  | n + 1, s => thenRun (runLine (.rd r) s) fun t =>
      if t.waitEnds mask val then some (.next t) else thenRun (runLine .asmrun t) (runWait r mask val n)

/-- The run of one line, each WAIT of at most `reads` reads. -/
def runWhole (reads : Nat) (l : Line) (s : State) : Option (Host.Outcome State Fault Refusal) :=
  match l with
  | .wait r mask val => runWait r mask val reads s
  | .rd _ | .wr _ _ | .rdCap _ _ _ | .rdFrw _ | .rdAt _ | .wrAt _ _ | .nop | .start | .stop | .freq | .clrdiag | .ack _
  | .clrerr _ | .ser _ | .asmrun => some (runLine l s)

/-- The end of a program's run: every listed transaction, exactly the listed bit events, and every ASM step that an ASMRUN
or a WAIT calls for are done, line by line. None where some WAIT has not ended after `reads` reads. The core itself does
not stop there: it has a further step in every state (70_reset_and_hazards.md R285). DESIGN CHOICE: where a program leaves
an assembly running, with no ASMRUN and no WAIT's read in vain after its request, no line calls for ASM's steps and none is
taken, so ASM_BUSY = 1 at the end; R285 wants ASM_BUSY = 0 there and says of no step that it brings it about (log 21). -/
def programEnd (reads : Nat) : List Line → State → Option (Host.Outcome State Fault Refusal)
  | [], s => some (.next s)
  | l :: ls, s => (runWhole reads l s).bind fun o => thenRun o (programEnd reads ls)

/-- A program's run from `s` ends, with `t`: there is a number of reads after which every WAIT of it has ended
(70_reset_and_hazards.md R285; 93_implementation_defined.md U21). -/
def ProgramEnds (program : List Line) (s t : State) : Prop := ∃ reads, programEnd reads program s = some (.next t)

/-! ### The window's place in a host's address space -/

/-- An access of a host's processor, at an address of the host's physical address space. -/
inductive HostAccess where
  | load (addr : Nat)
  | store (addr : Nat) (data : Word)
  deriving DecidableEq, Repr

/-- The bytes of the core's window (00_scope.md R4). -/
def windowBytes : Nat := 0x4000

/-- An address lies in the window of a core that sits at `base`, which is the platform's choice (20_memory.md R78;
log 22). -/
def inWindow (base addr : Nat) : Bool := decide (base ≤ addr) && decide (addr < base + windowBytes)

/-- The byte offset of an address in the window of a core that sits at `base` (20_memory.md R78). -/
def windowOffset (base addr : Nat) : Offset := BitVec.ofNat 14 (addr - base)

/-- What an access is to a core whose window sits at `base`: the transaction at the address's offset, and nothing where
the address is outside the window (20_memory.md R78; log 22). -/
def HostAccess.lines (base : Nat) : HostAccess → List Line
  | .load addr => if inWindow base addr then [.rdAt (windowOffset base addr)] else []
  | .store addr data => if inWindow base addr then [.wrAt (windowOffset base addr) data] else []

/-- A host's accesses placed in order, for a core whose window sits at `base` (20_memory.md R78; log 2, log 22). -/
def State.loadAt (base : Nat) (s : State) (accesses : List HostAccess) : State :=
  (accesses.flatMap (HostAccess.lines base)).foldl State.place s

end Sys2Proof.Machine
end

