-- ==== Sys2Proof/Safety.lean ====
section
/-! DEFINITION. The terms claims are stated in: what a good state is, what a safe step is, what
happens in a system-clock cycle, and the relations that say what a run cannot tell apart. -/

namespace Sys2Proof

/-- The agents' own steps: not a whole system-clock cycle and not a reset (00_scope.md R9). -/
def Turn.isAgent : Turn → Bool
  | .host | .seq | .asm => true
  | .cycle _ | .reset => false

end Sys2Proof

namespace Sys2Proof.Machine

/-! ### The invariant -/

/-- Reserved bits are 0, bits of lines that do not exist are 0, and ERRCODE is a code START produces
(30_encoding.md R95; 10_state.md R31, R34, R42; 60_exceptions.md R242). -/
structure State.RegsOk (s : State) : Prop where
  cfg0 : s.cfg.cfg0 &&& ~~~cfg0Mask = 0
  rate : s.cfg.rate &&& ~~~rateMask = 0
  framebytes : s.cfg.framebytes &&& ~~~framebytesMask = 0
  chmap : s.cfg.chmap &&& ~~~chmapMask = 0
  ctrl : s.ctrl &&& ~~~ctrlMask = 0
  errflags : s.errflags &&& ~~~errMask = 0
  irqPend : s.irqPend &&& ~~~irqMask = 0
  irqEn : s.irqEn &&& ~~~irqMask = 0
  halfDone : s.halfDone &&& ~~~lineMask s.params.nlinesMax = 0
  wt : s.wt &&& ~~~lineMask s.params.nlinesMax = 0
  errcode : s.errcode.toNat ≤ 8
  cfgErr : s.cfgErr = decide (s.errcode ≠ 0)

/-- The active configuration passed validation, DIV is its divider, nothing runs without one, and while RUN = 1 the
registers still hold it (10_state.md R39; 41_sequencer.md R111, R123, R133). -/
structure State.ActiveOk (s : State) : Prop where
  valid : s.cfgValid = true → validate s.params s.active = 0
  divq : s.cfgValid = true → s.divq.toNat = s.active.divQ
  run : s.run = true → s.cfgValid = true
  asmBusy : s.asmBusy = true → s.cfgValid = true
  cfg : s.run = true → s.cfg = s.active

/-- The sequencer's position: in range, and at the slot that the next word belongs to; nothing of it is left while
RUN = 0 (10_state.md R41; 41_sequencer.md R124, R128 to R132). -/
structure State.SeqOk (s : State) : Prop where
  stopped : s.run = false → s.synced = false ∧ s.primed = false ∧ s.fsv = false
  idle : s.synced = false → s.pos = 0 ∧ s.widx = 0
  widx : s.run = true → s.widx.toNat < s.active.half
  pos : s.run = true → s.pos.toNat < s.active.frameBits
  slot : s.run = true → s.pos.toNat / 32 = s.widx.toNat % s.active.slots
  divider : s.run = false → s.divCnt = 0 ∧ s.divAcc = 0 ∧ s.bclk = false
  divCnt : s.run = true → s.divCnt < s.divPeriod

/-- While RUN = 1 the lines in use all have the same write target, and the others have 0 (10_state.md R48). -/
def State.WtOk (s : State) : Prop := s.run = true → s.wt = 0 ∨ s.wt = s.activeLines

/-- The assembler's index is in range while it runs and 0 otherwise, and a running request is not ready
(10_state.md R43; 44_delivery.md R202, R203). -/
structure State.AsmOk (s : State) : Prop where
  busy : s.asmBusy = true → s.asmN.toNat < s.active.outSamples ∧ s.frameReady = false
  idle : s.asmBusy = false → s.asmN = 0

/-- Both RAMs are in canonical form, and list only bytes that exist (10_state.md R44, R45). -/
structure State.RamOk (s : State) : Prop where
  cap : s.cap.wf = true
  frame : s.frame.wf = true
  capRange : ∀ c ∈ s.cap, capExists s.params (c.1 / 1024) (c.1 % 512 / 4) = true
  frameRange : ∀ c ∈ s.frame, c.1 < s.params.frameBytesMax

/-- The machine's invariant. -/
structure State.Inv (s : State) : Prop where
  regs : s.RegsOk
  active : s.ActiveOk
  seq : s.SeqOk
  wt : s.WtOk
  asm : s.AsmOk
  ram : s.RamOk

/-- A state from which no step stops with a fault. -/
def State.Safe (s : State) : Prop := ∀ r, step s ≠ .fault r

/-! ### Validation, as the table of 60_exceptions.md R242 lists it -/

/-- The cause of ERRCODE `k` holds of a configuration (60_exceptions.md R242), in the registers' bits. -/
def codeCause (p : Params) (c : CfgRegs) : Nat → Prop
  | 1 => ¬ (1 ≤ c.nch ∧ c.nch ≤ 6)
  | 2 => ¬ (1 ≤ c.nlines ∧ c.nlines ≤ p.nlinesMax)
  | 3 => ¬ (c.slots = 1 ∨ c.slots = 2)
  | 4 => ¬ (c.depth = 16 ∨ c.depth = 24)
  | 5 => c.sampleRate < 1000 ∨ c.sampleRate % 1000 ≠ 0 ∨ p.halfWordsMax < c.sampleRate / 1000 * c.slots
  | 6 => ∃ ch, ch < c.nch ∧ (c.nlines ≤ c.line ch ∨ c.slots ≤ c.slot ch)
  | 7 => c.bytes.toNat ≠ c.nch * (c.depth / 8) * (c.sampleRate / 1000)
  | 8 => ¬ (256 ≤ c.divQ ∧ c.divQ ≤ 0xFFFFFF)
  | _ => False

/-! ### Frames -/

/-- The source word of output sample n of the running or last assembly (43_frame_assembler.md R182, R184). -/
def State.sourceWord (s : State) (n : Nat) : Word :=
  let ch := n % s.active.nch
  let l := s.active.line ch
  if s.asmZero then 0 else s.capWord l (s.rh.getLsbD l) (n / s.active.nch * s.active.slots + s.active.slot ch)

/-- Bytes FRAME[n·B .. n·B + B − 1] hold output sample n (43_frame_assembler.md R180 to R182): byte b is bits
[8b+7 : 8b] of the top D bits of its source word. -/
def State.frameHolds (s : State) (n : Nat) : Prop :=
  ∀ b < s.active.sampleBytes,
    s.frameByte (n * s.active.sampleBytes + b) = (s.sourceWord n).extractLsb' (32 - s.active.depth + 8 * b) 8

/-- An assembly that no completion event has overtaken is running, and its first `asmN` samples stand in the frame
RAM: the halves it reads are the read-ready ones (42_capture_buffer.md R161, 43_frame_assembler.md R187). -/
structure State.Assembling (s : State) : Prop where
  busy : s.asmBusy = true
  snapshot : ∀ l < s.active.nlines, s.rh.getLsbD l = !s.wt.getLsbD l
  done : ∀ n < s.asmN.toNat, s.frameHolds n

/-- The assembly has ended, and the whole frame stands in the frame RAM (43_frame_assembler.md R185, R187). -/
structure State.Assembled (s : State) : Prop where
  idle : s.asmBusy = false
  ready : s.frameReady = true
  ok : s.frameOk = true
  len : s.frameLen.toNat = s.active.outSamples * s.active.sampleBytes
  done : ∀ n < s.active.outSamples, s.frameHolds n

/-! ### What happens in a system-clock cycle, seen from the state before it -/

/-- The divider's tick raises `bclk_o` while RUN = 1 (41_sequencer.md R125, R126). -/
abbrev State.risesNow (s : State) : Prop := s.run = true ∧ s.bclk = false ∧ s.divPeriod ≤ s.divCnt + 1

/-- A bit event comes, and finds the frame-sync edge where it does not expect it (41_sequencer.md R129). -/
abbrev State.realignsNow (s : State) : Prop :=
  s.risesNow ∧ s.fsv = true ∧ s.synced = true ∧ fsEdge s.active s.fsPrev s.sample.fs = true ∧
    s.pos.toNat ≠ s.active.edgePos

/-- A bit event comes, and is a completion event: the last bit of the last word of a half
(41_sequencer.md R131, 42_capture_buffer.md R150, R151). -/
abbrev State.completesNow (s : State) : Prop :=
  s.risesNow ∧ s.fsv = true ∧ s.synced = true ∧
    ¬ (fsEdge s.active s.fsPrev s.sample.fs = true ∧ s.pos.toNat ≠ s.active.edgePos) ∧ s.pos.toNat % 32 = 31 ∧
    s.active.nlines ≤ s.params.nlinesMax ∧ s.widx.toNat < s.params.halfWordsMax ∧ s.widx.toNat + 1 = s.active.half

/-- ASM's step is the last of the assembly (43_frame_assembler.md R183). -/
abbrev State.finishesNow (s : State) : Prop := s.asmBusy = true ∧ s.asmN.toNat + 1 = s.active.outSamples

/-! ### What a run cannot tell apart -/

/-- The same outcome up to a relation on states. -/
def outcomesAgree (r : State → State → Prop) : Host.Outcome State Fault Refusal → Host.Outcome State Fault Refusal → Prop
  | .next s, .next t => r s t
  | .fault a, .fault b => a = b
  | .refused a, .refused b => a = b
  | _, _ => False

/-- Equal but for the divider's phase and the bit clock (41_sequencer.md R125: timing only). -/
def State.sameButDivider (s t : State) : Prop :=
  t = { s with divCnt := t.divCnt, divAcc := t.divAcc, bclk := t.bclk }

/-- Equal but for the active configuration, which may differ only while there is none (10_state.md R39). -/
def State.sameButUnsetActive (s t : State) : Prop :=
  t = { s with active := t.active } ∧ (s.cfgValid = true → t.active = s.active)

/-- Equal but for the shift registers, which agree on the bits that the current slot has shifted in: for a lane in use,
once sync is acquired, the low `pos mod 32` bits (10_state.md R41). -/
def State.sameButStaleBits (s t : State) : Prop :=
  t = { s with sr := t.sr } ∧
    (s.synced = true → ∀ l < s.active.nlines, ∀ k < s.pos.toNat % 32, (t.lane l).getLsbD k = (s.lane l).getLsbD k)

end Sys2Proof.Machine
end

