-- ==== Sys2Proof/Certificates/Slice0/Obligations.lean ====
section
/-! DEFINITION. The statements for the provers, from the spec's numbered rules. A statement about every state holds in
states that no run reaches too; where it needs the invariant, it says so. -/

open Sys2Proof Sys2Proof.Machine

/-! ### Encoding -/

/-- Decoding the word of a well-formed transaction gives the transaction back, in every build (30_encoding.md R90, R94).
That a write to a mapped window word is WR_CAPWIN or WR_FRAMEWIN is the model's reading (log 11), and so is the DATA 0 of
a BUSERR read (log 12). -/
def Obligations.DecodeAfterEncodeIsIdentity : Prop :=
  ∀ (p : Params) (i : Instr), i.wf p = true → decode p (encode i) = some i

/-- Every word with T[46] = 0 is exactly one well-formed transaction, and no other word is one (30_encoding.md R93, R97); which
transaction a window write is, is the model's reading (log 11). -/
def Obligations.DecoderIsTotalOnLegalWords : Prop :=
  ∀ (p : Params) (t : Txn),
    (t.getLsbD 46 = false → ∃ i, decode p t = some i ∧ i.wf p = true) ∧ (t.getLsbD 46 = true → decode p t = none)

/-- The word of the transaction a canonical word spells is that word: no bit but a read's DATA is dropped
(30_encoding.md R90, R92). -/
def Obligations.EncodeAfterDecodeIsIdentityOnCanonicalWords : Prop :=
  ∀ (p : Params) (t : Txn) (i : Instr), decode p t = some i →
    (t.getLsbD 47 = true ∨ t.extractLsb' 0 32 = 0) → encode i = t

/-- Words written out in 95_test_vectors.md 3.1 decode to the transactions they stand for, in the build of the examples. -/
def Obligations.WordsOfTheVectorTableDecode : Prop :=
  decode Params.sample 0x000000000000 = some .rdId ∧
  decode Params.sample 0x800800210212 = some (.wrCfg0 0x00210212) ∧
  decode Params.sample 0x802000000001 = some .cmdStart ∧
  decode Params.sample 0x802000000101 = some (.cmdRsvd 0x101) ∧
  decode Params.sample 0x802200000001 = some (.busErr true 0x0022 1) ∧
  decode Params.sample 0x117C00000000 = some (.rdCapwin 0 false 95) ∧
  decode Params.sample 0x118000000000 = some (.busErr false 0x1180 0) ∧
  decode Params.sample 0x36BC00000000 = some (.rdFramewin 431) ∧
  decode Params.sample 0x36C000000000 = some (.busErr false 0x36C0 0) ∧
  decode Params.sample 0x400000000000 = none

/-! ### HOST's step -/

/-- A step takes the next turn. HOST's performs the transaction its next word spells: the step is `exec` of it, with the
word used up; with no word it changes nothing. SEQ's is, while RUN = 1, the bit event on the next serial sample, at the
divider's next rising edge, and changes nothing while RUN = 0. ASM's is AsmStep while ASM_BUSY = 1, and changes nothing
while ASM_BUSY = 0 (00_scope.md R9, R10; 41_sequencer.md R126; 43_frame_assembler.md R183). The lists of words, samples and
turns, and the free sample where none is listed, are the model's own (logs 2, 3, 4, 9, 14). -/
def Obligations.StepRunsTheDecodedTransaction : Prop :=
  ∀ (s : State) (ts : List Turn),
    (s.turns = .host :: ts →
      (∀ (w : Txn) (rest : List Txn) (i : Instr), s.bus = w :: rest → decode s.params w = some i →
        step s = exec i { s with turns := ts, bus := rest }) ∧
      (s.bus = [] → step s = .next { s with turns := ts })) ∧
    (s.turns = .seq :: ts →
      (s.run = true → ∀ (i : SerialIn) (rest : List SerialIn), s.serial = i :: rest →
        step s = ({ s with turns := ts, serial := rest } : State).toRisingEdge.bitEvent i) ∧
      (s.run = true → s.serial = [] →
        step s = ({ s with turns := ts, draws := s.draws + 1 } : State).toRisingEdge.bitEvent (Config.serialDraw s.draws)) ∧
      (s.run = false → step s = .next { s with turns := ts })) ∧
    (s.turns = .asm :: ts →
      (s.asmBusy = true → step s = ({ s with turns := ts } : State).asmStep) ∧
      (s.asmBusy = false → step s = .next { s with turns := ts }))

/-- A word with T[46] = 1 spells no transaction, and HOST's step with it is refused by name (30_encoding.md R97); the lists
of words and turns are the model's own (log 2). -/
def Obligations.IllegalWordIsRefused : Prop :=
  ∀ (s : State) (ts : List Turn) (w : Txn) (rest : List Txn),
    s.turns = .host :: ts → s.bus = w :: rest → w.getLsbD 46 = true → step s = .refused .illegalTransaction

/-- A transaction's response is ERR exactly in the five cases of 20_memory.md R80; then no state changes and a read
returns 0. Otherwise the response is OKAY. -/
def Obligations.ErrorResponseExactlyWhereTheMapSays : Prop :=
  ∀ (s : State) (w : Txn) (rest : List Txn), s.bus = w :: rest → w.getLsbD 46 = false →
    let off := (w.extractLsb' 32 14).toNat
    let write := w.getLsbD 47
    let bad : Prop :=
      off % 4 ≠ 0 ∨
      (0x0044 ≤ off ∧ off ≤ 0x0FFF) ∨
      (0x1000 ≤ off ∧ off ≤ 0x2FFF ∧
        ¬ ((off - 0x1000) / 1024 < s.params.nlinesMax ∧ (off - 0x1000) / 4 % 128 < s.params.halfWordsMax)) ∨
      (0x3000 ≤ off ∧ ¬ 4 * ((off - 0x3000) / 4) < 18 * s.params.halfWordsMax) ∨
      (write = true ∧ 0x1000 ≤ off)
    (bad → hostTurn s =
      .next { s with bus := rest, resp := some (if write then .write true else .read 0 true) }) ∧
    (¬ bad → ∃ t, hostTurn s = .next t ∧ t.busErrOut = false)

/-- A read changes nothing but the response, and the same read again gives the same response (20_memory.md R76). -/
def Obligations.ReadsHaveNoSideEffect : Prop :=
  ∀ (s : State) (w : Txn) (rest : List Txn), s.bus = w :: w :: rest → w.getLsbD 46 = false → w.getLsbD 47 = false →
    ∃ r, hostTurn s = .next { s with bus := w :: rest, resp := some r } ∧
      hostTurn { s with bus := w :: rest, resp := some r } = .next { s with bus := rest, resp := some r }

/-- Every transaction completes: whatever its operands and the state, `exec` answers a next state that holds its
response, and the build and the other agents' inputs are as before (60_exceptions.md R240). -/
def Obligations.EveryTransactionCompletes : Prop :=
  ∀ (i : Instr) (s : State), ∃ t r, exec i s = .next t ∧ t.resp = some r ∧
    t.params = s.params ∧ t.bus = s.bus ∧ t.serial = s.serial ∧ t.turns = s.turns ∧ t.draws = s.draws ∧
    (∀ a, t.capByte a = s.capByte a) ∧ (∀ a, t.frameByte a = s.frameByte a)

/-! ### Configuration registers -/

/-- A write to a configuration register stores the masked data while RUN = 0, and otherwise is dropped and sets WIGN;
a write to CTRL or IRQ_EN stores the masked data at any time. Nothing else changes and the response is OKAY
(41_sequencer.md R110, R112, R114, R116, R118; 44_delivery.md R200; 42_capture_buffer.md R158). -/
def Obligations.RegisterWrites : Prop :=
  ∀ (s : State) (d : Word),
    exec (.wrCtrl d) s = .next { s with ctrl := d &&& 0x00000003, resp := some (.write false) } ∧
    exec (.wrIrqEn d) s = .next { s with irqEn := d &&& 0x0000013F, resp := some (.write false) } ∧
    (s.run = false →
      exec (.wrCfg0 d) s =
        .next { s with cfg := { s.cfg with cfg0 := d &&& 0x0033F377 }, resp := some (.write false) } ∧
      exec (.wrRate d) s =
        .next { s with cfg := { s.cfg with rate := d &&& 0x000FFFFF }, resp := some (.write false) } ∧
      exec (.wrSysclk d) s = .next { s with cfg := { s.cfg with sysclk := d }, resp := some (.write false) } ∧
      exec (.wrFramebytes d) s =
        .next { s with cfg := { s.cfg with framebytes := d &&& 0x0000FFFF }, resp := some (.write false) } ∧
      exec (.wrChmap d) s =
        .next { s with cfg := { s.cfg with chmap := d &&& 0x00FFFFFF }, resp := some (.write false) }) ∧
    (s.run = true →
      ∀ i ∈ [Instr.wrCfg0 d, .wrRate d, .wrSysclk d, .wrFramebytes d, .wrChmap d],
        exec i s = .next { s with errflags := s.errflags ||| 0x00000008, resp := some (.write false) })

/-- A register written and read back shows, bit for bit, the fields its rule names: a named field's bits are the
data's, every other bit is 0 (10_state.md R24 to R29, R35; 30_encoding.md R91, R95). -/
def Obligations.WriteThenReadShowsTheNamedFields : Prop :=
  ∀ (s : State) (d : Word), s.run = false →
    ∀ x ∈ [(Instr.wrCfg0 d, Instr.rdCfg0, fun k : Nat => decide (k ≤ 2 ∨ (4 ≤ k ∧ k ≤ 6) ∨ (8 ≤ k ∧ k ≤ 9) ∨
                (12 ≤ k ∧ k ≤ 17) ∨ k = 20 ∨ k = 21)),
           (.wrRate d, .rdRate, fun k => decide (k ≤ 19)),
           (.wrSysclk d, .rdSysclk, fun _ => true),
           (.wrFramebytes d, .rdFramebytes, fun k => decide (k ≤ 15)),
           (.wrChmap d, .rdChmap, fun k => decide (k ≤ 23)),
           (.wrCtrl d, .rdCtrl, fun k => decide (k ≤ 1)),
           (.wrIrqEn d, .rdIrqEn, fun k => decide (k ≤ 5 ∨ k = 8))],
      ∃ t u v, exec x.1 s = .next t ∧ exec x.2.1 t = .next u ∧ u.resp = some (.read v false) ∧
        ∀ k < 32, v.getLsbD k = (d.getLsbD k && x.2.2 k)

/-- Reads of the configuration registers, CTRL and DIV return the register and change nothing else
(41_sequencer.md R111, R113, R115, R117, R119, R133; 44_delivery.md R201). -/
def Obligations.ConfigurationReads : Prop :=
  ∀ s : State,
    exec .rdCfg0 s = .next { s with resp := some (.read s.cfg.cfg0 false) } ∧
    exec .rdRate s = .next { s with resp := some (.read s.cfg.rate false) } ∧
    exec .rdSysclk s = .next { s with resp := some (.read s.cfg.sysclk false) } ∧
    exec .rdFramebytes s = .next { s with resp := some (.read s.cfg.framebytes false) } ∧
    exec .rdChmap s = .next { s with resp := some (.read s.cfg.chmap false) } ∧
    exec .rdCtrl s = .next { s with resp := some (.read s.ctrl false) } ∧
    exec .rdDiv s = .next { s with resp := some (.read (BitVec.ofNat 32 s.divq.toNat) false) }

/-- Reads of the identification, diagnostic, interrupt and result registers (45_bus_access.md R220, R222, R227, R232;
42_capture_buffer.md R155, R157, R159, R160; 44_delivery.md R206). -/
def Obligations.DiagnosticReads : Prop :=
  ∀ s : State,
    exec .rdId s = .next { s with resp := some (.read 0x48540001 false) } ∧
    exec .rdParams s = .next { s with resp := some (.read
      (BitVec.ofNat 32 (s.params.nlinesMax + 2 ^ 8 * s.params.halfWordsMax + 2 ^ 16 * 6)) false) } ∧
    exec .rdCmd s = .next { s with resp := some (.read 0 false) } ∧
    exec .rdErrflags s = .next { s with resp := some (.read s.errflags false) } ∧
    exec .rdIrqPend s = .next { s with resp := some (.read s.irqPend false) } ∧
    exec .rdIrqEn s = .next { s with resp := some (.read s.irqEn false) } ∧
    exec .rdMissed s = .next { s with resp := some (.read s.missed false) } ∧
    exec .rdHalfcnt s = .next { s with resp := some (.read s.halfcnt false) } ∧
    exec .rdFrameLen s = .next { s with resp := some (.read (BitVec.ofNat 32 s.frameLen.toNat) false) }

/-- STATUS, bit by bit (45_bus_access.md R224): every named bit is its state bit, WT bits of lines that do not exist
and reserved bits read 0. -/
def Obligations.StatusReadBitByBit : Prop :=
  ∀ s : State, ∃ v : Word, exec .rdStatus s = .next { s with resp := some (.read v false) } ∧
    v.getLsbD 0 = s.run ∧ v.getLsbD 1 = s.synced ∧ v.getLsbD 2 = s.primed ∧ v.getLsbD 3 = s.asmBusy ∧
    v.getLsbD 4 = s.frameReady ∧ v.getLsbD 5 = s.frameOk ∧ v.getLsbD 6 = s.cfgValid ∧ v.getLsbD 8 = s.cfgErr ∧
    (∀ k < 4, v.getLsbD (12 + k) = s.errcode.getLsbD k) ∧
    (∀ l < 6, v.getLsbD (16 + l) = (decide (l < s.params.nlinesMax) && s.wt.getLsbD l)) ∧
    v.getLsbD 24 = s.irqO ∧
    ∀ k < 32, (k = 7 ∨ (9 ≤ k ∧ k ≤ 11) ∨ k = 22 ∨ k = 23 ∨ 25 ≤ k) → v.getLsbD k = false

/-- The interrupt line is high exactly when an enabled bit is pending, and STATUS.IRQ shows it (10_state.md R46). -/
def Obligations.InterruptLineIsEnabledAndPending : Prop :=
  ∀ s : State,
    (s.irqO = true ↔
      (∃ l < 6, s.irqPend.getLsbD l = true ∧ s.irqEn.getLsbD l = true) ∨
        (s.irqPend.getLsbD 8 = true ∧ s.irqEn.getLsbD 8 = true)) ∧
    s.statusWord.getLsbD 24 = s.irqO

/-- Writes to read-only registers, and the NOP command, change nothing and answer OKAY (45_bus_access.md R221, R223,
R225, R226, R229, R233, R234; 44_delivery.md R207). -/
def Obligations.WritesThatChangeNothing : Prop :=
  ∀ (s : State) (d : Word),
    ∀ i ∈ [Instr.wrId d, .wrParams d, .wrStatus d, .wrDiv d, .wrMissed d, .wrHalfcnt d, .wrFrameLen d, .cmdNop],
      exec i s = .next { s with resp := some (.write false) }

/-- Clearing: a write of 1 clears those bits that the register has, CLR_DIAG clears ERRFLAGS and MISSED; a reserved
command sets CMD_IGN. Nothing else changes and the response is OKAY (45_bus_access.md R228, R230, R231;
42_capture_buffer.md R156). -/
def Obligations.ClearsAndReservedCommands : Prop :=
  ∀ (s : State) (d : Word),
    exec .cmdClrDiag s = .next { s with errflags := 0, missed := 0, resp := some (.write false) } ∧
    exec (.cmdRsvd d) s = .next { s with errflags := s.errflags ||| 0x00000010, resp := some (.write false) } ∧
    (∃ e, exec (.w1cErrflags d) s = .next { s with errflags := e, resp := some (.write false) } ∧
      ∀ k < 32, e.getLsbD k = (s.errflags.getLsbD k && !(decide (k < 5) && d.getLsbD k))) ∧
    (∃ q, exec (.w1cIrqPend d) s = .next { s with irqPend := q, resp := some (.write false) } ∧
      ∀ k < 32, q.getLsbD k = (s.irqPend.getLsbD k && !(decide (k < 6 ∨ k = 8) && d.getLsbD k)))

/-! ### Validation, the divider, START and STOP -/

/-- Validation returns the lowest code whose cause holds, and 0 if none does (41_sequencer.md R121). -/
def Obligations.ValidationGivesTheFirstFailingCheck : Prop :=
  ∀ (p : Params) (c : CfgRegs) (n : Nat), validate p c = n ↔
    (n = 0 ∧ ∀ k, ¬ codeCause p c k) ∨ (codeCause p c n ∧ ∀ k < n, ¬ codeCause p c k)

/-- DivQ is 256·f / (OSF·fs) rounded to nearest, ties up (41_sequencer.md R122). -/
def Obligations.DividerIsNearestTiesUp : Prop :=
  ∀ f fs sl : Nat, 1 ≤ fs → 1 ≤ sl →
    (divQ f fs sl : ℚ) - 1 / 2 ≤ 256 * f / (64 * sl * fs) ∧ (256 * f / (64 * sl * fs) : ℚ) < divQ f fs sl + 1 / 2

/-- The achieved sample rate is within 1/(2·DIVQ) of the target, relatively (41_sequencer.md R120). -/
def Obligations.AchievedRateIsWithinHalfADividerUnit : Prop :=
  ∀ f fs sl : Nat, 1 ≤ fs → 1 ≤ sl → 1 ≤ divQ f fs sl →
    |(f * 256 / (64 * sl * divQ f fs sl) : ℚ) - fs| / fs ≤ 1 / (2 * divQ f fs sl)

/-- START (41_sequencer.md R123): ignored with CMD_IGN while running or assembling; a configuration that fails
validation is reported and nothing else changes; otherwise the core starts, with exactly the effects listed. -/
def Obligations.StartCommand : Prop :=
  ∀ s : State,
    (s.run = true ∨ s.asmBusy = true →
      exec .cmdStart s = .next { s with errflags := s.errflags ||| 0x00000010, resp := some (.write false) }) ∧
    (s.run = false → s.asmBusy = false → validate s.params s.cfg ≠ 0 →
      exec .cmdStart s = .next { s with
        cfgErr := true, errcode := BitVec.ofNat 4 (validate s.params s.cfg), resp := some (.write false) }) ∧
    (s.run = false → s.asmBusy = false → validate s.params s.cfg = 0 →
      exec .cmdStart s = .next { s with
        active := s.cfg
        divq := BitVec.ofNat 24 (divQ s.cfg.sysclkHz s.cfg.sampleRate s.cfg.slots)
        cfgErr := false, errcode := 0, cfgValid := true
        run := true, synced := false, primed := false
        fsv := false, pos := 0, widx := 0
        wt := 0, halfcnt := 0
        irqPend := s.irqPend &&& 0xFFFFFFC0
        divCnt := 0, divAcc := 0, bclk := false
        resp := some (.write false) })

/-- STOP (41_sequencer.md R124): no effect while stopped; otherwise the core stops, with exactly the effects listed. -/
def Obligations.StopCommand : Prop :=
  ∀ s : State,
    (s.run = false → exec .cmdStop s = .next { s with resp := some (.write false) }) ∧
    (s.run = true → exec .cmdStop s = .next { s with
      run := false, synced := false, primed := false
      fsv := false, pos := 0, widx := 0
      divCnt := 0, divAcc := 0, bclk := false
      resp := some (.write false) })

/-! ### The divider's clock -/

/-- A period lasts I cycles, and one more where the accumulator and F carry; at its end the accumulator takes F and
`bclk_o` toggles. So any 256 consecutive periods last DIVQ system-clock cycles together, and the mean period is DIVQ/256
cycles (41_sequencer.md R125; how the phase is held is the model's reading, log 14). -/
def Obligations.DividerMeanPeriod : Prop :=
  ∀ s : State,
    s.divPeriod = s.divq.toNat / 256 + (if 256 ≤ s.divAcc.toNat + s.divq.toNat % 256 then 1 else 0) ∧
    s.divToggle = { s with
      divCnt := 0, divAcc := BitVec.ofNat 8 ((s.divAcc.toNat + s.divq.toNat % 256) % 256), bclk := !s.bclk } ∧
    ((List.range 256).map fun k => (State.divToggle^[k] s).divPeriod).sum = s.divq.toNat

/-- From any cycle of a period, the ticks that bring the divider to its next rising edge are the rest of the current
period, and the whole next one where `bclk_o` = 1; `bclk_o` rises at the last of them and at no tick before
(41_sequencer.md R125, R126; how the phase is held is the model's reading, log 14). -/
def Obligations.TicksReachTheRisingEdge : Prop :=
  ∀ (s : State) (n : Nat), s.divCnt < s.divPeriod → 1 ≤ s.divInt →
    n + 1 = (s.divPeriod - s.divCnt) + (if s.bclk then s.divToggle.divPeriod else 0) →
      State.divTick^[n + 1] s = s.toRisingEdge ∧
      ∀ k ≤ n, ((State.divTick^[k] s).bclk = false ∧ (State.divTick^[k + 1] s).bclk = true) ↔ k = n

/-! ### SEQ: the bit event -/

/-- The first bit event after START records `fs_i` and does nothing else (41_sequencer.md R126). Before sync, a bit
without the frame-sync edge only records `fs_i`; the edge acquires sync, and its own bit is position 0 if FS_DELAY = 0
and is discarded if FS_DELAY = 1 (R127, R128). -/
def Obligations.AcquisitionOfFrameSync : Prop :=
  ∀ (s : State) (i : SerialIn),
    (s.fsv = false → s.bitEvent i = .next { s with fsPrev := i.fs, fsv := true }) ∧
    (s.fsv = true → s.synced = false →
      let edge : Prop := if s.active.cfg0.getLsbD 20 then s.fsPrev = false ∧ i.fs = true
        else s.fsPrev = true ∧ i.fs = false
      (¬ edge → s.bitEvent i = .next { s with fsPrev := i.fs }) ∧
      (edge → s.active.cfg0.getLsbD 21 = true →
        s.bitEvent i = .next { s with fsPrev := i.fs, synced := true, pos := 0 }) ∧
      (edge → s.active.cfg0.getLsbD 21 = false →
        s.bitEvent i = .next { s with fsPrev := i.fs, synced := true, sr := (s.shift i.sd).sr, pos := 1 }))

/-- Shifting: in a lane in use bit 0 becomes the data bit and every other bit moves up one; the other lanes keep
(41_sequencer.md R130). -/
def Obligations.ShiftIsMostSignificantBitFirst : Prop :=
  ∀ (s : State) (d : BitVec 6), s.shift d = { s with sr := (s.shift d).sr } ∧
    ∀ l < 6,
      (l < s.active.nlines → ((s.shift d).lane l).getLsbD 0 = d.getLsbD l ∧
        ∀ k < 31, ((s.shift d).lane l).getLsbD (k + 1) = (s.lane l).getLsbD k) ∧
      (s.active.nlines ≤ l → (s.shift d).lane l = s.lane l)

/-- Once synced, a frame-sync edge at a position other than E sets SYNC_ERR and drops the slots of the partial serial
frame; its own bit is position 0 if FS_DELAY = 0 and is discarded if FS_DELAY = 1. Sync is kept (41_sequencer.md R129). -/
def Obligations.UnexpectedEdgeRealigns : Prop :=
  ∀ (s : State) (i : SerialIn), s.fsv = true → s.synced = true →
    fsEdge s.active s.fsPrev i.fs = true →
    s.pos.toNat ≠ (32 * s.active.slots - (s.active.cfg0.getLsbD 21).toNat) % (32 * s.active.slots) →
    (s.active.cfg0.getLsbD 21 = true →
      s.bitEvent i = .next { s with
        fsPrev := i.fs, errflags := s.errflags ||| 0x00000001
        widx := BitVec.ofNat 7 (s.widx.toNat - s.widx.toNat % s.active.slots), pos := 0 }) ∧
    (s.active.cfg0.getLsbD 21 = false →
      s.bitEvent i = .next { s with
        fsPrev := i.fs, errflags := s.errflags ||| 0x00000001
        widx := BitVec.ofNat 7 (s.widx.toNat - s.widx.toNat % s.active.slots)
        sr := (s.shift i.sd).sr, pos := 1 })

/-- A tracked bit inside a slot is shifted in and the position advances; nothing else changes
(41_sequencer.md R126, R129, R132). -/
def Obligations.BitInsideASlotIsShiftedIn : Prop :=
  ∀ (s : State) (i : SerialIn), s.fsv = true → s.synced = true →
    ¬ (fsEdge s.active s.fsPrev i.fs = true ∧ s.pos.toNat ≠ s.active.edgePos) → s.pos.toNat % 32 ≠ 31 →
      s.bitEvent i = .next { s with
        fsPrev := i.fs, sr := (s.shift i.sd).sr
        pos := BitVec.ofNat 6 ((s.pos.toNat + 1) % (32 * s.active.slots)) }

/-- The last bit of a slot that does not fill the half: the word of every lane in use, as it stands after the shift, is
written to index `widx` of the lane's write-target half, `widx` advances, and no other byte of capture RAM and nothing
else of the state changes (41_sequencer.md R131, 42_capture_buffer.md R150). -/
def Obligations.EndOfSlotStoresEveryLane : Prop :=
  ∀ (s : State) (i : SerialIn), s.fsv = true → s.synced = true →
    ¬ (fsEdge s.active s.fsPrev i.fs = true ∧ s.pos.toNat ≠ s.active.edgePos) → s.pos.toNat % 32 = 31 →
    s.active.nlines ≤ s.params.nlinesMax → s.widx.toNat < s.params.halfWordsMax →
    s.widx.toNat + 1 ≠ s.active.half →
      ∃ t, s.bitEvent i = .next t ∧
        t = { s with
          fsPrev := i.fs, sr := (s.shift i.sd).sr, widx := s.widx + 1, cap := t.cap
          pos := BitVec.ofNat 6 ((s.pos.toNat + 1) % (32 * s.active.slots)) } ∧
        (∀ l < s.active.nlines, t.capWord l (s.wt.getLsbD l) s.widx.toNat = (s.shift i.sd).lane l) ∧
        ∀ a, (∀ l < s.active.nlines, ¬ (capAddr l (s.wt.getLsbD l) s.widx.toNat ≤ a ∧
          a < capAddr l (s.wt.getLsbD l) s.widx.toNat + 4)) → t.capByte a = s.capByte a

/-- The last bit of a half: the words are stored as at every end of slot, and the completion event happens in the same
step. It inverts WT of the lines in use, rewinds `widx`, sets PRIMED, counts, sets HALF_DONE of the lines in use, counts
and flags a missed completion if one of them was pending, and flags TEAR if a non-zero-fill assembly runs; nothing else
changes (42_capture_buffer.md R151 to R154). -/
def Obligations.EndOfHalfIsOneCompletionEvent : Prop :=
  ∀ (s : State) (i : SerialIn), s.fsv = true → s.synced = true →
    ¬ (fsEdge s.active s.fsPrev i.fs = true ∧ s.pos.toNat ≠ s.active.edgePos) → s.pos.toNat % 32 = 31 →
    s.active.nlines ≤ s.params.nlinesMax → s.widx.toNat < s.params.halfWordsMax →
    s.widx.toNat + 1 = s.active.half →
    let missed : Prop := ∃ l < s.active.nlines, s.irqPend.getLsbD l = true
    ∃ t, s.bitEvent i = .next t ∧
      t = { s with
        fsPrev := i.fs, sr := (s.shift i.sd).sr, cap := t.cap
        pos := BitVec.ofNat 6 ((s.pos.toNat + 1) % (32 * s.active.slots))
        wt := t.wt, widx := 0, primed := true, halfcnt := s.halfcnt + 1
        errflags := t.errflags, missed := t.missed, irqPend := t.irqPend } ∧
      (∀ l < s.active.nlines, t.capWord l (s.wt.getLsbD l) s.widx.toNat = (s.shift i.sd).lane l) ∧
      (∀ a, (∀ l < s.active.nlines, ¬ (capAddr l (s.wt.getLsbD l) s.widx.toNat ≤ a ∧
        a < capAddr l (s.wt.getLsbD l) s.widx.toNat + 4)) → t.capByte a = s.capByte a) ∧
      (∀ l < 6, t.wt.getLsbD l = (s.wt.getLsbD l ^^ decide (l < s.active.nlines))) ∧
      (∀ k < 32, t.irqPend.getLsbD k = (s.irqPend.getLsbD k || decide (k < s.active.nlines))) ∧
      (missed → t.missed.toNat = min (s.missed.toNat + 1) (2 ^ 32 - 1)) ∧ (¬ missed → t.missed = s.missed) ∧
      (t.errflags.getLsbD 2 = true ↔ s.errflags.getLsbD 2 = true ∨ missed) ∧
      (t.errflags.getLsbD 1 = true ↔ s.errflags.getLsbD 1 = true ∨ (s.asmBusy = true ∧ s.asmZero = false)) ∧
      ∀ k < 32, k ≠ 1 → k ≠ 2 → t.errflags.getLsbD k = s.errflags.getLsbD k

/-- What a bit event leaves alone: everything but SEQ's own state, CAP, WT, PRIMED, HALFCNT, HALF_DONE, MISSED and
ERRFLAGS; and of the lines not in use it leaves the lane, WT, HALF_DONE and the capture words
(41_sequencer.md R126; 93_implementation_defined.md U20). -/
def Obligations.BitEventFrame : Prop :=
  ∀ (s t : State) (i : SerialIn), s.bitEvent i = .next t →
    t = { s with
      synced := t.synced, fsv := t.fsv, fsPrev := t.fsPrev, pos := t.pos, widx := t.widx, sr := t.sr, cap := t.cap
      wt := t.wt, primed := t.primed, halfcnt := t.halfcnt, irqPend := t.irqPend, missed := t.missed
      errflags := t.errflags } ∧
    (∀ k < 32, s.active.nlines ≤ k → t.irqPend.getLsbD k = s.irqPend.getLsbD k) ∧
    (∀ l < 6, s.active.nlines ≤ l → t.wt.getLsbD l = s.wt.getLsbD l ∧ t.lane l = s.lane l) ∧
    ∀ a, 1024 * s.active.nlines ≤ a → t.capByte a = s.capByte a

/-- A bit event writes only the write-target halves: no word of a read-ready half changes
(42_capture_buffer.md R150, R161). -/
def Obligations.ReadReadyHalfIsStable : Prop :=
  ∀ (s t : State) (i : SerialIn), s.bitEvent i = .next t →
    ∀ l < 6, ∀ j < 128, t.capWord l (!s.wt.getLsbD l) j = s.capWord l (!s.wt.getLsbD l) j

/-- After STOP nothing is captured: from a state with RUN = 0, in a run in which no START is presented and no reset
comes, RUN stays 0, no word of capture RAM, no WT and no HALFCNT changes, and no HALF_DONE bit is set
(42_capture_buffer.md R164). -/
def Obligations.NothingIsCapturedWhileStopped : Prop :=
  ∀ (ts : List Turn) (s t : State), s.run = false → (∀ w ∈ s.bus, w ≠ encode .cmdStart) → Turn.reset ∉ ts →
    runTurns ts s = .next t →
      t.run = false ∧ (∀ a, t.capByte a = s.capByte a) ∧ t.wt = s.wt ∧ t.halfcnt = s.halfcnt ∧
      ∀ l < 6, t.irqPend.getLsbD l = true → s.irqPend.getLsbD l = true

/-! ### The windows -/

/-- RD_CAPWIN returns the word of four bytes it names, and ERR where there is none (42_capture_buffer.md R162); how the
four bytes stand in the model's RAM is the model's own choice (log 6). -/
def Obligations.CaptureWindowRead : Prop :=
  ∀ (s : State) (l : BitVec 3) (h : Bool) (i : BitVec 7),
    (l.toNat < s.params.nlinesMax → i.toNat < s.params.halfWordsMax →
      ∃ v : Word, exec (.rdCapwin l h i) s = .next { s with resp := some (.read v false) } ∧
        v = s.capWord l.toNat h i.toNat ∧
        ∀ k < 4, ∀ j < 8, v.getLsbD (8 * k + j) =
          (s.capByte (1024 * l.toNat + 512 * h.toNat + 4 * i.toNat + k)).getLsbD j) ∧
    (¬ (l.toNat < s.params.nlinesMax ∧ i.toNat < s.params.halfWordsMax) →
      exec (.rdCapwin l h i) s = .next { s with resp := some (.read 0 true) })

/-- RD_FRAMEWIN returns frame bytes 4k to 4k+3, the first least significant, 0 for a byte at or above FRAME_BYTES_MAX,
and ERR where word k is not mapped (44_delivery.md R204, 20_memory.md R72). -/
def Obligations.FrameWindowRead : Prop :=
  ∀ (s : State) (k : BitVec 10),
    (4 * k.toNat < 18 * s.params.halfWordsMax →
      ∃ v : Word, exec (.rdFramewin k) s = .next { s with resp := some (.read v false) } ∧
        ∀ b < 4, ∀ j < 8, v.getLsbD (8 * b + j) =
          (decide (4 * k.toNat + b < 18 * s.params.halfWordsMax) && (s.frameByte (4 * k.toNat + b)).getLsbD j)) ∧
    (¬ 4 * k.toNat < 18 * s.params.halfWordsMax →
      exec (.rdFramewin k) s = .next { s with resp := some (.read 0 true) })

/-- A write to a window, and every BUSERR, answers ERR and changes nothing; a BUSERR read returns 0
(42_capture_buffer.md R163, 44_delivery.md R205, 45_bus_access.md R235). -/
def Obligations.WindowWritesAndBusErrors : Prop :=
  ∀ (s : State) (l : BitVec 3) (h : Bool) (i : BitVec 7) (k : BitVec 10) (off : Offset) (d : Word),
    exec (.wrCapwin l h i d) s = .next { s with resp := some (.write true) } ∧
    exec (.wrFramewin k d) s = .next { s with resp := some (.write true) } ∧
    exec (.busErr true off d) s = .next { s with resp := some (.write true) } ∧
    exec (.busErr false off d) s = .next { s with resp := some (.read 0 true) }

/-! ### Delivery and ASM -/

/-- FRAME_REQ (44_delivery.md R202, R203): ignored while busy; declined at once, with the result its case names; or an
assembly starts with the snapshot of the read-ready halves. Exactly the effects listed. -/
def Obligations.FrameRequestCommand : Prop :=
  ∀ s : State,
    (s.asmBusy = true →
      exec .cmdFrameReq s = .next { s with errflags := s.errflags ||| 0x00000010, resp := some (.write false) }) ∧
    (s.asmBusy = false → s.ctrl.getLsbD 0 = false →
      exec .cmdFrameReq s = .next { s with
        frameReady := true, frameOk := false, frameLen := 0, asmBusy := false
        irqPend := s.irqPend ||| 0x00000100, resp := some (.write false) }) ∧
    (s.asmBusy = false → s.ctrl.getLsbD 0 = true → s.ctrl.getLsbD 1 = false →
      exec .cmdFrameReq s = .next { s with
        frameReady := true, frameOk := true, frameLen := 0, asmBusy := false
        irqPend := s.irqPend ||| 0x00000100, resp := some (.write false) }) ∧
    (s.asmBusy = false → s.ctrl.getLsbD 0 = true → s.ctrl.getLsbD 1 = true → s.cfgValid = false →
      exec .cmdFrameReq s = .next { s with
        frameReady := true, frameOk := false, frameLen := 0, asmBusy := false
        irqPend := s.irqPend ||| 0x00000100, resp := some (.write false) }) ∧
    (s.asmBusy = false → s.ctrl.getLsbD 0 = true → s.ctrl.getLsbD 1 = true → s.cfgValid = true →
      ∃ rh, exec .cmdFrameReq s = .next { s with
          frameReady := false, asmZero := !s.primed, rh := rh, asmN := 0, asmBusy := true
          resp := some (.write false) } ∧
        ∀ l < 6, rh.getLsbD l = !s.wt.getLsbD l)

/-- The extractor is the arithmetic shift and the logical shift, each truncated to D bits, and the division of the
signed word by 2^(32−D) rounded down (43_frame_assembler.md R180). -/
def Obligations.ExtractIsTheTruncatedShift : Prop :=
  ∀ (w : Word) (d : Nat), 1 ≤ d → d ≤ 32 →
    extract w d = (w.sshiftRight (32 - d)).setWidth d ∧
    extract w d = (w >>> (32 - d)).setWidth d ∧
    (extract w d).toInt = w.toInt / 2 ^ (32 - d)

/-- Round trip: a D-bit pattern at the top of a capture word is extracted unchanged, whatever the low bits
(43_frame_assembler.md R186). -/
def Obligations.ExtractRoundTrip : Prop :=
  ∀ d v l : Nat, d ≤ 32 → v < 2 ^ d → l < 2 ^ (32 - d) →
    (extract (BitVec.ofNat 32 (v * 2 ^ (32 - d) + l)) d).toNat = v

/-- Packing: a sample of D bits takes D/8 bytes, and byte b holds bits [8b+7 : 8b] (43_frame_assembler.md R181). -/
def Obligations.PackIsLittleEndian : Prop :=
  ∀ (d : Nat) (v : BitVec d), d = 16 ∨ d = 24 →
    (pack v).length = d / 8 ∧ v.toNat = ((pack v).mapIdx fun b x => x.toNat * 2 ^ (8 * b)).sum

/-- One ASM step writes one sample's bytes, little-endian, from the word the interleaver names (0 in a zero-fill
assembly), leaves every other frame byte, and then goes to the next sample or finishes with the frame's length
(43_frame_assembler.md R182, R183). -/
def Obligations.AssemblerStep : Prop :=
  ∀ s : State, (s.active.depth = 16 ∨ s.active.depth = 24) →
    (s.asmZero = true ∨ capExists s.params s.asmLine s.asmIndex = true) →
    (s.asmN.toNat + 1) * s.active.sampleBytes ≤ 18 * s.params.halfWordsMax →
    ∃ t, s.asmStep = .next t ∧
      (∀ b < s.active.sampleBytes, t.frameByte (s.asmN.toNat * s.active.sampleBytes + b) =
        (s.sourceWord s.asmN.toNat).extractLsb' (32 - s.active.depth + 8 * b) 8) ∧
      (∀ a, ¬ (s.asmN.toNat * s.active.sampleBytes ≤ a ∧ a < (s.asmN.toNat + 1) * s.active.sampleBytes) →
        t.frameByte a = s.frameByte a) ∧
      (s.asmN.toNat + 1 ≠ s.active.samples * s.active.nch →
        t = { s with frame := t.frame, asmN := s.asmN + 1 }) ∧
      (s.asmN.toNat + 1 = s.active.samples * s.active.nch →
        t = { s with
          frame := t.frame, asmN := 0, frameOk := true, frameLen := s.active.framebytes.extractLsb' 0 16
          asmBusy := false, frameReady := true, irqPend := s.irqPend ||| 0x00000100 })

/-- An assembly is exactly N steps of ASM: after fewer it is still busy, after N it has ended with the frame's length
FRAMEBYTES = N × B and the whole frame is the interleave of its source words (43_frame_assembler.md R183, R185, R187). ASM's
further turns change nothing, so an ASMRUN ends it; and so does a WAIT on FRAME_READY, which ends at a read that shows
FRAME_READY = 1 (30_encoding.md R103, 70_reset_and_hazards.md R285; that it takes two reads is the model's, log 21). -/
def Obligations.AssemblyIsExactlyNSteps : Prop :=
  ∀ s : State, s.Inv → s.asmBusy = true → s.asmN = 0 →
    (∀ k < s.active.outSamples, ∃ u, runTurns (List.replicate k .asm) s = .next u ∧ u.asmBusy = true) ∧
    (∃ t, runTurns (List.replicate s.active.outSamples .asm) s = .next t ∧ t.asmBusy = false ∧ t.frameReady = true ∧
      t.frameOk = true ∧ t.frameLen.toNat = s.active.outSamples * s.active.sampleBytes ∧ t.cap = s.cap ∧
      t.irqPend.getLsbD 8 = true ∧ (∀ n < s.active.outSamples, t.frameHolds n) ∧
      (∀ k, s.active.outSamples ≤ k → runTurns (List.replicate k .asm) s = .next t) ∧
      runTurns Line.asmrun.turns s = .next t) ∧
    ∀ reads, 2 ≤ reads → s.bus = [] → s.turns = [] →
      ∃ t v, programEnd reads [.wait .status 0x10 0x10] s = some (.next t) ∧ t.asmBusy = false ∧
        (∀ n < s.active.outSamples, t.frameHolds n) ∧ t.resp = some (.read v false) ∧ v &&& 0x10 = 0x10

/-- A zero-fill assembly delivers FRAMEBYTES bytes of 0, whatever the capture RAM holds (43_frame_assembler.md R184). -/
def Obligations.ZeroFillFrameIsSilence : Prop :=
  ∀ s : State, s.Inv → s.asmBusy = true → s.asmZero = true → s.asmN = 0 →
    ∃ t, runTurns (List.replicate s.active.outSamples .asm) s = .next t ∧ t.asmBusy = false ∧
      t.frameLen = s.active.bytes ∧ ∀ a < s.active.bytes.toNat, t.frameByte a = 0

/-- An assembly that no completion event overtakes gives the interleave of the snapshot, however the agents' steps are
interleaved: each step either keeps the assembly undisturbed or ends it with the whole frame
(42_capture_buffer.md R161, 43_frame_assembler.md R187). -/
def Obligations.UndisturbedAssemblyIsTheInterleave : Prop :=
  ∀ (turn : Turn) (s t : State), s.Inv → s.Assembling → turn.isAgent = true → takeTurn turn s = .next t →
    t.halfcnt = s.halfcnt → t.Assembling ∨ t.Assembled

/-- The frame and its result registers stay as they are from the end of one request until the next is presented: in a
run in which no FRAME_REQ is presented and no reset comes, nothing writes them (44_delivery.md R209). -/
def Obligations.FrameIsStableBetweenRequests : Prop :=
  ∀ (ts : List Turn) (s t : State), s.asmBusy = false → (∀ w ∈ s.bus, w ≠ encode .cmdFrameReq) → Turn.reset ∉ ts →
    runTurns ts s = .next t →
      (∀ a, t.frameByte a = s.frameByte a) ∧ t.frameReady = s.frameReady ∧ t.frameOk = s.frameOk ∧
      t.frameLen = s.frameLen ∧ t.asmBusy = false

/-! ### Whole-machine rules -/

/-- While RUN = 1 no step but a reset changes a configuration register (10_state.md R49, 70_reset_and_hazards.md R278). -/
def Obligations.ConfigurationIsFrozenWhileRunning : Prop :=
  ∀ (turn : Turn) (s t : State), turn ≠ .reset → s.run = true → takeTurn turn s = .next t → t.cfg = s.cfg

/-- Of the agents' steps, only a START that passes validation writes the active configuration and DIV
(10_state.md R32, R39). -/
def Obligations.OnlyStartWritesTheActiveConfiguration : Prop :=
  ∀ (turn : Turn) (s t : State), turn.isAgent = true → takeTurn turn s = .next t →
    (t.active = s.active ∧ t.divq = s.divq ∧ t.cfgValid = s.cfgValid) ∨
    (turn = .host ∧ (∃ rest, s.bus = encode .cmdStart :: rest) ∧ s.run = false ∧ s.asmBusy = false ∧
      validate s.params s.cfg = 0 ∧ t.active = s.cfg ∧ t.cfgValid = true)

/-- Of the agents' steps, only START sets RUN and only STOP clears it (10_state.md R31, R47). -/
def Obligations.OnlyStartAndStopChangeRun : Prop :=
  ∀ (turn : Turn) (s t : State), turn.isAgent = true → takeTurn turn s = .next t → t.run ≠ s.run →
    turn = .host ∧ ∃ rest, s.bus = encode (if t.run then .cmdStart else .cmdStop) :: rest

/-- Of the agents' steps, only START and a completion event write the write-target flags: START clears them all, and a
completion event inverts those of the lines in use together (10_state.md R42). -/
def Obligations.OnlyStartAndCompletionWriteTargets : Prop :=
  ∀ (turn : Turn) (s t : State), turn.isAgent = true → takeTurn turn s = .next t →
    t.wt = s.wt ∨ (turn = .host ∧ (∃ rest, s.bus = encode .cmdStart :: rest) ∧ t.wt = 0) ∨
    (turn = .seq ∧ s.run = true ∧ t.primed = true ∧ t.halfcnt = s.halfcnt + 1 ∧
      ∀ l < 6, t.wt.getLsbD l = (s.wt.getLsbD l ^^ decide (l < s.active.nlines)))

/-- A diagnostic flag, once set, is cleared by no agent's step but a write of 1 to it and CLR_DIAG
(60_exceptions.md R243). -/
def Obligations.DiagnosticFlagsAreSticky : Prop :=
  ∀ (turn : Turn) (s t : State) (k : Nat), turn.isAgent = true → takeTurn turn s = .next t →
    s.errflags.getLsbD k = true → t.errflags.getLsbD k = false →
      turn = .host ∧ ∃ w rest, s.bus = w :: rest ∧
        (w = encode .cmdClrDiag ∨ ∃ d : Word, w = encode (.w1cErrflags d) ∧ d.getLsbD k = true)

/-- No step writes a RAM it does not own: only SEQ writes capture RAM and only ASM writes frame RAM, HOST writes neither
(10_state.md R44, R45; 20_memory.md R79). -/
def Obligations.EachRamHasOneWriter : Prop :=
  ∀ (turn : Turn) (s t : State), turn.isAgent = true → takeTurn turn s = .next t →
    (turn ≠ .seq → ∀ a, t.capByte a = s.capByte a) ∧ (turn ≠ .asm → ∀ a, t.frameByte a = s.frameByte a)

/-! ### Reset and the invariant -/

/-- A reset loads the values of 70_reset_and_hazards.md R270, whatever the state before; STATUS reads 0, `irq_o` and
`bus_err` are 0 (R272). -/
def Obligations.ResetLoadsTheResetValues : Prop :=
  ∀ s t : State, takeTurn .reset s = .next t →
    t.params = s.params ∧ t.cfg = ⟨0x00210212, 48000, 0, 192, 0x00A29180⟩ ∧ t.ctrl = 0 ∧ t.statusWord = 0 ∧
    t.run = false ∧ t.synced = false ∧ t.primed = false ∧ t.asmBusy = false ∧ t.frameReady = false ∧
    t.frameOk = false ∧ t.cfgValid = false ∧ t.cfgErr = false ∧ t.errcode = 0 ∧ t.wt = 0 ∧
    t.divq = 0 ∧ t.errflags = 0 ∧ t.irqPend = 0 ∧ t.irqEn = 0 ∧ t.missed = 0 ∧ t.halfcnt = 0 ∧ t.frameLen = 0 ∧
    t.fsv = false ∧ t.fsPrev = false ∧ t.pos = 0 ∧ t.widx = 0 ∧ t.divCnt = 0 ∧ t.divAcc = 0 ∧ t.bclk = false ∧
    t.rh = 0 ∧ t.asmZero = false ∧ t.asmN = 0 ∧ t.irqO = false ∧ t.busErrOut = false

/-- The invariant holds right after reset: at `State.reset`, and after a reset of any build in any state
(70_reset_and_hazards.md R270; the values of A and `sr` are the model's choice, logs 7 and 8, and so is the build of
`State.reset`, log 1). -/
def Obligations.ResetStateMeetsTheInvariant : Prop :=
  State.reset.Inv ∧ ∀ s t : State, takeTurn .reset s = .next t → t.Inv

/-- Every step keeps the invariant: reserved bits and the bits of lines that do not exist are 0, ERRCODE is a code START
produces, nothing runs without a validated active configuration and DIV is its divider, the lines in use share one write
target, the sequencer's and the assembler's indices are in range, and both RAMs are canonical and hold only bytes that
exist (30_encoding.md R95; 10_state.md R31, R32, R34, R39, R41 to R45, R48; 60_exceptions.md R242). The RAMs' form is the
model's own (log 5). -/
def Obligations.EveryStepKeepsTheInvariant : Prop :=
  ∀ s t : State, s.Inv → step s = .next t → t.Inv

/-- From a state that meets the invariant no step faults: no index leaves the fixed RAMs (43_frame_assembler.md R183);
the faults are the model's own (log 16). -/
def Obligations.NoStepFaultsUnderTheInvariant : Prop :=
  ∀ s : State, s.Inv → s.Safe

/-! ### What cannot be observed -/

/-- The active configuration is not observed while CFG_VALID = 0: two states that meet the invariant and differ in it
alone, while there is none, step alike (10_state.md R39). So the model's reset value of A (log 7) shows nowhere. -/
def Obligations.UnsetActiveConfigurationIsUnobserved : Prop :=
  ∀ s t : State, s.Inv → s.sameButUnsetActive t → outcomesAgree State.sameButUnsetActive (step s) (step t)

/-- The bits a shift register held before the current slot are never observed: two states that differ in them alone step
alike (10_state.md R41). So the model's reset value of `sr` (log 8) shows nowhere. -/
def Obligations.StaleShiftRegisterBitsAreUnobserved : Prop :=
  ∀ s t : State, s.sameButStaleBits t → outcomesAgree State.sameButStaleBits (step s) (step t)

/-! ### The system-clock cycle -/

/-- A system-clock cycle of the hardware is the agents' steps in one order, up to the divider's phase: ASM, then HOST where
it presents a transaction, then SEQ exactly when the divider's tick raises `bclk_o` while RUN = 1; a W1C write to IRQ_PEND
goes before ASM. From states that differ in the divider's phase alone, that list of turns answers what the cycle answers
(60_exceptions.md R248). While RUN = 1 before and after, the cycle's own part is one tick of the divider (41_sequencer.md R125).
The order of a W1C write to IRQ_PEND before ASM, and that there is no tick in the cycle of a START or a STOP, are the
model's reading (log 15). -/
def Obligations.CycleIsAnInterleavingOfSteps : Prop :=
  ∀ (present : Bool) (s t : State), s.sameButDivider t →
    let ack : Prop := ∃ d rest, s.bus = encode (.w1cIrqPend d) :: rest
    let stop : Prop := ∃ rest, s.bus = encode .cmdStop :: rest
    (∃ front back : List Turn,
      (present = false → front = [.asm]) ∧ (present = true → ack → front = [.host, .asm]) ∧
      (present = true → ¬ ack → front = [.asm, .host]) ∧
      (s.risesNow ∧ ¬ (present = true ∧ stop) → back = [.seq]) ∧
      (¬ (s.risesNow ∧ ¬ (present = true ∧ stop)) → back = []) ∧
      outcomesAgree State.sameButDivider (cycleTurn present s) (runTurns (front ++ back) t)) ∧
    ∀ u, cycleTurn present s = .next u → s.run = true → u.run = true →
      u.divCnt = s.divTick.divCnt ∧ u.divAcc = s.divTick.divAcc ∧ u.bclk = s.divTick.bclk

/-- The order of one cycle's events (60_exceptions.md R248, R249). Set wins over clear: in the cycle of a W1C write to
IRQ_PEND, the end of an assembly leaves FRAME_DONE set and a completion event leaves HALF_DONE of the lines in use set; in
the cycle of a CLR_DIAG or of a W1C write to ERRFLAGS, an unexpected edge leaves SYNC_ERR set, a completion event leaves TEAR
set if an assembly that is not zero-fill goes on, and OVERRUN set if one of its lines was pending, and MISSED counts that on
top of the clear. R248's consequences: (a) a request in the cycle of a completion event takes the snapshot from before the
flip, and the flip flags TEAR; (b) a read of STATUS in that cycle shows the state before the event; (c), (d) a request and a
START in the cycle of an assembly's last step are accepted. -/
def Obligations.OrderOfEventsInACycle : Prop :=
  ∀ (s t : State) (w : Txn) (rest : List Txn), cycleTurn true s = .next t → s.bus = w :: rest →
    (∀ d : Word, w = encode (.w1cIrqPend d) →
      (s.finishesNow → t.asmBusy = false ∧ t.irqPend.getLsbD 8 = true) ∧
      (s.completesNow → t.halfcnt = s.halfcnt + 1 ∧ ∀ l < s.active.nlines, t.irqPend.getLsbD l = true)) ∧
    (∀ d : Word, w = encode .cmdClrDiag ∨ w = encode (.w1cErrflags d) →
      (s.realignsNow → t.errflags.getLsbD 0 = true) ∧
      (s.completesNow → s.asmBusy = true → ¬ s.finishesNow → s.asmZero = false → t.errflags.getLsbD 1 = true) ∧
      (s.completesNow → (∃ l < s.active.nlines, s.irqPend.getLsbD l = true) →
        t.errflags.getLsbD 2 = true ∧ (w = encode .cmdClrDiag → t.missed = 1) ∧
        (w ≠ encode .cmdClrDiag → t.missed.toNat = min (s.missed.toNat + 1) (2 ^ 32 - 1)))) ∧
    (w = encode .cmdFrameReq → s.asmBusy = false ∨ s.finishesNow → s.ctrl.getLsbD 0 = true → s.ctrl.getLsbD 1 = true →
      s.cfgValid = true →
        t.asmBusy = true ∧ t.asmN = 0 ∧ t.frameReady = false ∧ (∀ l < 6, t.rh.getLsbD l = !s.wt.getLsbD l) ∧
        t.errflags.getLsbD 4 = s.errflags.getLsbD 4 ∧ (s.finishesNow → t.irqPend.getLsbD 8 = true) ∧
        (s.completesNow → s.primed = true →
          t.errflags.getLsbD 1 = true ∧ ∀ l < s.active.nlines, t.wt.getLsbD l = t.rh.getLsbD l)) ∧
    (w = encode .rdStatus →
      (∃ u, asmTurn s = .next u ∧ t.resp = some (.read u.statusWord false)) ∧
      (s.completesNow → t.primed = true ∧ t.halfcnt = s.halfcnt + 1 ∧
        ∀ l < s.active.nlines, t.wt.getLsbD l = !s.wt.getLsbD l)) ∧
    (w = encode .cmdStart → s.run = false → s.finishesNow → validate s.params s.cfg = 0 →
      t.run = true ∧ t.active = s.cfg ∧ t.errflags = s.errflags ∧ t.asmBusy = false ∧ t.frameReady = true ∧
      t.irqPend.getLsbD 8 = true)

/-! ### The host's lines -/

/-- The lines of the assembly syntax are words of the transactions they spell, in every build. RD and WR with the name of
a register are that register's own read and write, and WR CMD is the command of its value; RD and WR with a raw offset are
the word of that offset, and spell every legal word; a window line reads the word it names; a pseudo-instruction is its
word, and a WAIT is one read of its register each iteration, which ends only at a read for which (data AND mask) = val
(30_encoding.md R102, R103). A line, and of a WAIT each iteration, takes one turn of HOST for each of its words and
one of SEQ for each of its samples (70_reset_and_hazards.md R285). Where the window sits at `base`, an access to an address
is the transaction at the address's offset from it, and an access outside the window is none (20_memory.md R78; log 22). -/
def Obligations.LinesSpellTheirTransactions : Prop :=
  ∀ (p : Params) (m : Word),
    (∀ x ∈ [(RegName.id, Instr.rdId, Instr.wrId m), (.params, .rdParams, .wrParams m), (.cfg0, .rdCfg0, .wrCfg0 m),
        (.rate, .rdRate, .wrRate m), (.sysclk, .rdSysclk, .wrSysclk m),
        (.framebytes, .rdFramebytes, .wrFramebytes m), (.chmap, .rdChmap, .wrChmap m), (.ctrl, .rdCtrl, .wrCtrl m),
        (.status, .rdStatus, .wrStatus m), (.div, .rdDiv, .wrDiv m), (.errflags, .rdErrflags, .w1cErrflags m),
        (.irqPend, .rdIrqPend, .w1cIrqPend m), (.irqEn, .rdIrqEn, .wrIrqEn m), (.missed, .rdMissed, .wrMissed m),
        (.halfcnt, .rdHalfcnt, .wrHalfcnt m), (.frameLen, .rdFrameLen, .wrFrameLen m)],
      (Line.rd x.1).words.map (decode p) = [some x.2.1] ∧ (Line.wr x.1 m).words.map (decode p) = [some x.2.2]) ∧
    (Line.rd .cmd).words.map (decode p) = [some .rdCmd] ∧
    ([0, 1, 2, 3, 4].map fun c => (Line.wr .cmd c).words.map (decode p)) =
      [[some .cmdNop], [some .cmdStart], [some .cmdStop], [some .cmdFrameReq], [some .cmdClrDiag]] ∧
    (4 < m.toNat → (Line.wr .cmd m).words.map (decode p) = [some (.cmdRsvd m)]) ∧
    (∀ off : Offset, ∃ u v : Txn, (Line.rdAt off).words = [u] ∧ (Line.wrAt off m).words = [v] ∧
      u.getLsbD 47 = false ∧ u.getLsbD 46 = false ∧ u.extractLsb' 32 14 = off ∧ u.extractLsb' 0 32 = 0 ∧
      v.getLsbD 47 = true ∧ v.getLsbD 46 = false ∧ v.extractLsb' 32 14 = off ∧ v.extractLsb' 0 32 = m) ∧
    (∀ (w : Txn) (i : Instr), decode p w = some i →
      ∃ l, (l = Line.rdAt (w.extractLsb' 32 14) ∨ l = Line.wrAt (w.extractLsb' 32 14) (w.extractLsb' 0 32)) ∧
        l.words.map (decode p) = [some i]) ∧
    (∀ (l : BitVec 3) (h : Bool) (i : BitVec 7) (k : BitVec 10), capExists p l.toNat i.toNat = true →
      frameMapped p k.toNat = true →
      (Line.rdCap l h i).words.map (decode p) = [some (.rdCapwin l h i)] ∧
      (Line.rdFrw k).words.map (decode p) = [some (.rdFramewin k)]) ∧
    [Line.nop, .start, .stop, .freq, .clrdiag].map Line.words =
      [[0x802000000000], [0x802000000001], [0x802000000002], [0x802000000003], [0x802000000004]] ∧
    (Line.ack m).words = [0x8030#16 ++ m] ∧ (Line.clrerr m).words = [0x802C#16 ++ m] ∧
    (∀ (r : RegName) (mask val : Word), (Line.wait r mask val).words = (Line.rd r).words ∧
      ∀ s t, ProgramEnds [.wait r mask val] s t → ∃ v e, t.resp = some (.read v e) ∧ v &&& mask = val) ∧
    (∀ l : Line, l.turns.count .host = l.words.length ∧ l.turns.count .seq = l.samples.length) ∧
    ∀ (base addr : Nat),
      (∀ off : Offset, addr = base + off.toNat → (HostAccess.load addr).lines base = [.rdAt off] ∧
        (HostAccess.store addr m).lines base = [.wrAt off m]) ∧
      (addr < base ∨ base + 0x4000 ≤ addr →
        (HostAccess.load addr).lines base = [] ∧ (HostAccess.store addr m).lines base = [])
end

