-- ==== Sys2Proof/Laws/State.lean ====
section
/-! SUPPORT. One lemma per field per named update of State: what the update leaves, and what it sets. -/

namespace Sys2Proof.Machine

section
variable (s : State) (data : Word)

@[simp] theorem State.respondRead_params : (s.respondRead data).params = s.params := rfl
@[simp] theorem State.respondRead_cfg : (s.respondRead data).cfg = s.cfg := rfl
@[simp] theorem State.respondRead_ctrl : (s.respondRead data).ctrl = s.ctrl := rfl
@[simp] theorem State.respondRead_run : (s.respondRead data).run = s.run := rfl
@[simp] theorem State.respondRead_synced : (s.respondRead data).synced = s.synced := rfl
@[simp] theorem State.respondRead_primed : (s.respondRead data).primed = s.primed := rfl
@[simp] theorem State.respondRead_asmBusy : (s.respondRead data).asmBusy = s.asmBusy := rfl
@[simp] theorem State.respondRead_frameReady : (s.respondRead data).frameReady = s.frameReady := rfl
@[simp] theorem State.respondRead_frameOk : (s.respondRead data).frameOk = s.frameOk := rfl
@[simp] theorem State.respondRead_cfgValid : (s.respondRead data).cfgValid = s.cfgValid := rfl
@[simp] theorem State.respondRead_cfgErr : (s.respondRead data).cfgErr = s.cfgErr := rfl
@[simp] theorem State.respondRead_errcode : (s.respondRead data).errcode = s.errcode := rfl
@[simp] theorem State.respondRead_wt : (s.respondRead data).wt = s.wt := rfl
@[simp] theorem State.respondRead_divq : (s.respondRead data).divq = s.divq := rfl
@[simp] theorem State.respondRead_errflags : (s.respondRead data).errflags = s.errflags := rfl
@[simp] theorem State.respondRead_irqPend : (s.respondRead data).irqPend = s.irqPend := rfl
@[simp] theorem State.respondRead_irqEn : (s.respondRead data).irqEn = s.irqEn := rfl
@[simp] theorem State.respondRead_missed : (s.respondRead data).missed = s.missed := rfl
@[simp] theorem State.respondRead_halfcnt : (s.respondRead data).halfcnt = s.halfcnt := rfl
@[simp] theorem State.respondRead_frameLen : (s.respondRead data).frameLen = s.frameLen := rfl
@[simp] theorem State.respondRead_active : (s.respondRead data).active = s.active := rfl
@[simp] theorem State.respondRead_fsv : (s.respondRead data).fsv = s.fsv := rfl
@[simp] theorem State.respondRead_fsPrev : (s.respondRead data).fsPrev = s.fsPrev := rfl
@[simp] theorem State.respondRead_pos : (s.respondRead data).pos = s.pos := rfl
@[simp] theorem State.respondRead_widx : (s.respondRead data).widx = s.widx := rfl
@[simp] theorem State.respondRead_sr : (s.respondRead data).sr = s.sr := rfl
@[simp] theorem State.respondRead_divCnt : (s.respondRead data).divCnt = s.divCnt := rfl
@[simp] theorem State.respondRead_divAcc : (s.respondRead data).divAcc = s.divAcc := rfl
@[simp] theorem State.respondRead_bclk : (s.respondRead data).bclk = s.bclk := rfl
@[simp] theorem State.respondRead_rh : (s.respondRead data).rh = s.rh := rfl
@[simp] theorem State.respondRead_asmZero : (s.respondRead data).asmZero = s.asmZero := rfl
@[simp] theorem State.respondRead_asmN : (s.respondRead data).asmN = s.asmN := rfl
@[simp] theorem State.respondRead_cap : (s.respondRead data).cap = s.cap := rfl
@[simp] theorem State.respondRead_frame : (s.respondRead data).frame = s.frame := rfl
@[simp] theorem State.respondRead_resp : (s.respondRead data).resp = some (.read data false) := rfl
@[simp] theorem State.respondRead_ramEpoch : (s.respondRead data).ramEpoch = s.ramEpoch := rfl
@[simp] theorem State.respondRead_bus : (s.respondRead data).bus = s.bus := rfl
@[simp] theorem State.respondRead_serial : (s.respondRead data).serial = s.serial := rfl
@[simp] theorem State.respondRead_turns : (s.respondRead data).turns = s.turns := rfl
@[simp] theorem State.respondRead_draws : (s.respondRead data).draws = s.draws := rfl

end

section
variable (s : State)

@[simp] theorem State.respondWrite_params : (s.respondWrite).params = s.params := rfl
@[simp] theorem State.respondWrite_cfg : (s.respondWrite).cfg = s.cfg := rfl
@[simp] theorem State.respondWrite_ctrl : (s.respondWrite).ctrl = s.ctrl := rfl
@[simp] theorem State.respondWrite_run : (s.respondWrite).run = s.run := rfl
@[simp] theorem State.respondWrite_synced : (s.respondWrite).synced = s.synced := rfl
@[simp] theorem State.respondWrite_primed : (s.respondWrite).primed = s.primed := rfl
@[simp] theorem State.respondWrite_asmBusy : (s.respondWrite).asmBusy = s.asmBusy := rfl
@[simp] theorem State.respondWrite_frameReady : (s.respondWrite).frameReady = s.frameReady := rfl
@[simp] theorem State.respondWrite_frameOk : (s.respondWrite).frameOk = s.frameOk := rfl
@[simp] theorem State.respondWrite_cfgValid : (s.respondWrite).cfgValid = s.cfgValid := rfl
@[simp] theorem State.respondWrite_cfgErr : (s.respondWrite).cfgErr = s.cfgErr := rfl
@[simp] theorem State.respondWrite_errcode : (s.respondWrite).errcode = s.errcode := rfl
@[simp] theorem State.respondWrite_wt : (s.respondWrite).wt = s.wt := rfl
@[simp] theorem State.respondWrite_divq : (s.respondWrite).divq = s.divq := rfl
@[simp] theorem State.respondWrite_errflags : (s.respondWrite).errflags = s.errflags := rfl
@[simp] theorem State.respondWrite_irqPend : (s.respondWrite).irqPend = s.irqPend := rfl
@[simp] theorem State.respondWrite_irqEn : (s.respondWrite).irqEn = s.irqEn := rfl
@[simp] theorem State.respondWrite_missed : (s.respondWrite).missed = s.missed := rfl
@[simp] theorem State.respondWrite_halfcnt : (s.respondWrite).halfcnt = s.halfcnt := rfl
@[simp] theorem State.respondWrite_frameLen : (s.respondWrite).frameLen = s.frameLen := rfl
@[simp] theorem State.respondWrite_active : (s.respondWrite).active = s.active := rfl
@[simp] theorem State.respondWrite_fsv : (s.respondWrite).fsv = s.fsv := rfl
@[simp] theorem State.respondWrite_fsPrev : (s.respondWrite).fsPrev = s.fsPrev := rfl
@[simp] theorem State.respondWrite_pos : (s.respondWrite).pos = s.pos := rfl
@[simp] theorem State.respondWrite_widx : (s.respondWrite).widx = s.widx := rfl
@[simp] theorem State.respondWrite_sr : (s.respondWrite).sr = s.sr := rfl
@[simp] theorem State.respondWrite_divCnt : (s.respondWrite).divCnt = s.divCnt := rfl
@[simp] theorem State.respondWrite_divAcc : (s.respondWrite).divAcc = s.divAcc := rfl
@[simp] theorem State.respondWrite_bclk : (s.respondWrite).bclk = s.bclk := rfl
@[simp] theorem State.respondWrite_rh : (s.respondWrite).rh = s.rh := rfl
@[simp] theorem State.respondWrite_asmZero : (s.respondWrite).asmZero = s.asmZero := rfl
@[simp] theorem State.respondWrite_asmN : (s.respondWrite).asmN = s.asmN := rfl
@[simp] theorem State.respondWrite_cap : (s.respondWrite).cap = s.cap := rfl
@[simp] theorem State.respondWrite_frame : (s.respondWrite).frame = s.frame := rfl
@[simp] theorem State.respondWrite_resp : (s.respondWrite).resp = some (.write false) := rfl
@[simp] theorem State.respondWrite_ramEpoch : (s.respondWrite).ramEpoch = s.ramEpoch := rfl
@[simp] theorem State.respondWrite_bus : (s.respondWrite).bus = s.bus := rfl
@[simp] theorem State.respondWrite_serial : (s.respondWrite).serial = s.serial := rfl
@[simp] theorem State.respondWrite_turns : (s.respondWrite).turns = s.turns := rfl
@[simp] theorem State.respondWrite_draws : (s.respondWrite).draws = s.draws := rfl

end

section
variable (s : State) (write : Bool)

@[simp] theorem State.busError_params : (s.busError write).params = s.params := rfl
@[simp] theorem State.busError_cfg : (s.busError write).cfg = s.cfg := rfl
@[simp] theorem State.busError_ctrl : (s.busError write).ctrl = s.ctrl := rfl
@[simp] theorem State.busError_run : (s.busError write).run = s.run := rfl
@[simp] theorem State.busError_synced : (s.busError write).synced = s.synced := rfl
@[simp] theorem State.busError_primed : (s.busError write).primed = s.primed := rfl
@[simp] theorem State.busError_asmBusy : (s.busError write).asmBusy = s.asmBusy := rfl
@[simp] theorem State.busError_frameReady : (s.busError write).frameReady = s.frameReady := rfl
@[simp] theorem State.busError_frameOk : (s.busError write).frameOk = s.frameOk := rfl
@[simp] theorem State.busError_cfgValid : (s.busError write).cfgValid = s.cfgValid := rfl
@[simp] theorem State.busError_cfgErr : (s.busError write).cfgErr = s.cfgErr := rfl
@[simp] theorem State.busError_errcode : (s.busError write).errcode = s.errcode := rfl
@[simp] theorem State.busError_wt : (s.busError write).wt = s.wt := rfl
@[simp] theorem State.busError_divq : (s.busError write).divq = s.divq := rfl
@[simp] theorem State.busError_errflags : (s.busError write).errflags = s.errflags := rfl
@[simp] theorem State.busError_irqPend : (s.busError write).irqPend = s.irqPend := rfl
@[simp] theorem State.busError_irqEn : (s.busError write).irqEn = s.irqEn := rfl
@[simp] theorem State.busError_missed : (s.busError write).missed = s.missed := rfl
@[simp] theorem State.busError_halfcnt : (s.busError write).halfcnt = s.halfcnt := rfl
@[simp] theorem State.busError_frameLen : (s.busError write).frameLen = s.frameLen := rfl
@[simp] theorem State.busError_active : (s.busError write).active = s.active := rfl
@[simp] theorem State.busError_fsv : (s.busError write).fsv = s.fsv := rfl
@[simp] theorem State.busError_fsPrev : (s.busError write).fsPrev = s.fsPrev := rfl
@[simp] theorem State.busError_pos : (s.busError write).pos = s.pos := rfl
@[simp] theorem State.busError_widx : (s.busError write).widx = s.widx := rfl
@[simp] theorem State.busError_sr : (s.busError write).sr = s.sr := rfl
@[simp] theorem State.busError_divCnt : (s.busError write).divCnt = s.divCnt := rfl
@[simp] theorem State.busError_divAcc : (s.busError write).divAcc = s.divAcc := rfl
@[simp] theorem State.busError_bclk : (s.busError write).bclk = s.bclk := rfl
@[simp] theorem State.busError_rh : (s.busError write).rh = s.rh := rfl
@[simp] theorem State.busError_asmZero : (s.busError write).asmZero = s.asmZero := rfl
@[simp] theorem State.busError_asmN : (s.busError write).asmN = s.asmN := rfl
@[simp] theorem State.busError_cap : (s.busError write).cap = s.cap := rfl
@[simp] theorem State.busError_frame : (s.busError write).frame = s.frame := rfl
@[simp] theorem State.busError_resp : (s.busError write).resp = some (if write then .write true else .read 0 true) := rfl
@[simp] theorem State.busError_ramEpoch : (s.busError write).ramEpoch = s.ramEpoch := rfl
@[simp] theorem State.busError_bus : (s.busError write).bus = s.bus := rfl
@[simp] theorem State.busError_serial : (s.busError write).serial = s.serial := rfl
@[simp] theorem State.busError_turns : (s.busError write).turns = s.turns := rfl
@[simp] theorem State.busError_draws : (s.busError write).draws = s.draws := rfl

end

section
variable (s : State) (l : Nat) (h : Bool) (i : Nat) (w : Word)

@[simp] theorem State.capStore_params : (s.capStore l h i w).params = s.params := rfl
@[simp] theorem State.capStore_cfg : (s.capStore l h i w).cfg = s.cfg := rfl
@[simp] theorem State.capStore_ctrl : (s.capStore l h i w).ctrl = s.ctrl := rfl
@[simp] theorem State.capStore_run : (s.capStore l h i w).run = s.run := rfl
@[simp] theorem State.capStore_synced : (s.capStore l h i w).synced = s.synced := rfl
@[simp] theorem State.capStore_primed : (s.capStore l h i w).primed = s.primed := rfl
@[simp] theorem State.capStore_asmBusy : (s.capStore l h i w).asmBusy = s.asmBusy := rfl
@[simp] theorem State.capStore_frameReady : (s.capStore l h i w).frameReady = s.frameReady := rfl
@[simp] theorem State.capStore_frameOk : (s.capStore l h i w).frameOk = s.frameOk := rfl
@[simp] theorem State.capStore_cfgValid : (s.capStore l h i w).cfgValid = s.cfgValid := rfl
@[simp] theorem State.capStore_cfgErr : (s.capStore l h i w).cfgErr = s.cfgErr := rfl
@[simp] theorem State.capStore_errcode : (s.capStore l h i w).errcode = s.errcode := rfl
@[simp] theorem State.capStore_wt : (s.capStore l h i w).wt = s.wt := rfl
@[simp] theorem State.capStore_divq : (s.capStore l h i w).divq = s.divq := rfl
@[simp] theorem State.capStore_errflags : (s.capStore l h i w).errflags = s.errflags := rfl
@[simp] theorem State.capStore_irqPend : (s.capStore l h i w).irqPend = s.irqPend := rfl
@[simp] theorem State.capStore_irqEn : (s.capStore l h i w).irqEn = s.irqEn := rfl
@[simp] theorem State.capStore_missed : (s.capStore l h i w).missed = s.missed := rfl
@[simp] theorem State.capStore_halfcnt : (s.capStore l h i w).halfcnt = s.halfcnt := rfl
@[simp] theorem State.capStore_frameLen : (s.capStore l h i w).frameLen = s.frameLen := rfl
@[simp] theorem State.capStore_active : (s.capStore l h i w).active = s.active := rfl
@[simp] theorem State.capStore_fsv : (s.capStore l h i w).fsv = s.fsv := rfl
@[simp] theorem State.capStore_fsPrev : (s.capStore l h i w).fsPrev = s.fsPrev := rfl
@[simp] theorem State.capStore_pos : (s.capStore l h i w).pos = s.pos := rfl
@[simp] theorem State.capStore_widx : (s.capStore l h i w).widx = s.widx := rfl
@[simp] theorem State.capStore_sr : (s.capStore l h i w).sr = s.sr := rfl
@[simp] theorem State.capStore_divCnt : (s.capStore l h i w).divCnt = s.divCnt := rfl
@[simp] theorem State.capStore_divAcc : (s.capStore l h i w).divAcc = s.divAcc := rfl
@[simp] theorem State.capStore_bclk : (s.capStore l h i w).bclk = s.bclk := rfl
@[simp] theorem State.capStore_rh : (s.capStore l h i w).rh = s.rh := rfl
@[simp] theorem State.capStore_asmZero : (s.capStore l h i w).asmZero = s.asmZero := rfl
@[simp] theorem State.capStore_asmN : (s.capStore l h i w).asmN = s.asmN := rfl
@[simp] theorem State.capStore_cap : (s.capStore l h i w).cap = s.cap.writeBytes (capAddr l h i) [byteOf w 0, byteOf w 1, byteOf w 2, byteOf w 3] := rfl
@[simp] theorem State.capStore_frame : (s.capStore l h i w).frame = s.frame := rfl
@[simp] theorem State.capStore_resp : (s.capStore l h i w).resp = s.resp := rfl
@[simp] theorem State.capStore_ramEpoch : (s.capStore l h i w).ramEpoch = s.ramEpoch := rfl
@[simp] theorem State.capStore_bus : (s.capStore l h i w).bus = s.bus := rfl
@[simp] theorem State.capStore_serial : (s.capStore l h i w).serial = s.serial := rfl
@[simp] theorem State.capStore_turns : (s.capStore l h i w).turns = s.turns := rfl
@[simp] theorem State.capStore_draws : (s.capStore l h i w).draws = s.draws := rfl

end

section
variable (s : State) (a : Nat) (bs : List Byte)

@[simp] theorem State.frameStore_params : (s.frameStore a bs).params = s.params := rfl
@[simp] theorem State.frameStore_cfg : (s.frameStore a bs).cfg = s.cfg := rfl
@[simp] theorem State.frameStore_ctrl : (s.frameStore a bs).ctrl = s.ctrl := rfl
@[simp] theorem State.frameStore_run : (s.frameStore a bs).run = s.run := rfl
@[simp] theorem State.frameStore_synced : (s.frameStore a bs).synced = s.synced := rfl
@[simp] theorem State.frameStore_primed : (s.frameStore a bs).primed = s.primed := rfl
@[simp] theorem State.frameStore_asmBusy : (s.frameStore a bs).asmBusy = s.asmBusy := rfl
@[simp] theorem State.frameStore_frameReady : (s.frameStore a bs).frameReady = s.frameReady := rfl
@[simp] theorem State.frameStore_frameOk : (s.frameStore a bs).frameOk = s.frameOk := rfl
@[simp] theorem State.frameStore_cfgValid : (s.frameStore a bs).cfgValid = s.cfgValid := rfl
@[simp] theorem State.frameStore_cfgErr : (s.frameStore a bs).cfgErr = s.cfgErr := rfl
@[simp] theorem State.frameStore_errcode : (s.frameStore a bs).errcode = s.errcode := rfl
@[simp] theorem State.frameStore_wt : (s.frameStore a bs).wt = s.wt := rfl
@[simp] theorem State.frameStore_divq : (s.frameStore a bs).divq = s.divq := rfl
@[simp] theorem State.frameStore_errflags : (s.frameStore a bs).errflags = s.errflags := rfl
@[simp] theorem State.frameStore_irqPend : (s.frameStore a bs).irqPend = s.irqPend := rfl
@[simp] theorem State.frameStore_irqEn : (s.frameStore a bs).irqEn = s.irqEn := rfl
@[simp] theorem State.frameStore_missed : (s.frameStore a bs).missed = s.missed := rfl
@[simp] theorem State.frameStore_halfcnt : (s.frameStore a bs).halfcnt = s.halfcnt := rfl
@[simp] theorem State.frameStore_frameLen : (s.frameStore a bs).frameLen = s.frameLen := rfl
@[simp] theorem State.frameStore_active : (s.frameStore a bs).active = s.active := rfl
@[simp] theorem State.frameStore_fsv : (s.frameStore a bs).fsv = s.fsv := rfl
@[simp] theorem State.frameStore_fsPrev : (s.frameStore a bs).fsPrev = s.fsPrev := rfl
@[simp] theorem State.frameStore_pos : (s.frameStore a bs).pos = s.pos := rfl
@[simp] theorem State.frameStore_widx : (s.frameStore a bs).widx = s.widx := rfl
@[simp] theorem State.frameStore_sr : (s.frameStore a bs).sr = s.sr := rfl
@[simp] theorem State.frameStore_divCnt : (s.frameStore a bs).divCnt = s.divCnt := rfl
@[simp] theorem State.frameStore_divAcc : (s.frameStore a bs).divAcc = s.divAcc := rfl
@[simp] theorem State.frameStore_bclk : (s.frameStore a bs).bclk = s.bclk := rfl
@[simp] theorem State.frameStore_rh : (s.frameStore a bs).rh = s.rh := rfl
@[simp] theorem State.frameStore_asmZero : (s.frameStore a bs).asmZero = s.asmZero := rfl
@[simp] theorem State.frameStore_asmN : (s.frameStore a bs).asmN = s.asmN := rfl
@[simp] theorem State.frameStore_cap : (s.frameStore a bs).cap = s.cap := rfl
@[simp] theorem State.frameStore_frame : (s.frameStore a bs).frame = s.frame.writeBytes a bs := rfl
@[simp] theorem State.frameStore_resp : (s.frameStore a bs).resp = s.resp := rfl
@[simp] theorem State.frameStore_ramEpoch : (s.frameStore a bs).ramEpoch = s.ramEpoch := rfl
@[simp] theorem State.frameStore_bus : (s.frameStore a bs).bus = s.bus := rfl
@[simp] theorem State.frameStore_serial : (s.frameStore a bs).serial = s.serial := rfl
@[simp] theorem State.frameStore_turns : (s.frameStore a bs).turns = s.turns := rfl
@[simp] theorem State.frameStore_draws : (s.frameStore a bs).draws = s.draws := rfl

end

section
variable (s : State) (f : ErrFlag)

@[simp] theorem State.setErr_params : (s.setErr f).params = s.params := rfl
@[simp] theorem State.setErr_cfg : (s.setErr f).cfg = s.cfg := rfl
@[simp] theorem State.setErr_ctrl : (s.setErr f).ctrl = s.ctrl := rfl
@[simp] theorem State.setErr_run : (s.setErr f).run = s.run := rfl
@[simp] theorem State.setErr_synced : (s.setErr f).synced = s.synced := rfl
@[simp] theorem State.setErr_primed : (s.setErr f).primed = s.primed := rfl
@[simp] theorem State.setErr_asmBusy : (s.setErr f).asmBusy = s.asmBusy := rfl
@[simp] theorem State.setErr_frameReady : (s.setErr f).frameReady = s.frameReady := rfl
@[simp] theorem State.setErr_frameOk : (s.setErr f).frameOk = s.frameOk := rfl
@[simp] theorem State.setErr_cfgValid : (s.setErr f).cfgValid = s.cfgValid := rfl
@[simp] theorem State.setErr_cfgErr : (s.setErr f).cfgErr = s.cfgErr := rfl
@[simp] theorem State.setErr_errcode : (s.setErr f).errcode = s.errcode := rfl
@[simp] theorem State.setErr_wt : (s.setErr f).wt = s.wt := rfl
@[simp] theorem State.setErr_divq : (s.setErr f).divq = s.divq := rfl
@[simp] theorem State.setErr_errflags : (s.setErr f).errflags = s.errflags ||| (1#32 <<< errFlagBit f) := rfl
@[simp] theorem State.setErr_irqPend : (s.setErr f).irqPend = s.irqPend := rfl
@[simp] theorem State.setErr_irqEn : (s.setErr f).irqEn = s.irqEn := rfl
@[simp] theorem State.setErr_missed : (s.setErr f).missed = s.missed := rfl
@[simp] theorem State.setErr_halfcnt : (s.setErr f).halfcnt = s.halfcnt := rfl
@[simp] theorem State.setErr_frameLen : (s.setErr f).frameLen = s.frameLen := rfl
@[simp] theorem State.setErr_active : (s.setErr f).active = s.active := rfl
@[simp] theorem State.setErr_fsv : (s.setErr f).fsv = s.fsv := rfl
@[simp] theorem State.setErr_fsPrev : (s.setErr f).fsPrev = s.fsPrev := rfl
@[simp] theorem State.setErr_pos : (s.setErr f).pos = s.pos := rfl
@[simp] theorem State.setErr_widx : (s.setErr f).widx = s.widx := rfl
@[simp] theorem State.setErr_sr : (s.setErr f).sr = s.sr := rfl
@[simp] theorem State.setErr_divCnt : (s.setErr f).divCnt = s.divCnt := rfl
@[simp] theorem State.setErr_divAcc : (s.setErr f).divAcc = s.divAcc := rfl
@[simp] theorem State.setErr_bclk : (s.setErr f).bclk = s.bclk := rfl
@[simp] theorem State.setErr_rh : (s.setErr f).rh = s.rh := rfl
@[simp] theorem State.setErr_asmZero : (s.setErr f).asmZero = s.asmZero := rfl
@[simp] theorem State.setErr_asmN : (s.setErr f).asmN = s.asmN := rfl
@[simp] theorem State.setErr_cap : (s.setErr f).cap = s.cap := rfl
@[simp] theorem State.setErr_frame : (s.setErr f).frame = s.frame := rfl
@[simp] theorem State.setErr_resp : (s.setErr f).resp = s.resp := rfl
@[simp] theorem State.setErr_ramEpoch : (s.setErr f).ramEpoch = s.ramEpoch := rfl
@[simp] theorem State.setErr_bus : (s.setErr f).bus = s.bus := rfl
@[simp] theorem State.setErr_serial : (s.setErr f).serial = s.serial := rfl
@[simp] theorem State.setErr_turns : (s.setErr f).turns = s.turns := rfl
@[simp] theorem State.setErr_draws : (s.setErr f).draws = s.draws := rfl

end

section
variable (s : State) (lines : BitVec 6)

@[simp] theorem State.setHalfDone_params : (s.setHalfDone lines).params = s.params := rfl
@[simp] theorem State.setHalfDone_cfg : (s.setHalfDone lines).cfg = s.cfg := rfl
@[simp] theorem State.setHalfDone_ctrl : (s.setHalfDone lines).ctrl = s.ctrl := rfl
@[simp] theorem State.setHalfDone_run : (s.setHalfDone lines).run = s.run := rfl
@[simp] theorem State.setHalfDone_synced : (s.setHalfDone lines).synced = s.synced := rfl
@[simp] theorem State.setHalfDone_primed : (s.setHalfDone lines).primed = s.primed := rfl
@[simp] theorem State.setHalfDone_asmBusy : (s.setHalfDone lines).asmBusy = s.asmBusy := rfl
@[simp] theorem State.setHalfDone_frameReady : (s.setHalfDone lines).frameReady = s.frameReady := rfl
@[simp] theorem State.setHalfDone_frameOk : (s.setHalfDone lines).frameOk = s.frameOk := rfl
@[simp] theorem State.setHalfDone_cfgValid : (s.setHalfDone lines).cfgValid = s.cfgValid := rfl
@[simp] theorem State.setHalfDone_cfgErr : (s.setHalfDone lines).cfgErr = s.cfgErr := rfl
@[simp] theorem State.setHalfDone_errcode : (s.setHalfDone lines).errcode = s.errcode := rfl
@[simp] theorem State.setHalfDone_wt : (s.setHalfDone lines).wt = s.wt := rfl
@[simp] theorem State.setHalfDone_divq : (s.setHalfDone lines).divq = s.divq := rfl
@[simp] theorem State.setHalfDone_errflags : (s.setHalfDone lines).errflags = s.errflags := rfl
@[simp] theorem State.setHalfDone_irqPend : (s.setHalfDone lines).irqPend = s.irqPend ||| lines.setWidth 32 := rfl
@[simp] theorem State.setHalfDone_irqEn : (s.setHalfDone lines).irqEn = s.irqEn := rfl
@[simp] theorem State.setHalfDone_missed : (s.setHalfDone lines).missed = s.missed := rfl
@[simp] theorem State.setHalfDone_halfcnt : (s.setHalfDone lines).halfcnt = s.halfcnt := rfl
@[simp] theorem State.setHalfDone_frameLen : (s.setHalfDone lines).frameLen = s.frameLen := rfl
@[simp] theorem State.setHalfDone_active : (s.setHalfDone lines).active = s.active := rfl
@[simp] theorem State.setHalfDone_fsv : (s.setHalfDone lines).fsv = s.fsv := rfl
@[simp] theorem State.setHalfDone_fsPrev : (s.setHalfDone lines).fsPrev = s.fsPrev := rfl
@[simp] theorem State.setHalfDone_pos : (s.setHalfDone lines).pos = s.pos := rfl
@[simp] theorem State.setHalfDone_widx : (s.setHalfDone lines).widx = s.widx := rfl
@[simp] theorem State.setHalfDone_sr : (s.setHalfDone lines).sr = s.sr := rfl
@[simp] theorem State.setHalfDone_divCnt : (s.setHalfDone lines).divCnt = s.divCnt := rfl
@[simp] theorem State.setHalfDone_divAcc : (s.setHalfDone lines).divAcc = s.divAcc := rfl
@[simp] theorem State.setHalfDone_bclk : (s.setHalfDone lines).bclk = s.bclk := rfl
@[simp] theorem State.setHalfDone_rh : (s.setHalfDone lines).rh = s.rh := rfl
@[simp] theorem State.setHalfDone_asmZero : (s.setHalfDone lines).asmZero = s.asmZero := rfl
@[simp] theorem State.setHalfDone_asmN : (s.setHalfDone lines).asmN = s.asmN := rfl
@[simp] theorem State.setHalfDone_cap : (s.setHalfDone lines).cap = s.cap := rfl
@[simp] theorem State.setHalfDone_frame : (s.setHalfDone lines).frame = s.frame := rfl
@[simp] theorem State.setHalfDone_resp : (s.setHalfDone lines).resp = s.resp := rfl
@[simp] theorem State.setHalfDone_ramEpoch : (s.setHalfDone lines).ramEpoch = s.ramEpoch := rfl
@[simp] theorem State.setHalfDone_bus : (s.setHalfDone lines).bus = s.bus := rfl
@[simp] theorem State.setHalfDone_serial : (s.setHalfDone lines).serial = s.serial := rfl
@[simp] theorem State.setHalfDone_turns : (s.setHalfDone lines).turns = s.turns := rfl
@[simp] theorem State.setHalfDone_draws : (s.setHalfDone lines).draws = s.draws := rfl

end

section
variable (s : State)

@[simp] theorem State.divToggle_params : (s.divToggle).params = s.params := rfl
@[simp] theorem State.divToggle_cfg : (s.divToggle).cfg = s.cfg := rfl
@[simp] theorem State.divToggle_ctrl : (s.divToggle).ctrl = s.ctrl := rfl
@[simp] theorem State.divToggle_run : (s.divToggle).run = s.run := rfl
@[simp] theorem State.divToggle_synced : (s.divToggle).synced = s.synced := rfl
@[simp] theorem State.divToggle_primed : (s.divToggle).primed = s.primed := rfl
@[simp] theorem State.divToggle_asmBusy : (s.divToggle).asmBusy = s.asmBusy := rfl
@[simp] theorem State.divToggle_frameReady : (s.divToggle).frameReady = s.frameReady := rfl
@[simp] theorem State.divToggle_frameOk : (s.divToggle).frameOk = s.frameOk := rfl
@[simp] theorem State.divToggle_cfgValid : (s.divToggle).cfgValid = s.cfgValid := rfl
@[simp] theorem State.divToggle_cfgErr : (s.divToggle).cfgErr = s.cfgErr := rfl
@[simp] theorem State.divToggle_errcode : (s.divToggle).errcode = s.errcode := rfl
@[simp] theorem State.divToggle_wt : (s.divToggle).wt = s.wt := rfl
@[simp] theorem State.divToggle_divq : (s.divToggle).divq = s.divq := rfl
@[simp] theorem State.divToggle_errflags : (s.divToggle).errflags = s.errflags := rfl
@[simp] theorem State.divToggle_irqPend : (s.divToggle).irqPend = s.irqPend := rfl
@[simp] theorem State.divToggle_irqEn : (s.divToggle).irqEn = s.irqEn := rfl
@[simp] theorem State.divToggle_missed : (s.divToggle).missed = s.missed := rfl
@[simp] theorem State.divToggle_halfcnt : (s.divToggle).halfcnt = s.halfcnt := rfl
@[simp] theorem State.divToggle_frameLen : (s.divToggle).frameLen = s.frameLen := rfl
@[simp] theorem State.divToggle_active : (s.divToggle).active = s.active := rfl
@[simp] theorem State.divToggle_fsv : (s.divToggle).fsv = s.fsv := rfl
@[simp] theorem State.divToggle_fsPrev : (s.divToggle).fsPrev = s.fsPrev := rfl
@[simp] theorem State.divToggle_pos : (s.divToggle).pos = s.pos := rfl
@[simp] theorem State.divToggle_widx : (s.divToggle).widx = s.widx := rfl
@[simp] theorem State.divToggle_sr : (s.divToggle).sr = s.sr := rfl
@[simp] theorem State.divToggle_divCnt : (s.divToggle).divCnt = 0 := rfl
@[simp] theorem State.divToggle_divAcc : (s.divToggle).divAcc = s.divAcc + s.divFrac := rfl
@[simp] theorem State.divToggle_bclk : (s.divToggle).bclk = !s.bclk := rfl
@[simp] theorem State.divToggle_rh : (s.divToggle).rh = s.rh := rfl
@[simp] theorem State.divToggle_asmZero : (s.divToggle).asmZero = s.asmZero := rfl
@[simp] theorem State.divToggle_asmN : (s.divToggle).asmN = s.asmN := rfl
@[simp] theorem State.divToggle_cap : (s.divToggle).cap = s.cap := rfl
@[simp] theorem State.divToggle_frame : (s.divToggle).frame = s.frame := rfl
@[simp] theorem State.divToggle_resp : (s.divToggle).resp = s.resp := rfl
@[simp] theorem State.divToggle_ramEpoch : (s.divToggle).ramEpoch = s.ramEpoch := rfl
@[simp] theorem State.divToggle_bus : (s.divToggle).bus = s.bus := rfl
@[simp] theorem State.divToggle_serial : (s.divToggle).serial = s.serial := rfl
@[simp] theorem State.divToggle_turns : (s.divToggle).turns = s.turns := rfl
@[simp] theorem State.divToggle_draws : (s.divToggle).draws = s.draws := rfl

end

section
variable (s : State)

@[simp] theorem State.divClear_params : (s.divClear).params = s.params := rfl
@[simp] theorem State.divClear_cfg : (s.divClear).cfg = s.cfg := rfl
@[simp] theorem State.divClear_ctrl : (s.divClear).ctrl = s.ctrl := rfl
@[simp] theorem State.divClear_run : (s.divClear).run = s.run := rfl
@[simp] theorem State.divClear_synced : (s.divClear).synced = s.synced := rfl
@[simp] theorem State.divClear_primed : (s.divClear).primed = s.primed := rfl
@[simp] theorem State.divClear_asmBusy : (s.divClear).asmBusy = s.asmBusy := rfl
@[simp] theorem State.divClear_frameReady : (s.divClear).frameReady = s.frameReady := rfl
@[simp] theorem State.divClear_frameOk : (s.divClear).frameOk = s.frameOk := rfl
@[simp] theorem State.divClear_cfgValid : (s.divClear).cfgValid = s.cfgValid := rfl
@[simp] theorem State.divClear_cfgErr : (s.divClear).cfgErr = s.cfgErr := rfl
@[simp] theorem State.divClear_errcode : (s.divClear).errcode = s.errcode := rfl
@[simp] theorem State.divClear_wt : (s.divClear).wt = s.wt := rfl
@[simp] theorem State.divClear_divq : (s.divClear).divq = s.divq := rfl
@[simp] theorem State.divClear_errflags : (s.divClear).errflags = s.errflags := rfl
@[simp] theorem State.divClear_irqPend : (s.divClear).irqPend = s.irqPend := rfl
@[simp] theorem State.divClear_irqEn : (s.divClear).irqEn = s.irqEn := rfl
@[simp] theorem State.divClear_missed : (s.divClear).missed = s.missed := rfl
@[simp] theorem State.divClear_halfcnt : (s.divClear).halfcnt = s.halfcnt := rfl
@[simp] theorem State.divClear_frameLen : (s.divClear).frameLen = s.frameLen := rfl
@[simp] theorem State.divClear_active : (s.divClear).active = s.active := rfl
@[simp] theorem State.divClear_fsv : (s.divClear).fsv = s.fsv := rfl
@[simp] theorem State.divClear_fsPrev : (s.divClear).fsPrev = s.fsPrev := rfl
@[simp] theorem State.divClear_pos : (s.divClear).pos = s.pos := rfl
@[simp] theorem State.divClear_widx : (s.divClear).widx = s.widx := rfl
@[simp] theorem State.divClear_sr : (s.divClear).sr = s.sr := rfl
@[simp] theorem State.divClear_divCnt : (s.divClear).divCnt = 0 := rfl
@[simp] theorem State.divClear_divAcc : (s.divClear).divAcc = 0 := rfl
@[simp] theorem State.divClear_bclk : (s.divClear).bclk = false := rfl
@[simp] theorem State.divClear_rh : (s.divClear).rh = s.rh := rfl
@[simp] theorem State.divClear_asmZero : (s.divClear).asmZero = s.asmZero := rfl
@[simp] theorem State.divClear_asmN : (s.divClear).asmN = s.asmN := rfl
@[simp] theorem State.divClear_cap : (s.divClear).cap = s.cap := rfl
@[simp] theorem State.divClear_frame : (s.divClear).frame = s.frame := rfl
@[simp] theorem State.divClear_resp : (s.divClear).resp = s.resp := rfl
@[simp] theorem State.divClear_ramEpoch : (s.divClear).ramEpoch = s.ramEpoch := rfl
@[simp] theorem State.divClear_bus : (s.divClear).bus = s.bus := rfl
@[simp] theorem State.divClear_serial : (s.divClear).serial = s.serial := rfl
@[simp] theorem State.divClear_turns : (s.divClear).turns = s.turns := rfl
@[simp] theorem State.divClear_draws : (s.divClear).draws = s.draws := rfl

end

section
variable (s : State)

@[simp] theorem State.clearSequencer_params : (s.clearSequencer).params = s.params := rfl
@[simp] theorem State.clearSequencer_cfg : (s.clearSequencer).cfg = s.cfg := rfl
@[simp] theorem State.clearSequencer_ctrl : (s.clearSequencer).ctrl = s.ctrl := rfl
@[simp] theorem State.clearSequencer_run : (s.clearSequencer).run = s.run := rfl
@[simp] theorem State.clearSequencer_synced : (s.clearSequencer).synced = false := rfl
@[simp] theorem State.clearSequencer_primed : (s.clearSequencer).primed = false := rfl
@[simp] theorem State.clearSequencer_asmBusy : (s.clearSequencer).asmBusy = s.asmBusy := rfl
@[simp] theorem State.clearSequencer_frameReady : (s.clearSequencer).frameReady = s.frameReady := rfl
@[simp] theorem State.clearSequencer_frameOk : (s.clearSequencer).frameOk = s.frameOk := rfl
@[simp] theorem State.clearSequencer_cfgValid : (s.clearSequencer).cfgValid = s.cfgValid := rfl
@[simp] theorem State.clearSequencer_cfgErr : (s.clearSequencer).cfgErr = s.cfgErr := rfl
@[simp] theorem State.clearSequencer_errcode : (s.clearSequencer).errcode = s.errcode := rfl
@[simp] theorem State.clearSequencer_wt : (s.clearSequencer).wt = s.wt := rfl
@[simp] theorem State.clearSequencer_divq : (s.clearSequencer).divq = s.divq := rfl
@[simp] theorem State.clearSequencer_errflags : (s.clearSequencer).errflags = s.errflags := rfl
@[simp] theorem State.clearSequencer_irqPend : (s.clearSequencer).irqPend = s.irqPend := rfl
@[simp] theorem State.clearSequencer_irqEn : (s.clearSequencer).irqEn = s.irqEn := rfl
@[simp] theorem State.clearSequencer_missed : (s.clearSequencer).missed = s.missed := rfl
@[simp] theorem State.clearSequencer_halfcnt : (s.clearSequencer).halfcnt = s.halfcnt := rfl
@[simp] theorem State.clearSequencer_frameLen : (s.clearSequencer).frameLen = s.frameLen := rfl
@[simp] theorem State.clearSequencer_active : (s.clearSequencer).active = s.active := rfl
@[simp] theorem State.clearSequencer_fsv : (s.clearSequencer).fsv = false := rfl
@[simp] theorem State.clearSequencer_fsPrev : (s.clearSequencer).fsPrev = s.fsPrev := rfl
@[simp] theorem State.clearSequencer_pos : (s.clearSequencer).pos = 0 := rfl
@[simp] theorem State.clearSequencer_widx : (s.clearSequencer).widx = 0 := rfl
@[simp] theorem State.clearSequencer_sr : (s.clearSequencer).sr = s.sr := rfl
@[simp] theorem State.clearSequencer_divCnt : (s.clearSequencer).divCnt = s.divCnt := rfl
@[simp] theorem State.clearSequencer_divAcc : (s.clearSequencer).divAcc = s.divAcc := rfl
@[simp] theorem State.clearSequencer_bclk : (s.clearSequencer).bclk = s.bclk := rfl
@[simp] theorem State.clearSequencer_rh : (s.clearSequencer).rh = s.rh := rfl
@[simp] theorem State.clearSequencer_asmZero : (s.clearSequencer).asmZero = s.asmZero := rfl
@[simp] theorem State.clearSequencer_asmN : (s.clearSequencer).asmN = s.asmN := rfl
@[simp] theorem State.clearSequencer_cap : (s.clearSequencer).cap = s.cap := rfl
@[simp] theorem State.clearSequencer_frame : (s.clearSequencer).frame = s.frame := rfl
@[simp] theorem State.clearSequencer_resp : (s.clearSequencer).resp = s.resp := rfl
@[simp] theorem State.clearSequencer_ramEpoch : (s.clearSequencer).ramEpoch = s.ramEpoch := rfl
@[simp] theorem State.clearSequencer_bus : (s.clearSequencer).bus = s.bus := rfl
@[simp] theorem State.clearSequencer_serial : (s.clearSequencer).serial = s.serial := rfl
@[simp] theorem State.clearSequencer_turns : (s.clearSequencer).turns = s.turns := rfl
@[simp] theorem State.clearSequencer_draws : (s.clearSequencer).draws = s.draws := rfl

end

section
variable (s : State)

@[simp] theorem State.startStreaming_params : (s.startStreaming).params = s.params := rfl
@[simp] theorem State.startStreaming_cfg : (s.startStreaming).cfg = s.cfg := rfl
@[simp] theorem State.startStreaming_ctrl : (s.startStreaming).ctrl = s.ctrl := rfl
@[simp] theorem State.startStreaming_run : (s.startStreaming).run = true := rfl
@[simp] theorem State.startStreaming_synced : (s.startStreaming).synced = false := rfl
@[simp] theorem State.startStreaming_primed : (s.startStreaming).primed = false := rfl
@[simp] theorem State.startStreaming_asmBusy : (s.startStreaming).asmBusy = s.asmBusy := rfl
@[simp] theorem State.startStreaming_frameReady : (s.startStreaming).frameReady = s.frameReady := rfl
@[simp] theorem State.startStreaming_frameOk : (s.startStreaming).frameOk = s.frameOk := rfl
@[simp] theorem State.startStreaming_cfgValid : (s.startStreaming).cfgValid = true := rfl
@[simp] theorem State.startStreaming_cfgErr : (s.startStreaming).cfgErr = false := rfl
@[simp] theorem State.startStreaming_errcode : (s.startStreaming).errcode = 0 := rfl
@[simp] theorem State.startStreaming_wt : (s.startStreaming).wt = 0 := rfl
@[simp] theorem State.startStreaming_divq : (s.startStreaming).divq = BitVec.ofNat 24 s.cfg.divQ := rfl
@[simp] theorem State.startStreaming_errflags : (s.startStreaming).errflags = s.errflags := rfl
@[simp] theorem State.startStreaming_irqPend : (s.startStreaming).irqPend = s.irqPend &&& ~~~halfDoneMask := rfl
@[simp] theorem State.startStreaming_irqEn : (s.startStreaming).irqEn = s.irqEn := rfl
@[simp] theorem State.startStreaming_missed : (s.startStreaming).missed = s.missed := rfl
@[simp] theorem State.startStreaming_halfcnt : (s.startStreaming).halfcnt = 0 := rfl
@[simp] theorem State.startStreaming_frameLen : (s.startStreaming).frameLen = s.frameLen := rfl
@[simp] theorem State.startStreaming_active : (s.startStreaming).active = s.cfg := rfl
@[simp] theorem State.startStreaming_fsv : (s.startStreaming).fsv = false := rfl
@[simp] theorem State.startStreaming_fsPrev : (s.startStreaming).fsPrev = s.fsPrev := rfl
@[simp] theorem State.startStreaming_pos : (s.startStreaming).pos = 0 := rfl
@[simp] theorem State.startStreaming_widx : (s.startStreaming).widx = 0 := rfl
@[simp] theorem State.startStreaming_sr : (s.startStreaming).sr = s.sr := rfl
@[simp] theorem State.startStreaming_divCnt : (s.startStreaming).divCnt = 0 := rfl
@[simp] theorem State.startStreaming_divAcc : (s.startStreaming).divAcc = 0 := rfl
@[simp] theorem State.startStreaming_bclk : (s.startStreaming).bclk = false := rfl
@[simp] theorem State.startStreaming_rh : (s.startStreaming).rh = s.rh := rfl
@[simp] theorem State.startStreaming_asmZero : (s.startStreaming).asmZero = s.asmZero := rfl
@[simp] theorem State.startStreaming_asmN : (s.startStreaming).asmN = s.asmN := rfl
@[simp] theorem State.startStreaming_cap : (s.startStreaming).cap = s.cap := rfl
@[simp] theorem State.startStreaming_frame : (s.startStreaming).frame = s.frame := rfl
@[simp] theorem State.startStreaming_resp : (s.startStreaming).resp = s.resp := rfl
@[simp] theorem State.startStreaming_ramEpoch : (s.startStreaming).ramEpoch = s.ramEpoch := rfl
@[simp] theorem State.startStreaming_bus : (s.startStreaming).bus = s.bus := rfl
@[simp] theorem State.startStreaming_serial : (s.startStreaming).serial = s.serial := rfl
@[simp] theorem State.startStreaming_turns : (s.startStreaming).turns = s.turns := rfl
@[simp] theorem State.startStreaming_draws : (s.startStreaming).draws = s.draws := rfl

end

section
variable (s : State)

@[simp] theorem State.stopStreaming_params : (s.stopStreaming).params = s.params := rfl
@[simp] theorem State.stopStreaming_cfg : (s.stopStreaming).cfg = s.cfg := rfl
@[simp] theorem State.stopStreaming_ctrl : (s.stopStreaming).ctrl = s.ctrl := rfl
@[simp] theorem State.stopStreaming_run : (s.stopStreaming).run = false := rfl
@[simp] theorem State.stopStreaming_synced : (s.stopStreaming).synced = false := rfl
@[simp] theorem State.stopStreaming_primed : (s.stopStreaming).primed = false := rfl
@[simp] theorem State.stopStreaming_asmBusy : (s.stopStreaming).asmBusy = s.asmBusy := rfl
@[simp] theorem State.stopStreaming_frameReady : (s.stopStreaming).frameReady = s.frameReady := rfl
@[simp] theorem State.stopStreaming_frameOk : (s.stopStreaming).frameOk = s.frameOk := rfl
@[simp] theorem State.stopStreaming_cfgValid : (s.stopStreaming).cfgValid = s.cfgValid := rfl
@[simp] theorem State.stopStreaming_cfgErr : (s.stopStreaming).cfgErr = s.cfgErr := rfl
@[simp] theorem State.stopStreaming_errcode : (s.stopStreaming).errcode = s.errcode := rfl
@[simp] theorem State.stopStreaming_wt : (s.stopStreaming).wt = s.wt := rfl
@[simp] theorem State.stopStreaming_divq : (s.stopStreaming).divq = s.divq := rfl
@[simp] theorem State.stopStreaming_errflags : (s.stopStreaming).errflags = s.errflags := rfl
@[simp] theorem State.stopStreaming_irqPend : (s.stopStreaming).irqPend = s.irqPend := rfl
@[simp] theorem State.stopStreaming_irqEn : (s.stopStreaming).irqEn = s.irqEn := rfl
@[simp] theorem State.stopStreaming_missed : (s.stopStreaming).missed = s.missed := rfl
@[simp] theorem State.stopStreaming_halfcnt : (s.stopStreaming).halfcnt = s.halfcnt := rfl
@[simp] theorem State.stopStreaming_frameLen : (s.stopStreaming).frameLen = s.frameLen := rfl
@[simp] theorem State.stopStreaming_active : (s.stopStreaming).active = s.active := rfl
@[simp] theorem State.stopStreaming_fsv : (s.stopStreaming).fsv = false := rfl
@[simp] theorem State.stopStreaming_fsPrev : (s.stopStreaming).fsPrev = s.fsPrev := rfl
@[simp] theorem State.stopStreaming_pos : (s.stopStreaming).pos = 0 := rfl
@[simp] theorem State.stopStreaming_widx : (s.stopStreaming).widx = 0 := rfl
@[simp] theorem State.stopStreaming_sr : (s.stopStreaming).sr = s.sr := rfl
@[simp] theorem State.stopStreaming_divCnt : (s.stopStreaming).divCnt = 0 := rfl
@[simp] theorem State.stopStreaming_divAcc : (s.stopStreaming).divAcc = 0 := rfl
@[simp] theorem State.stopStreaming_bclk : (s.stopStreaming).bclk = false := rfl
@[simp] theorem State.stopStreaming_rh : (s.stopStreaming).rh = s.rh := rfl
@[simp] theorem State.stopStreaming_asmZero : (s.stopStreaming).asmZero = s.asmZero := rfl
@[simp] theorem State.stopStreaming_asmN : (s.stopStreaming).asmN = s.asmN := rfl
@[simp] theorem State.stopStreaming_cap : (s.stopStreaming).cap = s.cap := rfl
@[simp] theorem State.stopStreaming_frame : (s.stopStreaming).frame = s.frame := rfl
@[simp] theorem State.stopStreaming_resp : (s.stopStreaming).resp = s.resp := rfl
@[simp] theorem State.stopStreaming_ramEpoch : (s.stopStreaming).ramEpoch = s.ramEpoch := rfl
@[simp] theorem State.stopStreaming_bus : (s.stopStreaming).bus = s.bus := rfl
@[simp] theorem State.stopStreaming_serial : (s.stopStreaming).serial = s.serial := rfl
@[simp] theorem State.stopStreaming_turns : (s.stopStreaming).turns = s.turns := rfl
@[simp] theorem State.stopStreaming_draws : (s.stopStreaming).draws = s.draws := rfl

end

section
variable (s : State)

@[simp] theorem State.flip_params : (s.flip).params = s.params := rfl
@[simp] theorem State.flip_cfg : (s.flip).cfg = s.cfg := rfl
@[simp] theorem State.flip_ctrl : (s.flip).ctrl = s.ctrl := rfl
@[simp] theorem State.flip_run : (s.flip).run = s.run := rfl
@[simp] theorem State.flip_synced : (s.flip).synced = s.synced := rfl
@[simp] theorem State.flip_primed : (s.flip).primed = s.primed := rfl
@[simp] theorem State.flip_asmBusy : (s.flip).asmBusy = s.asmBusy := rfl
@[simp] theorem State.flip_frameReady : (s.flip).frameReady = s.frameReady := rfl
@[simp] theorem State.flip_frameOk : (s.flip).frameOk = s.frameOk := rfl
@[simp] theorem State.flip_cfgValid : (s.flip).cfgValid = s.cfgValid := rfl
@[simp] theorem State.flip_cfgErr : (s.flip).cfgErr = s.cfgErr := rfl
@[simp] theorem State.flip_errcode : (s.flip).errcode = s.errcode := rfl
@[simp] theorem State.flip_wt : (s.flip).wt = s.wt ^^^ s.activeLines := rfl
@[simp] theorem State.flip_divq : (s.flip).divq = s.divq := rfl
@[simp] theorem State.flip_errflags : (s.flip).errflags = s.errflags := rfl
@[simp] theorem State.flip_irqPend : (s.flip).irqPend = s.irqPend := rfl
@[simp] theorem State.flip_irqEn : (s.flip).irqEn = s.irqEn := rfl
@[simp] theorem State.flip_missed : (s.flip).missed = s.missed := rfl
@[simp] theorem State.flip_halfcnt : (s.flip).halfcnt = s.halfcnt := rfl
@[simp] theorem State.flip_frameLen : (s.flip).frameLen = s.frameLen := rfl
@[simp] theorem State.flip_active : (s.flip).active = s.active := rfl
@[simp] theorem State.flip_fsv : (s.flip).fsv = s.fsv := rfl
@[simp] theorem State.flip_fsPrev : (s.flip).fsPrev = s.fsPrev := rfl
@[simp] theorem State.flip_pos : (s.flip).pos = s.pos := rfl
@[simp] theorem State.flip_widx : (s.flip).widx = s.widx := rfl
@[simp] theorem State.flip_sr : (s.flip).sr = s.sr := rfl
@[simp] theorem State.flip_divCnt : (s.flip).divCnt = s.divCnt := rfl
@[simp] theorem State.flip_divAcc : (s.flip).divAcc = s.divAcc := rfl
@[simp] theorem State.flip_bclk : (s.flip).bclk = s.bclk := rfl
@[simp] theorem State.flip_rh : (s.flip).rh = s.rh := rfl
@[simp] theorem State.flip_asmZero : (s.flip).asmZero = s.asmZero := rfl
@[simp] theorem State.flip_asmN : (s.flip).asmN = s.asmN := rfl
@[simp] theorem State.flip_cap : (s.flip).cap = s.cap := rfl
@[simp] theorem State.flip_frame : (s.flip).frame = s.frame := rfl
@[simp] theorem State.flip_resp : (s.flip).resp = s.resp := rfl
@[simp] theorem State.flip_ramEpoch : (s.flip).ramEpoch = s.ramEpoch := rfl
@[simp] theorem State.flip_bus : (s.flip).bus = s.bus := rfl
@[simp] theorem State.flip_serial : (s.flip).serial = s.serial := rfl
@[simp] theorem State.flip_turns : (s.flip).turns = s.turns := rfl
@[simp] theorem State.flip_draws : (s.flip).draws = s.draws := rfl

end

section
variable (s : State)

@[simp] theorem State.realign_params : (s.realign).params = s.params := rfl
@[simp] theorem State.realign_cfg : (s.realign).cfg = s.cfg := rfl
@[simp] theorem State.realign_ctrl : (s.realign).ctrl = s.ctrl := rfl
@[simp] theorem State.realign_run : (s.realign).run = s.run := rfl
@[simp] theorem State.realign_synced : (s.realign).synced = s.synced := rfl
@[simp] theorem State.realign_primed : (s.realign).primed = s.primed := rfl
@[simp] theorem State.realign_asmBusy : (s.realign).asmBusy = s.asmBusy := rfl
@[simp] theorem State.realign_frameReady : (s.realign).frameReady = s.frameReady := rfl
@[simp] theorem State.realign_frameOk : (s.realign).frameOk = s.frameOk := rfl
@[simp] theorem State.realign_cfgValid : (s.realign).cfgValid = s.cfgValid := rfl
@[simp] theorem State.realign_cfgErr : (s.realign).cfgErr = s.cfgErr := rfl
@[simp] theorem State.realign_errcode : (s.realign).errcode = s.errcode := rfl
@[simp] theorem State.realign_wt : (s.realign).wt = s.wt := rfl
@[simp] theorem State.realign_divq : (s.realign).divq = s.divq := rfl
@[simp] theorem State.realign_errflags : (s.realign).errflags = s.errflags ||| 1#32 := rfl
@[simp] theorem State.realign_irqPend : (s.realign).irqPend = s.irqPend := rfl
@[simp] theorem State.realign_irqEn : (s.realign).irqEn = s.irqEn := rfl
@[simp] theorem State.realign_missed : (s.realign).missed = s.missed := rfl
@[simp] theorem State.realign_halfcnt : (s.realign).halfcnt = s.halfcnt := rfl
@[simp] theorem State.realign_frameLen : (s.realign).frameLen = s.frameLen := rfl
@[simp] theorem State.realign_active : (s.realign).active = s.active := rfl
@[simp] theorem State.realign_fsv : (s.realign).fsv = s.fsv := rfl
@[simp] theorem State.realign_fsPrev : (s.realign).fsPrev = s.fsPrev := rfl
@[simp] theorem State.realign_pos : (s.realign).pos = s.pos := rfl
@[simp] theorem State.realign_widx : (s.realign).widx = s.widx - BitVec.ofNat 7 (s.widx.toNat % s.active.slots) := rfl
@[simp] theorem State.realign_sr : (s.realign).sr = s.sr := rfl
@[simp] theorem State.realign_divCnt : (s.realign).divCnt = s.divCnt := rfl
@[simp] theorem State.realign_divAcc : (s.realign).divAcc = s.divAcc := rfl
@[simp] theorem State.realign_bclk : (s.realign).bclk = s.bclk := rfl
@[simp] theorem State.realign_rh : (s.realign).rh = s.rh := rfl
@[simp] theorem State.realign_asmZero : (s.realign).asmZero = s.asmZero := rfl
@[simp] theorem State.realign_asmN : (s.realign).asmN = s.asmN := rfl
@[simp] theorem State.realign_cap : (s.realign).cap = s.cap := rfl
@[simp] theorem State.realign_frame : (s.realign).frame = s.frame := rfl
@[simp] theorem State.realign_resp : (s.realign).resp = s.resp := rfl
@[simp] theorem State.realign_ramEpoch : (s.realign).ramEpoch = s.ramEpoch := rfl
@[simp] theorem State.realign_bus : (s.realign).bus = s.bus := rfl
@[simp] theorem State.realign_serial : (s.realign).serial = s.serial := rfl
@[simp] theorem State.realign_turns : (s.realign).turns = s.turns := rfl
@[simp] theorem State.realign_draws : (s.realign).draws = s.draws := rfl

end

section
variable (s : State) (ok : Bool) (len : BitVec 16)

@[simp] theorem State.finish_params : (s.finish ok len).params = s.params := rfl
@[simp] theorem State.finish_cfg : (s.finish ok len).cfg = s.cfg := rfl
@[simp] theorem State.finish_ctrl : (s.finish ok len).ctrl = s.ctrl := rfl
@[simp] theorem State.finish_run : (s.finish ok len).run = s.run := rfl
@[simp] theorem State.finish_synced : (s.finish ok len).synced = s.synced := rfl
@[simp] theorem State.finish_primed : (s.finish ok len).primed = s.primed := rfl
@[simp] theorem State.finish_asmBusy : (s.finish ok len).asmBusy = false := rfl
@[simp] theorem State.finish_frameReady : (s.finish ok len).frameReady = true := rfl
@[simp] theorem State.finish_frameOk : (s.finish ok len).frameOk = ok := rfl
@[simp] theorem State.finish_cfgValid : (s.finish ok len).cfgValid = s.cfgValid := rfl
@[simp] theorem State.finish_cfgErr : (s.finish ok len).cfgErr = s.cfgErr := rfl
@[simp] theorem State.finish_errcode : (s.finish ok len).errcode = s.errcode := rfl
@[simp] theorem State.finish_wt : (s.finish ok len).wt = s.wt := rfl
@[simp] theorem State.finish_divq : (s.finish ok len).divq = s.divq := rfl
@[simp] theorem State.finish_errflags : (s.finish ok len).errflags = s.errflags := rfl
@[simp] theorem State.finish_irqPend : (s.finish ok len).irqPend = s.irqPend ||| frameDoneBit := rfl
@[simp] theorem State.finish_irqEn : (s.finish ok len).irqEn = s.irqEn := rfl
@[simp] theorem State.finish_missed : (s.finish ok len).missed = s.missed := rfl
@[simp] theorem State.finish_halfcnt : (s.finish ok len).halfcnt = s.halfcnt := rfl
@[simp] theorem State.finish_frameLen : (s.finish ok len).frameLen = len := rfl
@[simp] theorem State.finish_active : (s.finish ok len).active = s.active := rfl
@[simp] theorem State.finish_fsv : (s.finish ok len).fsv = s.fsv := rfl
@[simp] theorem State.finish_fsPrev : (s.finish ok len).fsPrev = s.fsPrev := rfl
@[simp] theorem State.finish_pos : (s.finish ok len).pos = s.pos := rfl
@[simp] theorem State.finish_widx : (s.finish ok len).widx = s.widx := rfl
@[simp] theorem State.finish_sr : (s.finish ok len).sr = s.sr := rfl
@[simp] theorem State.finish_divCnt : (s.finish ok len).divCnt = s.divCnt := rfl
@[simp] theorem State.finish_divAcc : (s.finish ok len).divAcc = s.divAcc := rfl
@[simp] theorem State.finish_bclk : (s.finish ok len).bclk = s.bclk := rfl
@[simp] theorem State.finish_rh : (s.finish ok len).rh = s.rh := rfl
@[simp] theorem State.finish_asmZero : (s.finish ok len).asmZero = s.asmZero := rfl
@[simp] theorem State.finish_asmN : (s.finish ok len).asmN = s.asmN := rfl
@[simp] theorem State.finish_cap : (s.finish ok len).cap = s.cap := rfl
@[simp] theorem State.finish_frame : (s.finish ok len).frame = s.frame := rfl
@[simp] theorem State.finish_resp : (s.finish ok len).resp = s.resp := rfl
@[simp] theorem State.finish_ramEpoch : (s.finish ok len).ramEpoch = s.ramEpoch := rfl
@[simp] theorem State.finish_bus : (s.finish ok len).bus = s.bus := rfl
@[simp] theorem State.finish_serial : (s.finish ok len).serial = s.serial := rfl
@[simp] theorem State.finish_turns : (s.finish ok len).turns = s.turns := rfl
@[simp] theorem State.finish_draws : (s.finish ok len).draws = s.draws := rfl

end

section
variable (s : State)

@[simp] theorem State.startAssembly_params : (s.startAssembly).params = s.params := rfl
@[simp] theorem State.startAssembly_cfg : (s.startAssembly).cfg = s.cfg := rfl
@[simp] theorem State.startAssembly_ctrl : (s.startAssembly).ctrl = s.ctrl := rfl
@[simp] theorem State.startAssembly_run : (s.startAssembly).run = s.run := rfl
@[simp] theorem State.startAssembly_synced : (s.startAssembly).synced = s.synced := rfl
@[simp] theorem State.startAssembly_primed : (s.startAssembly).primed = s.primed := rfl
@[simp] theorem State.startAssembly_asmBusy : (s.startAssembly).asmBusy = true := rfl
@[simp] theorem State.startAssembly_frameReady : (s.startAssembly).frameReady = s.frameReady := rfl
@[simp] theorem State.startAssembly_frameOk : (s.startAssembly).frameOk = s.frameOk := rfl
@[simp] theorem State.startAssembly_cfgValid : (s.startAssembly).cfgValid = s.cfgValid := rfl
@[simp] theorem State.startAssembly_cfgErr : (s.startAssembly).cfgErr = s.cfgErr := rfl
@[simp] theorem State.startAssembly_errcode : (s.startAssembly).errcode = s.errcode := rfl
@[simp] theorem State.startAssembly_wt : (s.startAssembly).wt = s.wt := rfl
@[simp] theorem State.startAssembly_divq : (s.startAssembly).divq = s.divq := rfl
@[simp] theorem State.startAssembly_errflags : (s.startAssembly).errflags = s.errflags := rfl
@[simp] theorem State.startAssembly_irqPend : (s.startAssembly).irqPend = s.irqPend := rfl
@[simp] theorem State.startAssembly_irqEn : (s.startAssembly).irqEn = s.irqEn := rfl
@[simp] theorem State.startAssembly_missed : (s.startAssembly).missed = s.missed := rfl
@[simp] theorem State.startAssembly_halfcnt : (s.startAssembly).halfcnt = s.halfcnt := rfl
@[simp] theorem State.startAssembly_frameLen : (s.startAssembly).frameLen = s.frameLen := rfl
@[simp] theorem State.startAssembly_active : (s.startAssembly).active = s.active := rfl
@[simp] theorem State.startAssembly_fsv : (s.startAssembly).fsv = s.fsv := rfl
@[simp] theorem State.startAssembly_fsPrev : (s.startAssembly).fsPrev = s.fsPrev := rfl
@[simp] theorem State.startAssembly_pos : (s.startAssembly).pos = s.pos := rfl
@[simp] theorem State.startAssembly_widx : (s.startAssembly).widx = s.widx := rfl
@[simp] theorem State.startAssembly_sr : (s.startAssembly).sr = s.sr := rfl
@[simp] theorem State.startAssembly_divCnt : (s.startAssembly).divCnt = s.divCnt := rfl
@[simp] theorem State.startAssembly_divAcc : (s.startAssembly).divAcc = s.divAcc := rfl
@[simp] theorem State.startAssembly_bclk : (s.startAssembly).bclk = s.bclk := rfl
@[simp] theorem State.startAssembly_rh : (s.startAssembly).rh = ~~~s.wt := rfl
@[simp] theorem State.startAssembly_asmZero : (s.startAssembly).asmZero = !s.primed := rfl
@[simp] theorem State.startAssembly_asmN : (s.startAssembly).asmN = 0 := rfl
@[simp] theorem State.startAssembly_cap : (s.startAssembly).cap = s.cap := rfl
@[simp] theorem State.startAssembly_frame : (s.startAssembly).frame = s.frame := rfl
@[simp] theorem State.startAssembly_resp : (s.startAssembly).resp = s.resp := rfl
@[simp] theorem State.startAssembly_ramEpoch : (s.startAssembly).ramEpoch = s.ramEpoch := rfl
@[simp] theorem State.startAssembly_bus : (s.startAssembly).bus = s.bus := rfl
@[simp] theorem State.startAssembly_serial : (s.startAssembly).serial = s.serial := rfl
@[simp] theorem State.startAssembly_turns : (s.startAssembly).turns = s.turns := rfl
@[simp] theorem State.startAssembly_draws : (s.startAssembly).draws = s.draws := rfl

end

section
variable (s : State) (d : BitVec 6)

@[simp] theorem State.shift_params : (s.shift d).params = s.params := rfl
@[simp] theorem State.shift_cfg : (s.shift d).cfg = s.cfg := rfl
@[simp] theorem State.shift_ctrl : (s.shift d).ctrl = s.ctrl := rfl
@[simp] theorem State.shift_run : (s.shift d).run = s.run := rfl
@[simp] theorem State.shift_synced : (s.shift d).synced = s.synced := rfl
@[simp] theorem State.shift_primed : (s.shift d).primed = s.primed := rfl
@[simp] theorem State.shift_asmBusy : (s.shift d).asmBusy = s.asmBusy := rfl
@[simp] theorem State.shift_frameReady : (s.shift d).frameReady = s.frameReady := rfl
@[simp] theorem State.shift_frameOk : (s.shift d).frameOk = s.frameOk := rfl
@[simp] theorem State.shift_cfgValid : (s.shift d).cfgValid = s.cfgValid := rfl
@[simp] theorem State.shift_cfgErr : (s.shift d).cfgErr = s.cfgErr := rfl
@[simp] theorem State.shift_errcode : (s.shift d).errcode = s.errcode := rfl
@[simp] theorem State.shift_wt : (s.shift d).wt = s.wt := rfl
@[simp] theorem State.shift_divq : (s.shift d).divq = s.divq := rfl
@[simp] theorem State.shift_errflags : (s.shift d).errflags = s.errflags := rfl
@[simp] theorem State.shift_irqPend : (s.shift d).irqPend = s.irqPend := rfl
@[simp] theorem State.shift_irqEn : (s.shift d).irqEn = s.irqEn := rfl
@[simp] theorem State.shift_missed : (s.shift d).missed = s.missed := rfl
@[simp] theorem State.shift_halfcnt : (s.shift d).halfcnt = s.halfcnt := rfl
@[simp] theorem State.shift_frameLen : (s.shift d).frameLen = s.frameLen := rfl
@[simp] theorem State.shift_active : (s.shift d).active = s.active := rfl
@[simp] theorem State.shift_fsv : (s.shift d).fsv = s.fsv := rfl
@[simp] theorem State.shift_fsPrev : (s.shift d).fsPrev = s.fsPrev := rfl
@[simp] theorem State.shift_pos : (s.shift d).pos = s.pos := rfl
@[simp] theorem State.shift_widx : (s.shift d).widx = s.widx := rfl
@[simp] theorem State.shift_divCnt : (s.shift d).divCnt = s.divCnt := rfl
@[simp] theorem State.shift_divAcc : (s.shift d).divAcc = s.divAcc := rfl
@[simp] theorem State.shift_bclk : (s.shift d).bclk = s.bclk := rfl
@[simp] theorem State.shift_rh : (s.shift d).rh = s.rh := rfl
@[simp] theorem State.shift_asmZero : (s.shift d).asmZero = s.asmZero := rfl
@[simp] theorem State.shift_asmN : (s.shift d).asmN = s.asmN := rfl
@[simp] theorem State.shift_cap : (s.shift d).cap = s.cap := rfl
@[simp] theorem State.shift_frame : (s.shift d).frame = s.frame := rfl
@[simp] theorem State.shift_resp : (s.shift d).resp = s.resp := rfl
@[simp] theorem State.shift_ramEpoch : (s.shift d).ramEpoch = s.ramEpoch := rfl
@[simp] theorem State.shift_bus : (s.shift d).bus = s.bus := rfl
@[simp] theorem State.shift_serial : (s.shift d).serial = s.serial := rfl
@[simp] theorem State.shift_turns : (s.shift d).turns = s.turns := rfl
@[simp] theorem State.shift_draws : (s.shift d).draws = s.draws := rfl

end

section
variable (s : State) (c : CfgRegs)

@[simp] theorem State.writeCfg_params : (s.writeCfg c).params = s.params := by unfold State.writeCfg; split <;> rfl
@[simp] theorem State.writeCfg_ctrl : (s.writeCfg c).ctrl = s.ctrl := by unfold State.writeCfg; split <;> rfl
@[simp] theorem State.writeCfg_run : (s.writeCfg c).run = s.run := by unfold State.writeCfg; split <;> rfl
@[simp] theorem State.writeCfg_synced : (s.writeCfg c).synced = s.synced := by unfold State.writeCfg; split <;> rfl
@[simp] theorem State.writeCfg_primed : (s.writeCfg c).primed = s.primed := by unfold State.writeCfg; split <;> rfl
@[simp] theorem State.writeCfg_asmBusy : (s.writeCfg c).asmBusy = s.asmBusy := by unfold State.writeCfg; split <;> rfl
@[simp] theorem State.writeCfg_frameReady : (s.writeCfg c).frameReady = s.frameReady := by unfold State.writeCfg; split <;> rfl
@[simp] theorem State.writeCfg_frameOk : (s.writeCfg c).frameOk = s.frameOk := by unfold State.writeCfg; split <;> rfl
@[simp] theorem State.writeCfg_cfgValid : (s.writeCfg c).cfgValid = s.cfgValid := by unfold State.writeCfg; split <;> rfl
@[simp] theorem State.writeCfg_cfgErr : (s.writeCfg c).cfgErr = s.cfgErr := by unfold State.writeCfg; split <;> rfl
@[simp] theorem State.writeCfg_errcode : (s.writeCfg c).errcode = s.errcode := by unfold State.writeCfg; split <;> rfl
@[simp] theorem State.writeCfg_wt : (s.writeCfg c).wt = s.wt := by unfold State.writeCfg; split <;> rfl
@[simp] theorem State.writeCfg_divq : (s.writeCfg c).divq = s.divq := by unfold State.writeCfg; split <;> rfl
@[simp] theorem State.writeCfg_irqPend : (s.writeCfg c).irqPend = s.irqPend := by unfold State.writeCfg; split <;> rfl
@[simp] theorem State.writeCfg_irqEn : (s.writeCfg c).irqEn = s.irqEn := by unfold State.writeCfg; split <;> rfl
@[simp] theorem State.writeCfg_missed : (s.writeCfg c).missed = s.missed := by unfold State.writeCfg; split <;> rfl
@[simp] theorem State.writeCfg_halfcnt : (s.writeCfg c).halfcnt = s.halfcnt := by unfold State.writeCfg; split <;> rfl
@[simp] theorem State.writeCfg_frameLen : (s.writeCfg c).frameLen = s.frameLen := by unfold State.writeCfg; split <;> rfl
@[simp] theorem State.writeCfg_active : (s.writeCfg c).active = s.active := by unfold State.writeCfg; split <;> rfl
@[simp] theorem State.writeCfg_fsv : (s.writeCfg c).fsv = s.fsv := by unfold State.writeCfg; split <;> rfl
@[simp] theorem State.writeCfg_fsPrev : (s.writeCfg c).fsPrev = s.fsPrev := by unfold State.writeCfg; split <;> rfl
@[simp] theorem State.writeCfg_pos : (s.writeCfg c).pos = s.pos := by unfold State.writeCfg; split <;> rfl
@[simp] theorem State.writeCfg_widx : (s.writeCfg c).widx = s.widx := by unfold State.writeCfg; split <;> rfl
@[simp] theorem State.writeCfg_sr : (s.writeCfg c).sr = s.sr := by unfold State.writeCfg; split <;> rfl
@[simp] theorem State.writeCfg_divCnt : (s.writeCfg c).divCnt = s.divCnt := by unfold State.writeCfg; split <;> rfl
@[simp] theorem State.writeCfg_divAcc : (s.writeCfg c).divAcc = s.divAcc := by unfold State.writeCfg; split <;> rfl
@[simp] theorem State.writeCfg_bclk : (s.writeCfg c).bclk = s.bclk := by unfold State.writeCfg; split <;> rfl
@[simp] theorem State.writeCfg_rh : (s.writeCfg c).rh = s.rh := by unfold State.writeCfg; split <;> rfl
@[simp] theorem State.writeCfg_asmZero : (s.writeCfg c).asmZero = s.asmZero := by unfold State.writeCfg; split <;> rfl
@[simp] theorem State.writeCfg_asmN : (s.writeCfg c).asmN = s.asmN := by unfold State.writeCfg; split <;> rfl
@[simp] theorem State.writeCfg_cap : (s.writeCfg c).cap = s.cap := by unfold State.writeCfg; split <;> rfl
@[simp] theorem State.writeCfg_frame : (s.writeCfg c).frame = s.frame := by unfold State.writeCfg; split <;> rfl
@[simp] theorem State.writeCfg_ramEpoch : (s.writeCfg c).ramEpoch = s.ramEpoch := by unfold State.writeCfg; split <;> rfl
@[simp] theorem State.writeCfg_bus : (s.writeCfg c).bus = s.bus := by unfold State.writeCfg; split <;> rfl
@[simp] theorem State.writeCfg_serial : (s.writeCfg c).serial = s.serial := by unfold State.writeCfg; split <;> rfl
@[simp] theorem State.writeCfg_turns : (s.writeCfg c).turns = s.turns := by unfold State.writeCfg; split <;> rfl
@[simp] theorem State.writeCfg_draws : (s.writeCfg c).draws = s.draws := by unfold State.writeCfg; split <;> rfl

end

section
variable (s : State)

@[simp] theorem State.divTick_params : (s.divTick).params = s.params := by unfold State.divTick; split <;> rfl
@[simp] theorem State.divTick_cfg : (s.divTick).cfg = s.cfg := by unfold State.divTick; split <;> rfl
@[simp] theorem State.divTick_ctrl : (s.divTick).ctrl = s.ctrl := by unfold State.divTick; split <;> rfl
@[simp] theorem State.divTick_run : (s.divTick).run = s.run := by unfold State.divTick; split <;> rfl
@[simp] theorem State.divTick_synced : (s.divTick).synced = s.synced := by unfold State.divTick; split <;> rfl
@[simp] theorem State.divTick_primed : (s.divTick).primed = s.primed := by unfold State.divTick; split <;> rfl
@[simp] theorem State.divTick_asmBusy : (s.divTick).asmBusy = s.asmBusy := by unfold State.divTick; split <;> rfl
@[simp] theorem State.divTick_frameReady : (s.divTick).frameReady = s.frameReady := by unfold State.divTick; split <;> rfl
@[simp] theorem State.divTick_frameOk : (s.divTick).frameOk = s.frameOk := by unfold State.divTick; split <;> rfl
@[simp] theorem State.divTick_cfgValid : (s.divTick).cfgValid = s.cfgValid := by unfold State.divTick; split <;> rfl
@[simp] theorem State.divTick_cfgErr : (s.divTick).cfgErr = s.cfgErr := by unfold State.divTick; split <;> rfl
@[simp] theorem State.divTick_errcode : (s.divTick).errcode = s.errcode := by unfold State.divTick; split <;> rfl
@[simp] theorem State.divTick_wt : (s.divTick).wt = s.wt := by unfold State.divTick; split <;> rfl
@[simp] theorem State.divTick_divq : (s.divTick).divq = s.divq := by unfold State.divTick; split <;> rfl
@[simp] theorem State.divTick_errflags : (s.divTick).errflags = s.errflags := by unfold State.divTick; split <;> rfl
@[simp] theorem State.divTick_irqPend : (s.divTick).irqPend = s.irqPend := by unfold State.divTick; split <;> rfl
@[simp] theorem State.divTick_irqEn : (s.divTick).irqEn = s.irqEn := by unfold State.divTick; split <;> rfl
@[simp] theorem State.divTick_missed : (s.divTick).missed = s.missed := by unfold State.divTick; split <;> rfl
@[simp] theorem State.divTick_halfcnt : (s.divTick).halfcnt = s.halfcnt := by unfold State.divTick; split <;> rfl
@[simp] theorem State.divTick_frameLen : (s.divTick).frameLen = s.frameLen := by unfold State.divTick; split <;> rfl
@[simp] theorem State.divTick_active : (s.divTick).active = s.active := by unfold State.divTick; split <;> rfl
@[simp] theorem State.divTick_fsv : (s.divTick).fsv = s.fsv := by unfold State.divTick; split <;> rfl
@[simp] theorem State.divTick_fsPrev : (s.divTick).fsPrev = s.fsPrev := by unfold State.divTick; split <;> rfl
@[simp] theorem State.divTick_pos : (s.divTick).pos = s.pos := by unfold State.divTick; split <;> rfl
@[simp] theorem State.divTick_widx : (s.divTick).widx = s.widx := by unfold State.divTick; split <;> rfl
@[simp] theorem State.divTick_sr : (s.divTick).sr = s.sr := by unfold State.divTick; split <;> rfl
@[simp] theorem State.divTick_rh : (s.divTick).rh = s.rh := by unfold State.divTick; split <;> rfl
@[simp] theorem State.divTick_asmZero : (s.divTick).asmZero = s.asmZero := by unfold State.divTick; split <;> rfl
@[simp] theorem State.divTick_asmN : (s.divTick).asmN = s.asmN := by unfold State.divTick; split <;> rfl
@[simp] theorem State.divTick_cap : (s.divTick).cap = s.cap := by unfold State.divTick; split <;> rfl
@[simp] theorem State.divTick_frame : (s.divTick).frame = s.frame := by unfold State.divTick; split <;> rfl
@[simp] theorem State.divTick_resp : (s.divTick).resp = s.resp := by unfold State.divTick; split <;> rfl
@[simp] theorem State.divTick_ramEpoch : (s.divTick).ramEpoch = s.ramEpoch := by unfold State.divTick; split <;> rfl
@[simp] theorem State.divTick_bus : (s.divTick).bus = s.bus := by unfold State.divTick; split <;> rfl
@[simp] theorem State.divTick_serial : (s.divTick).serial = s.serial := by unfold State.divTick; split <;> rfl
@[simp] theorem State.divTick_turns : (s.divTick).turns = s.turns := by unfold State.divTick; split <;> rfl
@[simp] theorem State.divTick_draws : (s.divTick).draws = s.draws := by unfold State.divTick; split <;> rfl

end

section
variable (s : State)

@[simp] theorem State.toRisingEdge_params : (s.toRisingEdge).params = s.params := by unfold State.toRisingEdge; split <;> rfl
@[simp] theorem State.toRisingEdge_cfg : (s.toRisingEdge).cfg = s.cfg := by unfold State.toRisingEdge; split <;> rfl
@[simp] theorem State.toRisingEdge_ctrl : (s.toRisingEdge).ctrl = s.ctrl := by unfold State.toRisingEdge; split <;> rfl
@[simp] theorem State.toRisingEdge_run : (s.toRisingEdge).run = s.run := by unfold State.toRisingEdge; split <;> rfl
@[simp] theorem State.toRisingEdge_synced : (s.toRisingEdge).synced = s.synced := by unfold State.toRisingEdge; split <;> rfl
@[simp] theorem State.toRisingEdge_primed : (s.toRisingEdge).primed = s.primed := by unfold State.toRisingEdge; split <;> rfl
@[simp] theorem State.toRisingEdge_asmBusy : (s.toRisingEdge).asmBusy = s.asmBusy := by unfold State.toRisingEdge; split <;> rfl
@[simp] theorem State.toRisingEdge_frameReady : (s.toRisingEdge).frameReady = s.frameReady := by unfold State.toRisingEdge; split <;> rfl
@[simp] theorem State.toRisingEdge_frameOk : (s.toRisingEdge).frameOk = s.frameOk := by unfold State.toRisingEdge; split <;> rfl
@[simp] theorem State.toRisingEdge_cfgValid : (s.toRisingEdge).cfgValid = s.cfgValid := by unfold State.toRisingEdge; split <;> rfl
@[simp] theorem State.toRisingEdge_cfgErr : (s.toRisingEdge).cfgErr = s.cfgErr := by unfold State.toRisingEdge; split <;> rfl
@[simp] theorem State.toRisingEdge_errcode : (s.toRisingEdge).errcode = s.errcode := by unfold State.toRisingEdge; split <;> rfl
@[simp] theorem State.toRisingEdge_wt : (s.toRisingEdge).wt = s.wt := by unfold State.toRisingEdge; split <;> rfl
@[simp] theorem State.toRisingEdge_divq : (s.toRisingEdge).divq = s.divq := by unfold State.toRisingEdge; split <;> rfl
@[simp] theorem State.toRisingEdge_errflags : (s.toRisingEdge).errflags = s.errflags := by unfold State.toRisingEdge; split <;> rfl
@[simp] theorem State.toRisingEdge_irqPend : (s.toRisingEdge).irqPend = s.irqPend := by unfold State.toRisingEdge; split <;> rfl
@[simp] theorem State.toRisingEdge_irqEn : (s.toRisingEdge).irqEn = s.irqEn := by unfold State.toRisingEdge; split <;> rfl
@[simp] theorem State.toRisingEdge_missed : (s.toRisingEdge).missed = s.missed := by unfold State.toRisingEdge; split <;> rfl
@[simp] theorem State.toRisingEdge_halfcnt : (s.toRisingEdge).halfcnt = s.halfcnt := by unfold State.toRisingEdge; split <;> rfl
@[simp] theorem State.toRisingEdge_frameLen : (s.toRisingEdge).frameLen = s.frameLen := by unfold State.toRisingEdge; split <;> rfl
@[simp] theorem State.toRisingEdge_active : (s.toRisingEdge).active = s.active := by unfold State.toRisingEdge; split <;> rfl
@[simp] theorem State.toRisingEdge_fsv : (s.toRisingEdge).fsv = s.fsv := by unfold State.toRisingEdge; split <;> rfl
@[simp] theorem State.toRisingEdge_fsPrev : (s.toRisingEdge).fsPrev = s.fsPrev := by unfold State.toRisingEdge; split <;> rfl
@[simp] theorem State.toRisingEdge_pos : (s.toRisingEdge).pos = s.pos := by unfold State.toRisingEdge; split <;> rfl
@[simp] theorem State.toRisingEdge_widx : (s.toRisingEdge).widx = s.widx := by unfold State.toRisingEdge; split <;> rfl
@[simp] theorem State.toRisingEdge_sr : (s.toRisingEdge).sr = s.sr := by unfold State.toRisingEdge; split <;> rfl
@[simp] theorem State.toRisingEdge_rh : (s.toRisingEdge).rh = s.rh := by unfold State.toRisingEdge; split <;> rfl
@[simp] theorem State.toRisingEdge_asmZero : (s.toRisingEdge).asmZero = s.asmZero := by unfold State.toRisingEdge; split <;> rfl
@[simp] theorem State.toRisingEdge_asmN : (s.toRisingEdge).asmN = s.asmN := by unfold State.toRisingEdge; split <;> rfl
@[simp] theorem State.toRisingEdge_cap : (s.toRisingEdge).cap = s.cap := by unfold State.toRisingEdge; split <;> rfl
@[simp] theorem State.toRisingEdge_frame : (s.toRisingEdge).frame = s.frame := by unfold State.toRisingEdge; split <;> rfl
@[simp] theorem State.toRisingEdge_resp : (s.toRisingEdge).resp = s.resp := by unfold State.toRisingEdge; split <;> rfl
@[simp] theorem State.toRisingEdge_ramEpoch : (s.toRisingEdge).ramEpoch = s.ramEpoch := by unfold State.toRisingEdge; split <;> rfl
@[simp] theorem State.toRisingEdge_bus : (s.toRisingEdge).bus = s.bus := by unfold State.toRisingEdge; split <;> rfl
@[simp] theorem State.toRisingEdge_serial : (s.toRisingEdge).serial = s.serial := by unfold State.toRisingEdge; split <;> rfl
@[simp] theorem State.toRisingEdge_turns : (s.toRisingEdge).turns = s.turns := by unfold State.toRisingEdge; split <;> rfl
@[simp] theorem State.toRisingEdge_draws : (s.toRisingEdge).draws = s.draws := by unfold State.toRisingEdge; split <;> rfl

end

section
variable (s : State)

@[simp] theorem State.tearCheck_params : (s.tearCheck).params = s.params := by unfold State.tearCheck; split <;> rfl
@[simp] theorem State.tearCheck_cfg : (s.tearCheck).cfg = s.cfg := by unfold State.tearCheck; split <;> rfl
@[simp] theorem State.tearCheck_ctrl : (s.tearCheck).ctrl = s.ctrl := by unfold State.tearCheck; split <;> rfl
@[simp] theorem State.tearCheck_run : (s.tearCheck).run = s.run := by unfold State.tearCheck; split <;> rfl
@[simp] theorem State.tearCheck_synced : (s.tearCheck).synced = s.synced := by unfold State.tearCheck; split <;> rfl
@[simp] theorem State.tearCheck_primed : (s.tearCheck).primed = s.primed := by unfold State.tearCheck; split <;> rfl
@[simp] theorem State.tearCheck_asmBusy : (s.tearCheck).asmBusy = s.asmBusy := by unfold State.tearCheck; split <;> rfl
@[simp] theorem State.tearCheck_frameReady : (s.tearCheck).frameReady = s.frameReady := by unfold State.tearCheck; split <;> rfl
@[simp] theorem State.tearCheck_frameOk : (s.tearCheck).frameOk = s.frameOk := by unfold State.tearCheck; split <;> rfl
@[simp] theorem State.tearCheck_cfgValid : (s.tearCheck).cfgValid = s.cfgValid := by unfold State.tearCheck; split <;> rfl
@[simp] theorem State.tearCheck_cfgErr : (s.tearCheck).cfgErr = s.cfgErr := by unfold State.tearCheck; split <;> rfl
@[simp] theorem State.tearCheck_errcode : (s.tearCheck).errcode = s.errcode := by unfold State.tearCheck; split <;> rfl
@[simp] theorem State.tearCheck_wt : (s.tearCheck).wt = s.wt := by unfold State.tearCheck; split <;> rfl
@[simp] theorem State.tearCheck_divq : (s.tearCheck).divq = s.divq := by unfold State.tearCheck; split <;> rfl
@[simp] theorem State.tearCheck_irqPend : (s.tearCheck).irqPend = s.irqPend := by unfold State.tearCheck; split <;> rfl
@[simp] theorem State.tearCheck_irqEn : (s.tearCheck).irqEn = s.irqEn := by unfold State.tearCheck; split <;> rfl
@[simp] theorem State.tearCheck_missed : (s.tearCheck).missed = s.missed := by unfold State.tearCheck; split <;> rfl
@[simp] theorem State.tearCheck_halfcnt : (s.tearCheck).halfcnt = s.halfcnt := by unfold State.tearCheck; split <;> rfl
@[simp] theorem State.tearCheck_frameLen : (s.tearCheck).frameLen = s.frameLen := by unfold State.tearCheck; split <;> rfl
@[simp] theorem State.tearCheck_active : (s.tearCheck).active = s.active := by unfold State.tearCheck; split <;> rfl
@[simp] theorem State.tearCheck_fsv : (s.tearCheck).fsv = s.fsv := by unfold State.tearCheck; split <;> rfl
@[simp] theorem State.tearCheck_fsPrev : (s.tearCheck).fsPrev = s.fsPrev := by unfold State.tearCheck; split <;> rfl
@[simp] theorem State.tearCheck_pos : (s.tearCheck).pos = s.pos := by unfold State.tearCheck; split <;> rfl
@[simp] theorem State.tearCheck_widx : (s.tearCheck).widx = s.widx := by unfold State.tearCheck; split <;> rfl
@[simp] theorem State.tearCheck_sr : (s.tearCheck).sr = s.sr := by unfold State.tearCheck; split <;> rfl
@[simp] theorem State.tearCheck_divCnt : (s.tearCheck).divCnt = s.divCnt := by unfold State.tearCheck; split <;> rfl
@[simp] theorem State.tearCheck_divAcc : (s.tearCheck).divAcc = s.divAcc := by unfold State.tearCheck; split <;> rfl
@[simp] theorem State.tearCheck_bclk : (s.tearCheck).bclk = s.bclk := by unfold State.tearCheck; split <;> rfl
@[simp] theorem State.tearCheck_rh : (s.tearCheck).rh = s.rh := by unfold State.tearCheck; split <;> rfl
@[simp] theorem State.tearCheck_asmZero : (s.tearCheck).asmZero = s.asmZero := by unfold State.tearCheck; split <;> rfl
@[simp] theorem State.tearCheck_asmN : (s.tearCheck).asmN = s.asmN := by unfold State.tearCheck; split <;> rfl
@[simp] theorem State.tearCheck_cap : (s.tearCheck).cap = s.cap := by unfold State.tearCheck; split <;> rfl
@[simp] theorem State.tearCheck_frame : (s.tearCheck).frame = s.frame := by unfold State.tearCheck; split <;> rfl
@[simp] theorem State.tearCheck_resp : (s.tearCheck).resp = s.resp := by unfold State.tearCheck; split <;> rfl
@[simp] theorem State.tearCheck_ramEpoch : (s.tearCheck).ramEpoch = s.ramEpoch := by unfold State.tearCheck; split <;> rfl
@[simp] theorem State.tearCheck_bus : (s.tearCheck).bus = s.bus := by unfold State.tearCheck; split <;> rfl
@[simp] theorem State.tearCheck_serial : (s.tearCheck).serial = s.serial := by unfold State.tearCheck; split <;> rfl
@[simp] theorem State.tearCheck_turns : (s.tearCheck).turns = s.turns := by unfold State.tearCheck; split <;> rfl
@[simp] theorem State.tearCheck_draws : (s.tearCheck).draws = s.draws := by unfold State.tearCheck; split <;> rfl

end

section
variable (s : State)

@[simp] theorem State.handoff_params : (s.handoff).params = s.params := by unfold State.handoff; dsimp only; split <;> rfl
@[simp] theorem State.handoff_cfg : (s.handoff).cfg = s.cfg := by unfold State.handoff; dsimp only; split <;> rfl
@[simp] theorem State.handoff_ctrl : (s.handoff).ctrl = s.ctrl := by unfold State.handoff; dsimp only; split <;> rfl
@[simp] theorem State.handoff_run : (s.handoff).run = s.run := by unfold State.handoff; dsimp only; split <;> rfl
@[simp] theorem State.handoff_synced : (s.handoff).synced = s.synced := by unfold State.handoff; dsimp only; split <;> rfl
@[simp] theorem State.handoff_primed : (s.handoff).primed = s.primed := by unfold State.handoff; dsimp only; split <;> rfl
@[simp] theorem State.handoff_asmBusy : (s.handoff).asmBusy = s.asmBusy := by unfold State.handoff; dsimp only; split <;> rfl
@[simp] theorem State.handoff_frameReady : (s.handoff).frameReady = s.frameReady := by unfold State.handoff; dsimp only; split <;> rfl
@[simp] theorem State.handoff_frameOk : (s.handoff).frameOk = s.frameOk := by unfold State.handoff; dsimp only; split <;> rfl
@[simp] theorem State.handoff_cfgValid : (s.handoff).cfgValid = s.cfgValid := by unfold State.handoff; dsimp only; split <;> rfl
@[simp] theorem State.handoff_cfgErr : (s.handoff).cfgErr = s.cfgErr := by unfold State.handoff; dsimp only; split <;> rfl
@[simp] theorem State.handoff_errcode : (s.handoff).errcode = s.errcode := by unfold State.handoff; dsimp only; split <;> rfl
@[simp] theorem State.handoff_wt : (s.handoff).wt = s.wt := by unfold State.handoff; dsimp only; split <;> rfl
@[simp] theorem State.handoff_divq : (s.handoff).divq = s.divq := by unfold State.handoff; dsimp only; split <;> rfl
@[simp] theorem State.handoff_irqEn : (s.handoff).irqEn = s.irqEn := by unfold State.handoff; dsimp only; split <;> rfl
@[simp] theorem State.handoff_halfcnt : (s.handoff).halfcnt = s.halfcnt := by unfold State.handoff; dsimp only; split <;> rfl
@[simp] theorem State.handoff_frameLen : (s.handoff).frameLen = s.frameLen := by unfold State.handoff; dsimp only; split <;> rfl
@[simp] theorem State.handoff_active : (s.handoff).active = s.active := by unfold State.handoff; dsimp only; split <;> rfl
@[simp] theorem State.handoff_fsv : (s.handoff).fsv = s.fsv := by unfold State.handoff; dsimp only; split <;> rfl
@[simp] theorem State.handoff_fsPrev : (s.handoff).fsPrev = s.fsPrev := by unfold State.handoff; dsimp only; split <;> rfl
@[simp] theorem State.handoff_pos : (s.handoff).pos = s.pos := by unfold State.handoff; dsimp only; split <;> rfl
@[simp] theorem State.handoff_widx : (s.handoff).widx = s.widx := by unfold State.handoff; dsimp only; split <;> rfl
@[simp] theorem State.handoff_sr : (s.handoff).sr = s.sr := by unfold State.handoff; dsimp only; split <;> rfl
@[simp] theorem State.handoff_divCnt : (s.handoff).divCnt = s.divCnt := by unfold State.handoff; dsimp only; split <;> rfl
@[simp] theorem State.handoff_divAcc : (s.handoff).divAcc = s.divAcc := by unfold State.handoff; dsimp only; split <;> rfl
@[simp] theorem State.handoff_bclk : (s.handoff).bclk = s.bclk := by unfold State.handoff; dsimp only; split <;> rfl
@[simp] theorem State.handoff_rh : (s.handoff).rh = s.rh := by unfold State.handoff; dsimp only; split <;> rfl
@[simp] theorem State.handoff_asmZero : (s.handoff).asmZero = s.asmZero := by unfold State.handoff; dsimp only; split <;> rfl
@[simp] theorem State.handoff_asmN : (s.handoff).asmN = s.asmN := by unfold State.handoff; dsimp only; split <;> rfl
@[simp] theorem State.handoff_cap : (s.handoff).cap = s.cap := by unfold State.handoff; dsimp only; split <;> rfl
@[simp] theorem State.handoff_frame : (s.handoff).frame = s.frame := by unfold State.handoff; dsimp only; split <;> rfl
@[simp] theorem State.handoff_resp : (s.handoff).resp = s.resp := by unfold State.handoff; dsimp only; split <;> rfl
@[simp] theorem State.handoff_ramEpoch : (s.handoff).ramEpoch = s.ramEpoch := by unfold State.handoff; dsimp only; split <;> rfl
@[simp] theorem State.handoff_bus : (s.handoff).bus = s.bus := by unfold State.handoff; dsimp only; split <;> rfl
@[simp] theorem State.handoff_serial : (s.handoff).serial = s.serial := by unfold State.handoff; dsimp only; split <;> rfl
@[simp] theorem State.handoff_turns : (s.handoff).turns = s.turns := by unfold State.handoff; dsimp only; split <;> rfl
@[simp] theorem State.handoff_draws : (s.handoff).draws = s.draws := by unfold State.handoff; dsimp only; split <;> rfl

end

section
variable (s : State)

@[simp] theorem State.completionEvent_params : (s.completionEvent).params = s.params := by simp [State.completionEvent]
@[simp] theorem State.completionEvent_cfg : (s.completionEvent).cfg = s.cfg := by simp [State.completionEvent]
@[simp] theorem State.completionEvent_ctrl : (s.completionEvent).ctrl = s.ctrl := by simp [State.completionEvent]
@[simp] theorem State.completionEvent_run : (s.completionEvent).run = s.run := by simp [State.completionEvent]
@[simp] theorem State.completionEvent_synced : (s.completionEvent).synced = s.synced := by simp [State.completionEvent]
@[simp] theorem State.completionEvent_asmBusy : (s.completionEvent).asmBusy = s.asmBusy := by simp [State.completionEvent]
@[simp] theorem State.completionEvent_frameReady : (s.completionEvent).frameReady = s.frameReady := by simp [State.completionEvent]
@[simp] theorem State.completionEvent_frameOk : (s.completionEvent).frameOk = s.frameOk := by simp [State.completionEvent]
@[simp] theorem State.completionEvent_cfgValid : (s.completionEvent).cfgValid = s.cfgValid := by simp [State.completionEvent]
@[simp] theorem State.completionEvent_cfgErr : (s.completionEvent).cfgErr = s.cfgErr := by simp [State.completionEvent]
@[simp] theorem State.completionEvent_errcode : (s.completionEvent).errcode = s.errcode := by simp [State.completionEvent]
@[simp] theorem State.completionEvent_divq : (s.completionEvent).divq = s.divq := by simp [State.completionEvent]
@[simp] theorem State.completionEvent_irqEn : (s.completionEvent).irqEn = s.irqEn := by simp [State.completionEvent]
@[simp] theorem State.completionEvent_frameLen : (s.completionEvent).frameLen = s.frameLen := by simp [State.completionEvent]
@[simp] theorem State.completionEvent_active : (s.completionEvent).active = s.active := by simp [State.completionEvent]
@[simp] theorem State.completionEvent_fsv : (s.completionEvent).fsv = s.fsv := by simp [State.completionEvent]
@[simp] theorem State.completionEvent_fsPrev : (s.completionEvent).fsPrev = s.fsPrev := by simp [State.completionEvent]
@[simp] theorem State.completionEvent_pos : (s.completionEvent).pos = s.pos := by simp [State.completionEvent]
@[simp] theorem State.completionEvent_sr : (s.completionEvent).sr = s.sr := by simp [State.completionEvent]
@[simp] theorem State.completionEvent_divCnt : (s.completionEvent).divCnt = s.divCnt := by simp [State.completionEvent]
@[simp] theorem State.completionEvent_divAcc : (s.completionEvent).divAcc = s.divAcc := by simp [State.completionEvent]
@[simp] theorem State.completionEvent_bclk : (s.completionEvent).bclk = s.bclk := by simp [State.completionEvent]
@[simp] theorem State.completionEvent_rh : (s.completionEvent).rh = s.rh := by simp [State.completionEvent]
@[simp] theorem State.completionEvent_asmZero : (s.completionEvent).asmZero = s.asmZero := by simp [State.completionEvent]
@[simp] theorem State.completionEvent_asmN : (s.completionEvent).asmN = s.asmN := by simp [State.completionEvent]
@[simp] theorem State.completionEvent_cap : (s.completionEvent).cap = s.cap := by simp [State.completionEvent]
@[simp] theorem State.completionEvent_frame : (s.completionEvent).frame = s.frame := by simp [State.completionEvent]
@[simp] theorem State.completionEvent_resp : (s.completionEvent).resp = s.resp := by simp [State.completionEvent]
@[simp] theorem State.completionEvent_ramEpoch : (s.completionEvent).ramEpoch = s.ramEpoch := by simp [State.completionEvent]
@[simp] theorem State.completionEvent_bus : (s.completionEvent).bus = s.bus := by simp [State.completionEvent]
@[simp] theorem State.completionEvent_serial : (s.completionEvent).serial = s.serial := by simp [State.completionEvent]
@[simp] theorem State.completionEvent_turns : (s.completionEvent).turns = s.turns := by simp [State.completionEvent]
@[simp] theorem State.completionEvent_draws : (s.completionEvent).draws = s.draws := by simp [State.completionEvent]
@[simp] theorem State.completionEvent_wt : s.completionEvent.wt = s.wt ^^^ s.activeLines := by simp [State.completionEvent]
@[simp] theorem State.completionEvent_widx : s.completionEvent.widx = 0 := by simp [State.completionEvent]
@[simp] theorem State.completionEvent_primed : s.completionEvent.primed = true := by simp [State.completionEvent]
@[simp] theorem State.completionEvent_halfcnt : s.completionEvent.halfcnt = s.halfcnt + 1 := by simp [State.completionEvent]

end

section
variable (s : State)

@[simp] theorem State.asmAdvance_params : (s.asmAdvance).params = s.params := by unfold State.asmAdvance; split <;> rfl
@[simp] theorem State.asmAdvance_cfg : (s.asmAdvance).cfg = s.cfg := by unfold State.asmAdvance; split <;> rfl
@[simp] theorem State.asmAdvance_ctrl : (s.asmAdvance).ctrl = s.ctrl := by unfold State.asmAdvance; split <;> rfl
@[simp] theorem State.asmAdvance_run : (s.asmAdvance).run = s.run := by unfold State.asmAdvance; split <;> rfl
@[simp] theorem State.asmAdvance_synced : (s.asmAdvance).synced = s.synced := by unfold State.asmAdvance; split <;> rfl
@[simp] theorem State.asmAdvance_primed : (s.asmAdvance).primed = s.primed := by unfold State.asmAdvance; split <;> rfl
@[simp] theorem State.asmAdvance_cfgValid : (s.asmAdvance).cfgValid = s.cfgValid := by unfold State.asmAdvance; split <;> rfl
@[simp] theorem State.asmAdvance_cfgErr : (s.asmAdvance).cfgErr = s.cfgErr := by unfold State.asmAdvance; split <;> rfl
@[simp] theorem State.asmAdvance_errcode : (s.asmAdvance).errcode = s.errcode := by unfold State.asmAdvance; split <;> rfl
@[simp] theorem State.asmAdvance_wt : (s.asmAdvance).wt = s.wt := by unfold State.asmAdvance; split <;> rfl
@[simp] theorem State.asmAdvance_divq : (s.asmAdvance).divq = s.divq := by unfold State.asmAdvance; split <;> rfl
@[simp] theorem State.asmAdvance_errflags : (s.asmAdvance).errflags = s.errflags := by unfold State.asmAdvance; split <;> rfl
@[simp] theorem State.asmAdvance_irqEn : (s.asmAdvance).irqEn = s.irqEn := by unfold State.asmAdvance; split <;> rfl
@[simp] theorem State.asmAdvance_missed : (s.asmAdvance).missed = s.missed := by unfold State.asmAdvance; split <;> rfl
@[simp] theorem State.asmAdvance_halfcnt : (s.asmAdvance).halfcnt = s.halfcnt := by unfold State.asmAdvance; split <;> rfl
@[simp] theorem State.asmAdvance_active : (s.asmAdvance).active = s.active := by unfold State.asmAdvance; split <;> rfl
@[simp] theorem State.asmAdvance_fsv : (s.asmAdvance).fsv = s.fsv := by unfold State.asmAdvance; split <;> rfl
@[simp] theorem State.asmAdvance_fsPrev : (s.asmAdvance).fsPrev = s.fsPrev := by unfold State.asmAdvance; split <;> rfl
@[simp] theorem State.asmAdvance_pos : (s.asmAdvance).pos = s.pos := by unfold State.asmAdvance; split <;> rfl
@[simp] theorem State.asmAdvance_widx : (s.asmAdvance).widx = s.widx := by unfold State.asmAdvance; split <;> rfl
@[simp] theorem State.asmAdvance_sr : (s.asmAdvance).sr = s.sr := by unfold State.asmAdvance; split <;> rfl
@[simp] theorem State.asmAdvance_divCnt : (s.asmAdvance).divCnt = s.divCnt := by unfold State.asmAdvance; split <;> rfl
@[simp] theorem State.asmAdvance_divAcc : (s.asmAdvance).divAcc = s.divAcc := by unfold State.asmAdvance; split <;> rfl
@[simp] theorem State.asmAdvance_bclk : (s.asmAdvance).bclk = s.bclk := by unfold State.asmAdvance; split <;> rfl
@[simp] theorem State.asmAdvance_rh : (s.asmAdvance).rh = s.rh := by unfold State.asmAdvance; split <;> rfl
@[simp] theorem State.asmAdvance_asmZero : (s.asmAdvance).asmZero = s.asmZero := by unfold State.asmAdvance; split <;> rfl
@[simp] theorem State.asmAdvance_cap : (s.asmAdvance).cap = s.cap := by unfold State.asmAdvance; split <;> rfl
@[simp] theorem State.asmAdvance_frame : (s.asmAdvance).frame = s.frame := by unfold State.asmAdvance; split <;> rfl
@[simp] theorem State.asmAdvance_resp : (s.asmAdvance).resp = s.resp := by unfold State.asmAdvance; split <;> rfl
@[simp] theorem State.asmAdvance_ramEpoch : (s.asmAdvance).ramEpoch = s.ramEpoch := by unfold State.asmAdvance; split <;> rfl
@[simp] theorem State.asmAdvance_bus : (s.asmAdvance).bus = s.bus := by unfold State.asmAdvance; split <;> rfl
@[simp] theorem State.asmAdvance_serial : (s.asmAdvance).serial = s.serial := by unfold State.asmAdvance; split <;> rfl
@[simp] theorem State.asmAdvance_turns : (s.asmAdvance).turns = s.turns := by unfold State.asmAdvance; split <;> rfl
@[simp] theorem State.asmAdvance_draws : (s.asmAdvance).draws = s.draws := by unfold State.asmAdvance; split <;> rfl

end

section
variable (s : State)

@[simp] theorem State.sampled_params : (s.sampled).params = s.params := by unfold State.sampled; split <;> rfl
@[simp] theorem State.sampled_cfg : (s.sampled).cfg = s.cfg := by unfold State.sampled; split <;> rfl
@[simp] theorem State.sampled_ctrl : (s.sampled).ctrl = s.ctrl := by unfold State.sampled; split <;> rfl
@[simp] theorem State.sampled_run : (s.sampled).run = s.run := by unfold State.sampled; split <;> rfl
@[simp] theorem State.sampled_synced : (s.sampled).synced = s.synced := by unfold State.sampled; split <;> rfl
@[simp] theorem State.sampled_primed : (s.sampled).primed = s.primed := by unfold State.sampled; split <;> rfl
@[simp] theorem State.sampled_asmBusy : (s.sampled).asmBusy = s.asmBusy := by unfold State.sampled; split <;> rfl
@[simp] theorem State.sampled_frameReady : (s.sampled).frameReady = s.frameReady := by unfold State.sampled; split <;> rfl
@[simp] theorem State.sampled_frameOk : (s.sampled).frameOk = s.frameOk := by unfold State.sampled; split <;> rfl
@[simp] theorem State.sampled_cfgValid : (s.sampled).cfgValid = s.cfgValid := by unfold State.sampled; split <;> rfl
@[simp] theorem State.sampled_cfgErr : (s.sampled).cfgErr = s.cfgErr := by unfold State.sampled; split <;> rfl
@[simp] theorem State.sampled_errcode : (s.sampled).errcode = s.errcode := by unfold State.sampled; split <;> rfl
@[simp] theorem State.sampled_wt : (s.sampled).wt = s.wt := by unfold State.sampled; split <;> rfl
@[simp] theorem State.sampled_divq : (s.sampled).divq = s.divq := by unfold State.sampled; split <;> rfl
@[simp] theorem State.sampled_errflags : (s.sampled).errflags = s.errflags := by unfold State.sampled; split <;> rfl
@[simp] theorem State.sampled_irqPend : (s.sampled).irqPend = s.irqPend := by unfold State.sampled; split <;> rfl
@[simp] theorem State.sampled_irqEn : (s.sampled).irqEn = s.irqEn := by unfold State.sampled; split <;> rfl
@[simp] theorem State.sampled_missed : (s.sampled).missed = s.missed := by unfold State.sampled; split <;> rfl
@[simp] theorem State.sampled_halfcnt : (s.sampled).halfcnt = s.halfcnt := by unfold State.sampled; split <;> rfl
@[simp] theorem State.sampled_frameLen : (s.sampled).frameLen = s.frameLen := by unfold State.sampled; split <;> rfl
@[simp] theorem State.sampled_active : (s.sampled).active = s.active := by unfold State.sampled; split <;> rfl
@[simp] theorem State.sampled_fsv : (s.sampled).fsv = s.fsv := by unfold State.sampled; split <;> rfl
@[simp] theorem State.sampled_fsPrev : (s.sampled).fsPrev = s.fsPrev := by unfold State.sampled; split <;> rfl
@[simp] theorem State.sampled_pos : (s.sampled).pos = s.pos := by unfold State.sampled; split <;> rfl
@[simp] theorem State.sampled_widx : (s.sampled).widx = s.widx := by unfold State.sampled; split <;> rfl
@[simp] theorem State.sampled_sr : (s.sampled).sr = s.sr := by unfold State.sampled; split <;> rfl
@[simp] theorem State.sampled_divCnt : (s.sampled).divCnt = s.divCnt := by unfold State.sampled; split <;> rfl
@[simp] theorem State.sampled_divAcc : (s.sampled).divAcc = s.divAcc := by unfold State.sampled; split <;> rfl
@[simp] theorem State.sampled_bclk : (s.sampled).bclk = s.bclk := by unfold State.sampled; split <;> rfl
@[simp] theorem State.sampled_rh : (s.sampled).rh = s.rh := by unfold State.sampled; split <;> rfl
@[simp] theorem State.sampled_asmZero : (s.sampled).asmZero = s.asmZero := by unfold State.sampled; split <;> rfl
@[simp] theorem State.sampled_asmN : (s.sampled).asmN = s.asmN := by unfold State.sampled; split <;> rfl
@[simp] theorem State.sampled_cap : (s.sampled).cap = s.cap := by unfold State.sampled; split <;> rfl
@[simp] theorem State.sampled_frame : (s.sampled).frame = s.frame := by unfold State.sampled; split <;> rfl
@[simp] theorem State.sampled_resp : (s.sampled).resp = s.resp := by unfold State.sampled; split <;> rfl
@[simp] theorem State.sampled_ramEpoch : (s.sampled).ramEpoch = s.ramEpoch := by unfold State.sampled; split <;> rfl
@[simp] theorem State.sampled_bus : (s.sampled).bus = s.bus := by unfold State.sampled; split <;> rfl
@[simp] theorem State.sampled_turns : (s.sampled).turns = s.turns := by unfold State.sampled; split <;> rfl

end

section
variable (s : State)

@[simp] theorem State.turnTaken_params : (s.turnTaken).params = s.params := by unfold State.turnTaken; split <;> rfl
@[simp] theorem State.turnTaken_cfg : (s.turnTaken).cfg = s.cfg := by unfold State.turnTaken; split <;> rfl
@[simp] theorem State.turnTaken_ctrl : (s.turnTaken).ctrl = s.ctrl := by unfold State.turnTaken; split <;> rfl
@[simp] theorem State.turnTaken_run : (s.turnTaken).run = s.run := by unfold State.turnTaken; split <;> rfl
@[simp] theorem State.turnTaken_synced : (s.turnTaken).synced = s.synced := by unfold State.turnTaken; split <;> rfl
@[simp] theorem State.turnTaken_primed : (s.turnTaken).primed = s.primed := by unfold State.turnTaken; split <;> rfl
@[simp] theorem State.turnTaken_asmBusy : (s.turnTaken).asmBusy = s.asmBusy := by unfold State.turnTaken; split <;> rfl
@[simp] theorem State.turnTaken_frameReady : (s.turnTaken).frameReady = s.frameReady := by unfold State.turnTaken; split <;> rfl
@[simp] theorem State.turnTaken_frameOk : (s.turnTaken).frameOk = s.frameOk := by unfold State.turnTaken; split <;> rfl
@[simp] theorem State.turnTaken_cfgValid : (s.turnTaken).cfgValid = s.cfgValid := by unfold State.turnTaken; split <;> rfl
@[simp] theorem State.turnTaken_cfgErr : (s.turnTaken).cfgErr = s.cfgErr := by unfold State.turnTaken; split <;> rfl
@[simp] theorem State.turnTaken_errcode : (s.turnTaken).errcode = s.errcode := by unfold State.turnTaken; split <;> rfl
@[simp] theorem State.turnTaken_wt : (s.turnTaken).wt = s.wt := by unfold State.turnTaken; split <;> rfl
@[simp] theorem State.turnTaken_divq : (s.turnTaken).divq = s.divq := by unfold State.turnTaken; split <;> rfl
@[simp] theorem State.turnTaken_errflags : (s.turnTaken).errflags = s.errflags := by unfold State.turnTaken; split <;> rfl
@[simp] theorem State.turnTaken_irqPend : (s.turnTaken).irqPend = s.irqPend := by unfold State.turnTaken; split <;> rfl
@[simp] theorem State.turnTaken_irqEn : (s.turnTaken).irqEn = s.irqEn := by unfold State.turnTaken; split <;> rfl
@[simp] theorem State.turnTaken_missed : (s.turnTaken).missed = s.missed := by unfold State.turnTaken; split <;> rfl
@[simp] theorem State.turnTaken_halfcnt : (s.turnTaken).halfcnt = s.halfcnt := by unfold State.turnTaken; split <;> rfl
@[simp] theorem State.turnTaken_frameLen : (s.turnTaken).frameLen = s.frameLen := by unfold State.turnTaken; split <;> rfl
@[simp] theorem State.turnTaken_active : (s.turnTaken).active = s.active := by unfold State.turnTaken; split <;> rfl
@[simp] theorem State.turnTaken_fsv : (s.turnTaken).fsv = s.fsv := by unfold State.turnTaken; split <;> rfl
@[simp] theorem State.turnTaken_fsPrev : (s.turnTaken).fsPrev = s.fsPrev := by unfold State.turnTaken; split <;> rfl
@[simp] theorem State.turnTaken_pos : (s.turnTaken).pos = s.pos := by unfold State.turnTaken; split <;> rfl
@[simp] theorem State.turnTaken_widx : (s.turnTaken).widx = s.widx := by unfold State.turnTaken; split <;> rfl
@[simp] theorem State.turnTaken_sr : (s.turnTaken).sr = s.sr := by unfold State.turnTaken; split <;> rfl
@[simp] theorem State.turnTaken_divCnt : (s.turnTaken).divCnt = s.divCnt := by unfold State.turnTaken; split <;> rfl
@[simp] theorem State.turnTaken_divAcc : (s.turnTaken).divAcc = s.divAcc := by unfold State.turnTaken; split <;> rfl
@[simp] theorem State.turnTaken_bclk : (s.turnTaken).bclk = s.bclk := by unfold State.turnTaken; split <;> rfl
@[simp] theorem State.turnTaken_rh : (s.turnTaken).rh = s.rh := by unfold State.turnTaken; split <;> rfl
@[simp] theorem State.turnTaken_asmZero : (s.turnTaken).asmZero = s.asmZero := by unfold State.turnTaken; split <;> rfl
@[simp] theorem State.turnTaken_asmN : (s.turnTaken).asmN = s.asmN := by unfold State.turnTaken; split <;> rfl
@[simp] theorem State.turnTaken_cap : (s.turnTaken).cap = s.cap := by unfold State.turnTaken; split <;> rfl
@[simp] theorem State.turnTaken_frame : (s.turnTaken).frame = s.frame := by unfold State.turnTaken; split <;> rfl
@[simp] theorem State.turnTaken_resp : (s.turnTaken).resp = s.resp := by unfold State.turnTaken; split <;> rfl
@[simp] theorem State.turnTaken_ramEpoch : (s.turnTaken).ramEpoch = s.ramEpoch := by unfold State.turnTaken; split <;> rfl
@[simp] theorem State.turnTaken_bus : (s.turnTaken).bus = s.bus := by unfold State.turnTaken; split <;> rfl
@[simp] theorem State.turnTaken_serial : (s.turnTaken).serial = s.serial := by unfold State.turnTaken; split <;> rfl

end

section
variable (n : Nat) (s : State)

@[simp] theorem State.storeLanes_params : (State.storeLanes n s).params = s.params := by
  induction n with
  | zero => rfl
  | succ n ih => exact ih
@[simp] theorem State.storeLanes_cfg : (State.storeLanes n s).cfg = s.cfg := by
  induction n with
  | zero => rfl
  | succ n ih => exact ih
@[simp] theorem State.storeLanes_ctrl : (State.storeLanes n s).ctrl = s.ctrl := by
  induction n with
  | zero => rfl
  | succ n ih => exact ih
@[simp] theorem State.storeLanes_run : (State.storeLanes n s).run = s.run := by
  induction n with
  | zero => rfl
  | succ n ih => exact ih
@[simp] theorem State.storeLanes_synced : (State.storeLanes n s).synced = s.synced := by
  induction n with
  | zero => rfl
  | succ n ih => exact ih
@[simp] theorem State.storeLanes_primed : (State.storeLanes n s).primed = s.primed := by
  induction n with
  | zero => rfl
  | succ n ih => exact ih
@[simp] theorem State.storeLanes_asmBusy : (State.storeLanes n s).asmBusy = s.asmBusy := by
  induction n with
  | zero => rfl
  | succ n ih => exact ih
@[simp] theorem State.storeLanes_frameReady : (State.storeLanes n s).frameReady = s.frameReady := by
  induction n with
  | zero => rfl
  | succ n ih => exact ih
@[simp] theorem State.storeLanes_frameOk : (State.storeLanes n s).frameOk = s.frameOk := by
  induction n with
  | zero => rfl
  | succ n ih => exact ih
@[simp] theorem State.storeLanes_cfgValid : (State.storeLanes n s).cfgValid = s.cfgValid := by
  induction n with
  | zero => rfl
  | succ n ih => exact ih
@[simp] theorem State.storeLanes_cfgErr : (State.storeLanes n s).cfgErr = s.cfgErr := by
  induction n with
  | zero => rfl
  | succ n ih => exact ih
@[simp] theorem State.storeLanes_errcode : (State.storeLanes n s).errcode = s.errcode := by
  induction n with
  | zero => rfl
  | succ n ih => exact ih
@[simp] theorem State.storeLanes_wt : (State.storeLanes n s).wt = s.wt := by
  induction n with
  | zero => rfl
  | succ n ih => exact ih
@[simp] theorem State.storeLanes_divq : (State.storeLanes n s).divq = s.divq := by
  induction n with
  | zero => rfl
  | succ n ih => exact ih
@[simp] theorem State.storeLanes_errflags : (State.storeLanes n s).errflags = s.errflags := by
  induction n with
  | zero => rfl
  | succ n ih => exact ih
@[simp] theorem State.storeLanes_irqPend : (State.storeLanes n s).irqPend = s.irqPend := by
  induction n with
  | zero => rfl
  | succ n ih => exact ih
@[simp] theorem State.storeLanes_irqEn : (State.storeLanes n s).irqEn = s.irqEn := by
  induction n with
  | zero => rfl
  | succ n ih => exact ih
@[simp] theorem State.storeLanes_missed : (State.storeLanes n s).missed = s.missed := by
  induction n with
  | zero => rfl
  | succ n ih => exact ih
@[simp] theorem State.storeLanes_halfcnt : (State.storeLanes n s).halfcnt = s.halfcnt := by
  induction n with
  | zero => rfl
  | succ n ih => exact ih
@[simp] theorem State.storeLanes_frameLen : (State.storeLanes n s).frameLen = s.frameLen := by
  induction n with
  | zero => rfl
  | succ n ih => exact ih
@[simp] theorem State.storeLanes_active : (State.storeLanes n s).active = s.active := by
  induction n with
  | zero => rfl
  | succ n ih => exact ih
@[simp] theorem State.storeLanes_fsv : (State.storeLanes n s).fsv = s.fsv := by
  induction n with
  | zero => rfl
  | succ n ih => exact ih
@[simp] theorem State.storeLanes_fsPrev : (State.storeLanes n s).fsPrev = s.fsPrev := by
  induction n with
  | zero => rfl
  | succ n ih => exact ih
@[simp] theorem State.storeLanes_pos : (State.storeLanes n s).pos = s.pos := by
  induction n with
  | zero => rfl
  | succ n ih => exact ih
@[simp] theorem State.storeLanes_widx : (State.storeLanes n s).widx = s.widx := by
  induction n with
  | zero => rfl
  | succ n ih => exact ih
@[simp] theorem State.storeLanes_sr : (State.storeLanes n s).sr = s.sr := by
  induction n with
  | zero => rfl
  | succ n ih => exact ih
@[simp] theorem State.storeLanes_divCnt : (State.storeLanes n s).divCnt = s.divCnt := by
  induction n with
  | zero => rfl
  | succ n ih => exact ih
@[simp] theorem State.storeLanes_divAcc : (State.storeLanes n s).divAcc = s.divAcc := by
  induction n with
  | zero => rfl
  | succ n ih => exact ih
@[simp] theorem State.storeLanes_bclk : (State.storeLanes n s).bclk = s.bclk := by
  induction n with
  | zero => rfl
  | succ n ih => exact ih
@[simp] theorem State.storeLanes_rh : (State.storeLanes n s).rh = s.rh := by
  induction n with
  | zero => rfl
  | succ n ih => exact ih
@[simp] theorem State.storeLanes_asmZero : (State.storeLanes n s).asmZero = s.asmZero := by
  induction n with
  | zero => rfl
  | succ n ih => exact ih
@[simp] theorem State.storeLanes_asmN : (State.storeLanes n s).asmN = s.asmN := by
  induction n with
  | zero => rfl
  | succ n ih => exact ih
@[simp] theorem State.storeLanes_frame : (State.storeLanes n s).frame = s.frame := by
  induction n with
  | zero => rfl
  | succ n ih => exact ih
@[simp] theorem State.storeLanes_resp : (State.storeLanes n s).resp = s.resp := by
  induction n with
  | zero => rfl
  | succ n ih => exact ih
@[simp] theorem State.storeLanes_ramEpoch : (State.storeLanes n s).ramEpoch = s.ramEpoch := by
  induction n with
  | zero => rfl
  | succ n ih => exact ih
@[simp] theorem State.storeLanes_bus : (State.storeLanes n s).bus = s.bus := by
  induction n with
  | zero => rfl
  | succ n ih => exact ih
@[simp] theorem State.storeLanes_serial : (State.storeLanes n s).serial = s.serial := by
  induction n with
  | zero => rfl
  | succ n ih => exact ih
@[simp] theorem State.storeLanes_turns : (State.storeLanes n s).turns = s.turns := by
  induction n with
  | zero => rfl
  | succ n ih => exact ih
@[simp] theorem State.storeLanes_draws : (State.storeLanes n s).draws = s.draws := by
  induction n with
  | zero => rfl
  | succ n ih => exact ih

end

end Sys2Proof.Machine
end

