-- ==== Sys2Proof/Laws/Clock.lean ====
section
/-! SUPPORT. What the bit-clock divider does in a system-clock cycle and in a period (41_sequencer.md R125). -/

namespace Sys2Proof.Machine

/-- F is DIVQ mod 256 (10_state.md R32). -/
theorem State.divFrac_toNat (s : State) : s.divFrac.toNat = s.divq.toNat % 256 := by
  simp [State.divFrac, BitVec.extractLsb'_toNat]

/-- I is DIVQ / 256 (10_state.md R32). -/
theorem State.divInt_eq (s : State) : s.divInt = s.divq.toNat / 256 := by
  have := s.divq.isLt
  simp only [State.divInt, BitVec.extractLsb'_toNat, Nat.shiftRight_eq_div_pow]
  omega

/-- No period is shorter than I cycles. -/
theorem State.divInt_le_divPeriod (s : State) : s.divInt ≤ s.divPeriod := by simp [State.divPeriod]

/-- Inside a period a tick counts one cycle. -/
theorem State.divTick_inside {s : State} (h : s.divCnt + 1 < s.divPeriod) : s.divTick = { s with divCnt := s.divCnt + 1 } :=
  if_neg (by omega)

/-- The last tick of a period toggles `bclk_o`. -/
theorem State.divTick_last {s : State} (h : s.divPeriod ≤ s.divCnt + 1) : s.divTick = s.divToggle := if_pos h

/-- So many ticks inside a period count so many cycles. -/
theorem State.divTick_iterate (s : State) (j : Nat) (h : s.divCnt + j < s.divPeriod) :
    State.divTick^[j] s = { s with divCnt := s.divCnt + j } := by
  induction j with
  | zero => rfl
  | succ j ih =>
    rw [Function.iterate_succ', Function.comp, ih (by omega)]
    exact State.divTick_inside (s := { s with divCnt := s.divCnt + j }) (show s.divCnt + j + 1 < s.divPeriod by omega)

/-- The rest of a period is as many ticks as it has cycles left. -/
theorem State.divTick_iterate_rest (s : State) (h : s.divCnt < s.divPeriod) :
    State.divTick^[s.divPeriod - s.divCnt] s = s.divToggle := by
  obtain ⟨j, hj⟩ : ∃ j, s.divPeriod - s.divCnt = j + 1 := ⟨s.divPeriod - s.divCnt - 1, by omega⟩
  rw [hj, Function.iterate_succ', Function.comp, State.divTick_iterate s j (by omega)]
  exact State.divTick_last (s := { s with divCnt := s.divCnt + j }) (show s.divPeriod ≤ s.divCnt + j + 1 by omega)

end Sys2Proof.Machine
end

