-- ==== Sys2Proof/Laws/Config.lean ====
section
/-! SUPPORT. What validation gives (41_sequencer.md R121), and the bounds that follow from it. -/

namespace Sys2Proof.Machine

/-- A configuration passes validation iff every check of R121 passes. -/
theorem validate_eq_zero_iff (p : Params) (c : CfgRegs) : validate p c = 0 ↔
    (1 ≤ c.nch ∧ c.nch ≤ 6) ∧ (1 ≤ c.nlines ∧ c.nlines ≤ p.nlinesMax) ∧ (c.slots = 1 ∨ c.slots = 2) ∧
    (c.depth = 16 ∨ c.depth = 24) ∧
    (1000 ≤ c.sampleRate ∧ c.sampleRate % 1000 = 0 ∧ c.sampleRate / 1000 * c.slots ≤ p.halfWordsMax) ∧
    (∀ ch < c.nch, c.line ch < c.nlines ∧ c.slot ch < c.slots) ∧
    c.bytes.toNat = c.nch * (c.depth / 8) * (c.sampleRate / 1000) ∧ 256 ≤ c.divQ ∧ c.divQ ≤ 0xFFFFFF := by
  have hch : c.chmapBad = false ↔ ∀ ch < c.nch, c.line ch < c.nlines ∧ c.slot ch < c.slots := by
    simp [CfgRegs.chmapBad]
  rw [← hch]
  unfold validate
  constructor
  · intro h
    split_ifs at h with h1 h2 h3 h4 h5 h6 h7 h8
    have h6' : c.chmapBad = false := by simpa using h6
    exact ⟨by omega, by omega, by omega, by omega, by omega, h6', by omega, by omega⟩
  · rintro ⟨h1, h2, h3, h4, h5, h6, h7, h8⟩
    rw [if_neg (by omega), if_neg (by omega), if_neg (by omega), if_neg (by omega), if_neg (by omega),
      if_neg (by simp [h6]), if_neg (by omega), if_neg (by omega)]

/-- A half fits the capture RAM (00_scope.md R5, R6). -/
theorem half_le {p : Params} {c : CfgRegs} (h : validate p c = 0) : 1 ≤ c.half ∧ c.half ≤ p.halfWordsMax := by
  obtain ⟨-, -, h3, -, ⟨h5, -, h5'⟩, -⟩ := (validate_eq_zero_iff p c).1 h
  simp only [CfgRegs.half, CfgRegs.samples]
  refine ⟨?_, h5'⟩
  have : 1 ≤ c.sampleRate / 1000 := by omega
  rcases h3 with e | e <;> rw [e] <;> omega

/-- A frame's bytes are its samples' (00_scope.md R6). -/
theorem bytes_eq {p : Params} {c : CfgRegs} (h : validate p c = 0) :
    c.bytes.toNat = c.outSamples * c.sampleBytes := by
  obtain ⟨-, -, -, -, -, -, h7, -⟩ := (validate_eq_zero_iff p c).1 h
  rw [h7, CfgRegs.outSamples, CfgRegs.samples, CfgRegs.sampleBytes]
  ring

/-- The samples of a frame fit `asm_n`, and its bytes the frame RAM (00_scope.md R5, 10_state.md R43). -/
theorem outSamples_le {p : Params} {c : CfgRegs} (h : validate p c = 0) :
    1 ≤ c.outSamples ∧ c.outSamples ≤ 768 ∧ c.outSamples * c.sampleBytes ≤ p.frameBytesMax := by
  obtain ⟨h1, -, h3, h4, ⟨h5, -, h5'⟩, -⟩ := (validate_eq_zero_iff p c).1 h
  have hp := p.half_range.2
  have hs : 1 ≤ c.samples := by simp only [CfgRegs.samples]; omega
  have hs' : c.samples ≤ p.halfWordsMax := by
    simp only [CfgRegs.samples]
    rcases h3 with e | e <;> rw [e] at h5' <;> omega
  have hB : c.sampleBytes ≤ 3 := by
    simp only [CfgRegs.sampleBytes]
    omega
  simp only [CfgRegs.outSamples, Params.frameBytesMax]
  refine ⟨Nat.mul_pos hs h1.1, ?_, ?_⟩
  · calc c.samples * c.nch ≤ 128 * 6 := Nat.mul_le_mul (hs'.trans hp) h1.2
      _ = 768 := rfl
  · calc c.samples * c.nch * c.sampleBytes ≤ p.halfWordsMax * 6 * 3 := Nat.mul_le_mul (Nat.mul_le_mul hs' h1.2) hB
      _ = 18 * p.halfWordsMax := by ring

end Sys2Proof.Machine
end

