-- ==== Sys2Proof/Laws/Decode.lean ====
section
/-! SUPPORT. The fields of a transaction word, and what the decoder reads from them. -/

namespace Sys2Proof

open Machine

@[simp] theorem Txn.z_mkTxn (w : Bool) (off : Offset) (data : Word) : Txn.z (mkTxn w off data) = false := by
  simp only [Txn.z, mkTxn, BitVec.getLsbD_append]
  simp

@[simp] theorem Txn.w_mkTxn (w : Bool) (off : Offset) (data : Word) : Txn.w (mkTxn w off data) = w := by
  simp only [Txn.w, mkTxn, BitVec.getLsbD_append]
  simp

@[simp] theorem Txn.off_mkTxn (w : Bool) (off : Offset) (data : Word) : Txn.off (mkTxn w off data) = off := by
  apply BitVec.eq_of_getLsbD_eq
  intro i hi
  simp only [Txn.off, mkTxn, BitVec.getLsbD_extractLsb', BitVec.getLsbD_append, hi, decide_true, Bool.true_and]
  rw [if_pos (by omega), if_pos (by omega), if_neg (by omega)]
  exact congrArg _ (by omega)

@[simp] theorem Txn.data_mkTxn (w : Bool) (off : Offset) (data : Word) : Txn.data (mkTxn w off data) = data := by
  apply BitVec.eq_of_getLsbD_eq
  intro i hi
  simp only [Txn.data, mkTxn, BitVec.getLsbD_extractLsb', BitVec.getLsbD_append, hi, decide_true, Bool.true_and]
  rw [if_pos (by omega), if_pos (by omega), if_pos (by omega), Nat.zero_add]

/-- A word with T[46] = 0 is the word of its own fields (30_encoding.md R90). -/
theorem mkTxn_fields (t : Txn) (h : t.z = false) : mkTxn t.w t.off t.data = t := by
  apply BitVec.eq_of_getLsbD_eq
  intro i hi
  simp only [mkTxn, Txn.w, Txn.off, Txn.data, BitVec.getLsbD_append, BitVec.getLsbD_extractLsb']
  split_ifs with h1 h2 h3
  · simp [h3]
  · have : 32 + (i - 32) = i := by omega
    simp only [this, Bool.and_eq_right_iff_imp]
    intro; simp; omega
  · obtain rfl : i = 46 := by omega
    simpa [Txn.z] using h.symm
  · obtain rfl : i = 47 := by omega
    simp

/-- Two words with T[46] = 0 are equal if their fields are. -/
theorem Txn.ext_fields {t u : Txn} (ht : t.z = false) (hu : u.z = false) (hw : t.w = u.w) (ho : t.off = u.off)
    (hd : t.data = u.data) : t = u := by
  rw [← mkTxn_fields t ht, ← mkTxn_fields u hu, hw, ho, hd]

/-- A word of the encoder decodes by its fields alone. -/
@[simp] theorem decode_mkTxn (p : Params) (w : Bool) (off : Offset) (data : Word) :
    decode p (mkTxn w off data) = some (decodeAccess p w off data) := by
  simp [decode]

/-- The decoder refuses exactly the words with T[46] = 1 (30_encoding.md R93). -/
theorem decode_eq_none_iff (p : Params) (t : Txn) : decode p t = none ↔ t.z = true := by
  simp [decode]

/-- What a word that decodes spells. -/
theorem decode_eq_some_iff (p : Params) (t : Txn) (i : Instr) :
    decode p t = some i ↔ t.z = false ∧ decodeAccess p t.w t.off t.data = i := by
  simp [decode]

/-- Where an offset names nothing (20_memory.md R80 (a) to (d)). -/
theorem unmapped_iff (p : Params) (off : Nat) : unmapped p off = true ↔
    off % 4 ≠ 0 ∨ (0x44 ≤ off ∧ off < 0x1000) ∨
    (0x1000 ≤ off ∧ off < 0x3000 ∧ capExists p (capLine off) (capIndex off) = false) ∨
    (0x3000 ≤ off ∧ frameMapped p (frameIndex off) = false) := by
  simp only [unmapped, inCapWindow, inFrameWindow, Bool.or_eq_true, Bool.and_eq_true, decide_eq_true_eq,
    Bool.not_eq_true', or_assoc, and_assoc]
  simp only [capBase, frameBase]

theorem inCapWindow_iff (off : Nat) : inCapWindow off = true ↔ 0x1000 ≤ off ∧ off < 0x3000 := by
  simp only [inCapWindow, Bool.and_eq_true, decide_eq_true_eq]
  simp only [capBase, frameBase]

theorem inFrameWindow_iff (off : Nat) : inFrameWindow off = true ↔ 0x3000 ≤ off := by
  simp only [inFrameWindow, decide_eq_true_eq]
  simp only [frameBase]

/-- An offset that names a register is decoded by its register (30_encoding.md R94). -/
theorem decodeAccess_reg (p : Params) (w : Bool) (off : Offset) (d : Word) (h : off.toNat < 0x44) (h4 : off.toNat % 4 = 0) :
    decodeAccess p w off d = if w then decodeRegWrite off d else decodeRegRead off := by
  have hu : ¬ unmapped p off.toNat = true := by rw [unmapped_iff]; omega
  have hc : ¬ inCapWindow off.toNat = true := by rw [inCapWindow_iff]; omega
  have hf : ¬ inFrameWindow off.toNat = true := by rw [inFrameWindow_iff]; omega
  rw [decodeAccess, if_neg hu, if_neg hc, if_neg hf]

/-- The offset of `CAP[l][h][i]` in the window (30_encoding.md R100). -/
theorem capOffset_toNat (l : BitVec 3) (h : Bool) (i : BitVec 7) :
    (BitVec.ofNat 14 (capBase + capAddr l.toNat h i.toNat)).toNat = 0x1000 + capAddr l.toNat h i.toNat := by
  have := l.isLt
  have := i.isLt
  simp only [BitVec.toNat_ofNat, capBase, capAddr]
  cases h <;> simp <;> omega

/-- The fields of the offset of `CAP[l][h][i]` are l, h and i (30_encoding.md R100). -/
theorem capOffset_fields (l : BitVec 3) (h : Bool) (i : BitVec 7) :
    capLine (0x1000 + capAddr l.toNat h i.toNat) = l.toNat ∧ capHalf (0x1000 + capAddr l.toNat h i.toNat) = h ∧
      capIndex (0x1000 + capAddr l.toNat h i.toNat) = i.toNat := by
  have := l.isLt
  have := i.isLt
  simp only [capLine, capHalf, capIndex, capBase, capAddr]
  cases h <;> simp <;> omega

/-- An access to an existing capture word is decoded to it (30_encoding.md R100). -/
theorem decodeAccess_cap (p : Params) (w : Bool) (l : BitVec 3) (h : Bool) (i : BitVec 7) (d : Word)
    (hx : capExists p l.toNat i.toNat = true) :
    decodeAccess p w (BitVec.ofNat 14 (capBase + capAddr l.toNat h i.toNat)) d =
      if w then .wrCapwin l h i d else .rdCapwin l h i := by
  have hl := l.isLt
  have hi := i.isLt
  obtain ⟨f1, f2, f3⟩ := capOffset_fields l h i
  have hr : 0x1000 + capAddr l.toNat h i.toNat < 0x3000 ∧ capAddr l.toNat h i.toNat % 4 = 0 := by
    cases h <;> simp [capAddr] <;> omega
  have hu : ¬ unmapped p (0x1000 + capAddr l.toNat h i.toNat) = true := by
    rw [unmapped_iff, f1, f3, hx]
    simp only [Bool.true_eq_false, and_false, false_or]
    omega
  have hc : inCapWindow (0x1000 + capAddr l.toNat h i.toNat) = true := by rw [inCapWindow_iff]; omega
  simp only [decodeAccess, capOffset_toNat, if_neg hu, if_pos hc, decodeCapWindow, f1, f2, f3, BitVec.ofNat_toNat,
    BitVec.setWidth_eq]

/-- The offset of frame word k in the window (30_encoding.md R101). -/
theorem frameOffset_toNat (k : BitVec 10) : (BitVec.ofNat 14 (frameBase + 4 * k.toNat)).toNat = 0x3000 + 4 * k.toNat := by
  have := k.isLt
  simp only [BitVec.toNat_ofNat, frameBase]
  omega

/-- An access to a mapped frame word is decoded to it (30_encoding.md R101). -/
theorem decodeAccess_frame (p : Params) (w : Bool) (k : BitVec 10) (d : Word) (hx : frameMapped p k.toNat = true) :
    decodeAccess p w (BitVec.ofNat 14 (frameBase + 4 * k.toNat)) d = if w then .wrFramewin k d else .rdFramewin k := by
  have hk := k.isLt
  have f : frameIndex (0x3000 + 4 * k.toNat) = k.toNat := by
    simp only [frameIndex, frameBase]
    omega
  have hu : ¬ unmapped p (0x3000 + 4 * k.toNat) = true := by
    rw [unmapped_iff, f, hx]
    simp only [Bool.true_eq_false, and_false, or_false]
    omega
  have hc : ¬ inCapWindow (0x3000 + 4 * k.toNat) = true := by rw [inCapWindow_iff]; omega
  have hf : inFrameWindow (0x3000 + 4 * k.toNat) = true := by rw [inFrameWindow_iff]; omega
  simp only [decodeAccess, frameOffset_toNat, if_neg hu, if_neg hc, if_pos hf, decodeFrameWindow, f, BitVec.ofNat_toNat,
    BitVec.setWidth_eq]

end Sys2Proof
end

