-- ==== Sys2Proof/Laws/Flags.lean ====
section
/-! SUPPORT. The bits of masks, flags and placed bits. -/

namespace Sys2Proof.Machine

/-- Bit k of a bit placed at n. -/
theorem getLsbD_bitAt (b : Bool) (n k : Nat) : (bitAt b n).getLsbD k = (decide (k < 32) && decide (k = n) && b) := by
  cases b
  · simp [bitAt]
  · simp only [bitAt, BitVec.getLsbD_shiftLeft, Bool.and_true]
    by_cases h : k = n
    · subst h; simp
    · simp [h]; omega

/-- Bit l of the mask of the lines below n. -/
theorem getLsbD_lineMask (n l : Nat) : (lineMask n).getLsbD l = (decide (l < 6) && decide (l < n)) := by
  rw [lineMask, BitVec.getLsbD_ofNat, Nat.testBit_two_pow_sub_one]

/-- Two vectors of line bits are equal if their bits of the six lines are. -/
theorem lines_ext {x y : BitVec 6} (h : ∀ l < 6, x.getLsbD l = y.getLsbD l) : x = y :=
  BitVec.eq_of_getLsbD_eq h

/-- A flag's bit is set, the others are kept (10_state.md R33). -/
theorem getLsbD_setErr (s : State) (f : ErrFlag) (k : Nat) :
    (s.setErr f).errflags.getLsbD k = (s.errflags.getLsbD k || decide (k = errFlagBit f)) := by
  have hf : errFlagBit f < 32 := by cases f <;> decide
  simp only [State.setErr, BitVec.getLsbD_or, BitVec.getLsbD_shiftLeft, BitVec.getLsbD_one]
  by_cases h : k = errFlagBit f
  · subst h; simp [hf]
  · have : ¬ (errFlagBit f ≤ k ∧ k - errFlagBit f = 0) := by omega
    by_cases h1 : k < errFlagBit f
    · simp [h, h1]
    · have : ¬ (k - errFlagBit f = 0) := by omega
      simp [h, this]

/-- HALF_DONE of line l is IRQ_PEND's bit l (10_state.md R34). -/
theorem State.getLsbD_halfDone (s : State) (l : Nat) :
    s.halfDone.getLsbD l = (decide (l < 6) && s.irqPend.getLsbD l) := by
  simp [State.halfDone, BitVec.getLsbD_extractLsb']

/-- HALF_DONE is set for the lines of the mask, every other bit of IRQ_PEND is kept (42_capture_buffer.md R153). -/
theorem State.getLsbD_setHalfDone (s : State) (m : BitVec 6) (k : Nat) :
    (s.setHalfDone m).irqPend.getLsbD k = (s.irqPend.getLsbD k || m.getLsbD k) := by
  by_cases h : k < 32
  · simp [State.setHalfDone, h]
  · have : 32 ≤ k := by omega
    simp [State.setHalfDone, BitVec.getLsbD_of_ge _ k (by omega : 6 ≤ k)]

/-- Some line of a mask has its HALF_DONE pending. -/
theorem State.halfDone_and_ne_zero (s : State) (n : Nat) (hn : n ≤ 6) :
    s.halfDone &&& lineMask n ≠ 0 ↔ ∃ l < n, s.irqPend.getLsbD l = true := by
  constructor
  · intro h
    by_contra hc
    apply h
    apply lines_ext
    intro l hl
    simp only [BitVec.getLsbD_and, State.getLsbD_halfDone, getLsbD_lineMask, hl, decide_true, Bool.true_and]
    by_cases hln : l < n
    · have : ¬ s.irqPend.getLsbD l = true := fun e => hc ⟨l, hln, e⟩
      simp [this]
    · simp [hln]
  · rintro ⟨l, hl, h⟩ hz
    have hk := congrArg (fun v => BitVec.getLsbD v l) hz
    simp only [BitVec.getLsbD_and, State.getLsbD_halfDone, getLsbD_lineMask, h] at hk
    simp [hl, (by omega : l < 6)] at hk

/-- The saturating increment (00_scope.md R8). -/
theorem satIncr_toNat (x : Word) : (satIncr x).toNat = min (x.toNat + 1) (2 ^ 32 - 1) := by
  unfold satIncr
  split
  · rename_i h; subst h; rfl
  · rename_i h
    have : x.toNat ≠ 2 ^ 32 - 1 := fun e => h (BitVec.eq_of_toNat_eq (by simpa using e))
    have := x.isLt
    have e : (x + 1).toNat = (x.toNat + 1) % 2 ^ 32 := BitVec.toNat_add x 1
    rw [e]
    omega

end Sys2Proof.Machine
end

