-- ==== Sys2Proof/Laws/Memory.lean ====
section
/-! SUPPORT. What the RAM operations do: a byte read after a write, and the canonical form they keep. -/

namespace Sys2Proof.Machine

/-! ### What exists -/

theorem capExists_iff (p : Params) (l i : Nat) : capExists p l i = true ↔ l < p.nlinesMax ∧ i < p.halfWordsMax := by
  simp [capExists]

theorem frameMapped_iff (p : Params) (k : Nat) : frameMapped p k = true ↔ 4 * k < p.frameBytesMax := by
  simp [frameMapped]

/-! ### One byte -/

@[simp] theorem Memory.lookup_nil (a : Nat) : Memory.lookup [] a = none := rfl

/-- A byte reads as written at its own address, and as before elsewhere. -/
theorem Memory.lookup_write (m : Memory) (a b : Nat) (v : Byte) :
    (m.write a v).lookup b = if b = a then some v else m.lookup b := by
  induction m with
  | nil => simp [Memory.write, Memory.lookup]
  | cons c r ih =>
    obtain ⟨k, w⟩ := c
    simp only [Memory.write]
    by_cases h1 : a < k
    · simp [h1, Memory.lookup]
    · by_cases h2 : a = k
      · subst h2
        by_cases h : b = a <;> simp [Memory.lookup, h]
      · by_cases h : b = k
        · have : b ≠ a := fun e => h2 (e.symm.trans h)
          simp [h1, h2, Memory.lookup, h, Ne.symm h2]
        · simp [h1, h2, Memory.lookup, h, ih]

@[simp] theorem Memory.lookup_write_same (m : Memory) (a : Nat) (v : Byte) : (m.write a v).lookup a = some v := by
  simp [Memory.lookup_write]

theorem Memory.lookup_write_other (m : Memory) {a b : Nat} (v : Byte) (h : b ≠ a) :
    (m.write a v).lookup b = m.lookup b := by
  simp [Memory.lookup_write, h]

/-! ### The canonical form -/

/-- A list has the form iff its head lies below the next entry and the rest has the form. -/
theorem Memory.wf_cons (c : Host.Cell) (m : Memory) :
    Memory.wf (c :: m) = true ↔ (∀ d ∈ m.head?, c.1 < d.1) ∧ m.wf = true := by
  cases m with
  | nil => simp [Memory.wf]
  | cons d r => simp [Memory.wf]

/-- A write lists its address or keeps the first one. -/
theorem Memory.head_write (m : Memory) (a : Nat) (v : Byte) :
    ∀ d ∈ (m.write a v).head?, d.1 = a ∨ ∃ c ∈ m.head?, d.1 = c.1 ∧ c.1 ≤ a := by
  cases m with
  | nil => simp [Memory.write]
  | cons c r =>
    obtain ⟨k, w⟩ := c
    simp only [Memory.write]
    split
    · simp
    · split
      · simp
      · simp; omega

/-- A write keeps the canonical form. -/
theorem Memory.wf_write (m : Memory) (a : Nat) (v : Byte) (h : m.wf = true) : (m.write a v).wf = true := by
  induction m with
  | nil => rfl
  | cons c r ih =>
    obtain ⟨k, w⟩ := c
    have hr := (Memory.wf_cons _ _).1 h
    simp only [Memory.write]
    by_cases h1 : a < k
    · simp [h1, Memory.wf_cons, h]
    · by_cases h2 : a = k
      · subst h2
        simp only [lt_irrefl, if_false, if_true]
        exact (Memory.wf_cons _ _).2 hr
      · simp only [h1, h2, if_false]
        refine (Memory.wf_cons _ _).2 ⟨fun d hd => ?_, ih hr.2⟩
        rcases Memory.head_write r a v d hd with e | ⟨c, hc, e, _⟩
        · simp only [e]; omega
        · rw [e]; exact hr.1 c hc

/-- Every entry after a write was there before or is the byte written. -/
theorem Memory.mem_write (m : Memory) (a : Nat) (v : Byte) (c : Host.Cell) (h : c ∈ m.write a v) :
    c = (a, v) ∨ c ∈ m := by
  induction m with
  | nil => simpa [Memory.write] using h
  | cons d r ih =>
    obtain ⟨k, w⟩ := d
    simp only [Memory.write] at h
    split at h
    · simpa using h
    · split at h
      · rcases List.mem_cons.1 h with h | h
        · exact .inl h
        · exact .inr (List.mem_cons_of_mem _ h)
      · rcases List.mem_cons.1 h with h | h
        · exact .inr (h ▸ List.mem_cons_self)
        · exact (ih h).imp id (List.mem_cons_of_mem _)

/-! ### Consecutive bytes -/

@[simp] theorem Memory.writeBytes_nil (m : Memory) (a : Nat) : m.writeBytes a [] = m := rfl

@[simp] theorem Memory.writeBytes_cons (m : Memory) (a : Nat) (b : Byte) (bs : List Byte) :
    m.writeBytes a (b :: bs) = (m.write a b).writeBytes (a + 1) bs := rfl

/-- Inside the bytes written an address reads its byte, elsewhere as before. -/
theorem Memory.lookup_writeBytes (bs : List Byte) : ∀ (m : Memory) (a b : Nat),
    (m.writeBytes a bs).lookup b = if a ≤ b ∧ b < a + bs.length then bs[b - a]? else m.lookup b := by
  induction bs with
  | nil => intro m a b; simp
  | cons x xs ih =>
    intro m a b
    rw [Memory.writeBytes_cons, ih, Memory.lookup_write]
    simp only [List.length_cons]
    by_cases hb : b = a
    · subst hb
      simp
    · by_cases h : a + 1 ≤ b ∧ b < a + 1 + xs.length
      · have h' : a ≤ b ∧ b < a + (xs.length + 1) := by omega
        rw [if_pos h, if_pos h']
        obtain ⟨k, rfl⟩ : ∃ k, b = a + 1 + k := ⟨b - (a + 1), by omega⟩
        have e1 : a + 1 + k - (a + 1) = k := by omega
        have e2 : a + 1 + k - a = k + 1 := by omega
        simp [e1, e2]
      · have h' : ¬ (a ≤ b ∧ b < a + (xs.length + 1)) := by omega
        rw [if_neg h, if_neg h', if_neg hb]

theorem Memory.lookup_writeBytes_outside (m : Memory) {a b : Nat} (bs : List Byte) (h : b < a ∨ a + bs.length ≤ b) :
    (m.writeBytes a bs).lookup b = m.lookup b := by
  rw [Memory.lookup_writeBytes, if_neg (by omega)]

theorem Memory.lookup_writeBytes_inside (m : Memory) (a k : Nat) (bs : List Byte) (h : k < bs.length) :
    (m.writeBytes a bs).lookup (a + k) = some bs[k] := by
  rw [Memory.lookup_writeBytes, if_pos (by omega), Nat.add_sub_cancel_left, List.getElem?_eq_getElem h]

theorem Memory.wf_writeBytes (bs : List Byte) : ∀ (m : Memory) (a : Nat), m.wf = true → (m.writeBytes a bs).wf = true := by
  induction bs with
  | nil => exact fun m a h => h
  | cons b bs ih => exact fun m a h => ih _ _ (m.wf_write a b h)

theorem Memory.mem_writeBytes (bs : List Byte) : ∀ (m : Memory) (a : Nat) (c : Host.Cell), c ∈ m.writeBytes a bs →
    (a ≤ c.1 ∧ c.1 < a + bs.length) ∨ c ∈ m := by
  induction bs with
  | nil => exact fun m a c h => .inr h
  | cons b bs ih =>
    intro m a c h
    rcases ih _ _ c h with h | h
    · left; simp only [List.length_cons]; omega
    · rcases m.mem_write a b c h with h | h
      · left; subst h; simp
      · exact .inr h

/-! ### Words and bytes -/

/-- A word is its four bytes. -/
@[simp] theorem wordOf_byteOf (w : Word) : wordOf (byteOf w 0) (byteOf w 1) (byteOf w 2) (byteOf w 3) = w := by
  apply BitVec.eq_of_getLsbD_eq
  intro i hi
  have key : ∀ c j, j < 8 → c + j = i → (decide (j < 8) && w.getLsbD (c + j)) = w.getLsbD i := by
    rintro c j hj rfl
    simp [hj]
  simp only [wordOf, byteOf, BitVec.getLsbD_append, BitVec.getLsbD_extractLsb']
  split_ifs <;> exact key _ _ (by omega) (by omega)

/-- Byte k of the word of four bytes. -/
theorem byteOf_wordOf (b0 b1 b2 b3 : Byte) (k : Nat) (hk : k < 4) :
    byteOf (wordOf b0 b1 b2 b3) k = [b0, b1, b2, b3][k] := by
  apply BitVec.eq_of_getLsbD_eq
  intro i hi
  interval_cases k <;> simp only [wordOf, byteOf, BitVec.getLsbD_append, BitVec.getLsbD_extractLsb', hi, decide_true,
    Bool.true_and] <;> split_ifs <;> first | omega | exact congrArg _ (by omega)

/-! ### The two RAMs of the state -/

theorem State.capByte_def (s : State) (a : Nat) : s.capByte a = (s.cap.lookup a).getD (Config.capDraw s.ramEpoch a) := rfl

theorem State.frameByte_def (s : State) (a : Nat) :
    s.frameByte a = (s.frame.lookup a).getD (Config.frameDraw s.ramEpoch a) := rfl

/-- A stored capture word changes its four bytes and no other. -/
theorem State.capByte_capStore (s : State) (l : Nat) (h : Bool) (i : Nat) (w : Word) (a : Nat) :
    (s.capStore l h i w).capByte a =
      if capAddr l h i ≤ a ∧ a < capAddr l h i + 4 then byteOf w (a - capAddr l h i) else s.capByte a := by
  simp only [State.capByte, State.capStore, Memory.lookup_writeBytes, List.length_cons, List.length_nil]
  split
  · rename_i hin
    obtain ⟨k, rfl⟩ : ∃ k, a = capAddr l h i + k := ⟨a - capAddr l h i, by omega⟩
    have hk : k < 4 := by omega
    rw [Nat.add_sub_cancel_left]
    interval_cases k <;> simp
  · rfl

/-- A stored capture word reads back. -/
@[simp] theorem State.capWord_capStore_same (s : State) (l : Nat) (h : Bool) (i : Nat) (w : Word) :
    (s.capStore l h i w).capWord l h i = w := by
  simp [State.capWord, State.capByte_capStore]

/-- Different words of the capture RAM have disjoint bytes. -/
theorem capAddr_disjoint {l l' i i' : Nat} {h h' : Bool} (hi : i < 128) (hi' : i' < 128)
    (hne : ¬ (l = l' ∧ h = h' ∧ i = i')) : capAddr l h i + 4 ≤ capAddr l' h' i' ∨ capAddr l' h' i' + 4 ≤ capAddr l h i := by
  simp only [capAddr]
  cases h <;> cases h' <;> simp_all <;> omega

/-- A stored capture word leaves every other word. -/
theorem State.capWord_capStore_other (s : State) {l l' i i' : Nat} {h h' : Bool} (w : Word) (hi : i < 128)
    (hi' : i' < 128) (hne : ¬ (l = l' ∧ h = h' ∧ i = i')) :
    (s.capStore l h i w).capWord l' h' i' = s.capWord l' h' i' := by
  rcases capAddr_disjoint hi hi' hne with d | d <;>
    simp only [State.capWord, State.capByte_capStore] <;>
    rw [if_neg (by omega), if_neg (by omega), if_neg (by omega), if_neg (by omega)]

/-- Stored frame bytes are read back, and every other byte is as before. -/
theorem State.frameByte_frameStore (s : State) (a : Nat) (bs : List Byte) (b : Nat) :
    (s.frameStore a bs).frameByte b = if h : a ≤ b ∧ b < a + bs.length then bs[b - a] else s.frameByte b := by
  simp only [State.frameByte, State.frameStore, Memory.lookup_writeBytes]
  split
  · rename_i hin
    rw [List.getElem?_eq_getElem (by omega)]; rfl
  · rfl

@[simp] theorem State.capByte_frameStore (s : State) (a : Nat) (bs : List Byte) (b : Nat) :
    (s.frameStore a bs).capByte b = s.capByte b := rfl

@[simp] theorem State.frameByte_capStore (s : State) (l : Nat) (h : Bool) (i : Nat) (w : Word) (b : Nat) :
    (s.capStore l h i w).frameByte b = s.frameByte b := rfl

/-- The bytes of the capture RAM depend on nothing else of the state. -/
theorem State.capByte_congr {s t : State} (hc : t.cap = s.cap) (he : t.ramEpoch = s.ramEpoch) (a : Nat) :
    t.capByte a = s.capByte a := by
  simp [State.capByte, hc, he]

theorem State.capWord_congr {s t : State} (hc : t.cap = s.cap) (he : t.ramEpoch = s.ramEpoch) (l : Nat) (h : Bool)
    (i : Nat) : t.capWord l h i = s.capWord l h i := by
  simp [State.capWord, State.capByte_congr hc he]

/-- The bytes of the frame RAM depend on nothing else of the state. -/
theorem State.frameByte_congr {s t : State} (hf : t.frame = s.frame) (he : t.ramEpoch = s.ramEpoch) (a : Nat) :
    t.frameByte a = s.frameByte a := by
  simp [State.frameByte, hf, he]

/-! ### Both RAMs keep the canonical form -/

/-- Storing a capture word keeps the capture RAM's form. -/
theorem State.capStore_wf (s : State) (l : Nat) (h : Bool) (i : Nat) (w : Word) (hw : s.cap.wf = true) :
    (s.capStore l h i w).cap.wf = true := Memory.wf_writeBytes _ _ _ hw

/-- Storing frame bytes keeps the frame RAM's form. -/
theorem State.frameStore_wf (s : State) (a : Nat) (bs : List Byte) (hw : s.frame.wf = true) :
    (s.frameStore a bs).frame.wf = true := Memory.wf_writeBytes _ _ _ hw

/-- The RAMs have the form right after reset. -/
theorem State.reset_wf : State.reset.cap.wf = true ∧ State.reset.frame.wf = true := ⟨rfl, rfl⟩

end Sys2Proof.Machine
end

