-- ==== Sys2Proof/Laws/PerInstr.lean ====
section
/-! SUPPORT. What holds of every transaction as syntax, one lemma per row of the opcode table. -/

namespace Sys2Proof.Laws.EncodesLegal

/-- The transaction's word is legal: T[46] = 0 (30_encoding.md R93). -/
def Statement (i : Instr) : Prop := Txn.z (encode i) = false

theorem rdId : Statement .rdId := Txn.z_mkTxn _ _ _
theorem wrId (data : Word) : Statement (.wrId data) := Txn.z_mkTxn _ _ _
theorem rdParams : Statement .rdParams := Txn.z_mkTxn _ _ _
theorem wrParams (data : Word) : Statement (.wrParams data) := Txn.z_mkTxn _ _ _
theorem rdCfg0 : Statement .rdCfg0 := Txn.z_mkTxn _ _ _
theorem wrCfg0 (data : Word) : Statement (.wrCfg0 data) := Txn.z_mkTxn _ _ _
theorem rdRate : Statement .rdRate := Txn.z_mkTxn _ _ _
theorem wrRate (data : Word) : Statement (.wrRate data) := Txn.z_mkTxn _ _ _
theorem rdSysclk : Statement .rdSysclk := Txn.z_mkTxn _ _ _
theorem wrSysclk (data : Word) : Statement (.wrSysclk data) := Txn.z_mkTxn _ _ _
theorem rdFramebytes : Statement .rdFramebytes := Txn.z_mkTxn _ _ _
theorem wrFramebytes (data : Word) : Statement (.wrFramebytes data) := Txn.z_mkTxn _ _ _
theorem rdChmap : Statement .rdChmap := Txn.z_mkTxn _ _ _
theorem wrChmap (data : Word) : Statement (.wrChmap data) := Txn.z_mkTxn _ _ _
theorem rdCtrl : Statement .rdCtrl := Txn.z_mkTxn _ _ _
theorem wrCtrl (data : Word) : Statement (.wrCtrl data) := Txn.z_mkTxn _ _ _
theorem rdCmd : Statement .rdCmd := Txn.z_mkTxn _ _ _
theorem rdStatus : Statement .rdStatus := Txn.z_mkTxn _ _ _
theorem wrStatus (data : Word) : Statement (.wrStatus data) := Txn.z_mkTxn _ _ _
theorem rdDiv : Statement .rdDiv := Txn.z_mkTxn _ _ _
theorem wrDiv (data : Word) : Statement (.wrDiv data) := Txn.z_mkTxn _ _ _
theorem rdErrflags : Statement .rdErrflags := Txn.z_mkTxn _ _ _
theorem w1cErrflags (data : Word) : Statement (.w1cErrflags data) := Txn.z_mkTxn _ _ _
theorem rdIrqPend : Statement .rdIrqPend := Txn.z_mkTxn _ _ _
theorem w1cIrqPend (data : Word) : Statement (.w1cIrqPend data) := Txn.z_mkTxn _ _ _
theorem rdIrqEn : Statement .rdIrqEn := Txn.z_mkTxn _ _ _
theorem wrIrqEn (data : Word) : Statement (.wrIrqEn data) := Txn.z_mkTxn _ _ _
theorem rdMissed : Statement .rdMissed := Txn.z_mkTxn _ _ _
theorem wrMissed (data : Word) : Statement (.wrMissed data) := Txn.z_mkTxn _ _ _
theorem rdHalfcnt : Statement .rdHalfcnt := Txn.z_mkTxn _ _ _
theorem wrHalfcnt (data : Word) : Statement (.wrHalfcnt data) := Txn.z_mkTxn _ _ _
theorem rdFrameLen : Statement .rdFrameLen := Txn.z_mkTxn _ _ _
theorem wrFrameLen (data : Word) : Statement (.wrFrameLen data) := Txn.z_mkTxn _ _ _
theorem cmdNop : Statement .cmdNop := Txn.z_mkTxn _ _ _
theorem cmdStart : Statement .cmdStart := Txn.z_mkTxn _ _ _
theorem cmdStop : Statement .cmdStop := Txn.z_mkTxn _ _ _
theorem cmdFrameReq : Statement .cmdFrameReq := Txn.z_mkTxn _ _ _
theorem cmdClrDiag : Statement .cmdClrDiag := Txn.z_mkTxn _ _ _
theorem cmdRsvd (data : Word) : Statement (.cmdRsvd data) := Txn.z_mkTxn _ _ _
theorem rdCapwin (l : BitVec 3) (h : Bool) (i : BitVec 7) : Statement (.rdCapwin l h i) := Txn.z_mkTxn _ _ _
theorem wrCapwin (l : BitVec 3) (h : Bool) (i : BitVec 7) (data : Word) : Statement (.wrCapwin l h i data) := Txn.z_mkTxn _ _ _
theorem rdFramewin (k : BitVec 10) : Statement (.rdFramewin k) := Txn.z_mkTxn _ _ _
theorem wrFramewin (k : BitVec 10) (data : Word) : Statement (.wrFramewin k data) := Txn.z_mkTxn _ _ _
theorem busErr (write : Bool) (off : Offset) (data : Word) : Statement (.busErr write off data) := Txn.z_mkTxn _ _ _

end Sys2Proof.Laws.EncodesLegal
end

