-- ==== Sys2Proof/Laws/Steps.lean ====
section
/-! SUPPORT. What each shared operation of the step can do, said once. -/

namespace Sys2Proof.Machine

/-! ### One step after another -/

@[simp] theorem andThen_next (s : State) (f : State → Host.Outcome State Fault Refusal) : andThen (.next s) f = f s := rfl

/-- Two steps answer a state if the first answers one and the second answers from it. -/
theorem andThen_eq_next_iff (o : Host.Outcome State Fault Refusal) (f : State → Host.Outcome State Fault Refusal)
    (t : State) : andThen o f = .next t ↔ ∃ s, o = .next s ∧ f s = .next t := by
  cases o <;> simp [andThen]

/-- Two steps fault if one of them does. -/
theorem andThen_eq_fault_iff (o : Host.Outcome State Fault Refusal) (f : State → Host.Outcome State Fault Refusal)
    (r : Fault) : andThen o f = .fault r ↔ o = .fault r ∨ ∃ s, o = .next s ∧ f s = .fault r := by
  cases o <;> simp [andThen]

/-- Three steps in a row group either way. -/
theorem andThen_assoc (o : Host.Outcome State Fault Refusal) (f g : State → Host.Outcome State Fault Refusal) :
    andThen (andThen o f) g = andThen o fun s => andThen (f s) g := by
  cases o <;> rfl

/-- A step and nothing after it. -/
theorem andThen_pure (o : Host.Outcome State Fault Refusal) : andThen o .next = o := by cases o <;> rfl

@[simp] theorem runTurns_nil (s : State) : runTurns [] s = .next s := rfl

@[simp] theorem runTurns_cons (t : Turn) (ts : List Turn) (s : State) :
    runTurns (t :: ts) s = andThen (takeTurn t s) (runTurns ts) := rfl

/-- A rule that every turn of a run keeps holds after the run. -/
theorem runTurns_induction (P : State → Prop) (ts : List Turn)
    (hstep : ∀ turn ∈ ts, ∀ s t, P s → takeTurn turn s = .next t → P t) :
    ∀ s t, P s → runTurns ts s = .next t → P t := by
  induction ts with
  | nil => intro s t hs h; cases h; exact hs
  | cons x xs ih =>
    intro s t hs h
    obtain ⟨u, h1, h2⟩ := (andThen_eq_next_iff _ _ _).1 h
    exact ih (fun turn ht => hstep turn (List.mem_cons_of_mem _ ht)) u t (hstep x List.mem_cons_self s u hs h1) h2

/-! ### The DMA write -/

/-- Storing the lanes changes the capture RAM alone (42_capture_buffer.md R150). -/
theorem State.storeLanes_eq (s : State) : ∀ n, State.storeLanes n s = { s with cap := (State.storeLanes n s).cap }
  | 0 => rfl
  | n + 1 => by
    simp only [State.storeLanes, State.capStore]
    rw [State.storeLanes_eq s n]

/-- A byte outside the words stored is as before. -/
theorem State.capByte_storeLanes_other (s : State) (a : Nat) : ∀ n,
    (∀ l < n, ¬ (capAddr l (s.wt.getLsbD l) s.widx.toNat ≤ a ∧ a < capAddr l (s.wt.getLsbD l) s.widx.toNat + 4)) →
      (State.storeLanes n s).capByte a = s.capByte a
  | 0, _ => rfl
  | n + 1, h => by
    rw [State.storeLanes, State.capByte_capStore, if_neg (h n (Nat.lt_succ_self n)),
      State.capByte_storeLanes_other s a n fun l hl => h l (Nat.lt_succ_of_lt hl)]

/-- The word of every lane stored reads back. -/
theorem State.capWord_storeLanes (s : State) : ∀ n, ∀ l < n,
    (State.storeLanes n s).capWord l (s.wt.getLsbD l) s.widx.toNat = s.lane l
  | n + 1, l, hl => by
    rw [State.storeLanes]
    rcases Nat.lt_succ_iff_lt_or_eq.1 hl with h | rfl
    · rw [State.capWord_capStore_other _ _ s.widx.isLt s.widx.isLt (fun e => absurd e.1 (by omega)),
        State.capWord_storeLanes s n l h]
    · exact State.capWord_capStore_same _ _ _ _ _

/-- Storing the lanes keeps the canonical form. -/
theorem State.storeLanes_wf (s : State) (h : s.cap.wf = true) : ∀ n, (State.storeLanes n s).cap.wf = true
  | 0 => h
  | n + 1 => Memory.wf_writeBytes _ _ _ (State.storeLanes_wf s h n)

/-- Every entry after the lanes are stored was there before or lies in a word stored. -/
theorem State.mem_storeLanes (s : State) (c : Host.Cell) : ∀ n, c ∈ (State.storeLanes n s).cap →
    (∃ l < n, capAddr l (s.wt.getLsbD l) s.widx.toNat ≤ c.1 ∧ c.1 < capAddr l (s.wt.getLsbD l) s.widx.toNat + 4) ∨
      c ∈ s.cap
  | 0, h => .inr h
  | n + 1, h => by
    rcases Memory.mem_writeBytes _ _ _ _ h with h | h
    · exact .inl ⟨n, Nat.lt_succ_self n, by simpa using h⟩
    · rcases State.mem_storeLanes s c n h with ⟨l, hl, h⟩ | h
      · exact .inl ⟨l, Nat.lt_succ_of_lt hl, h⟩
      · exact .inr h

/-! ### The completion event -/

/-- What a completion event writes (42_capture_buffer.md R151 to R154). -/
theorem State.completionEvent_eq (s : State) : s.completionEvent =
    { s with
      wt := s.wt ^^^ s.activeLines, widx := 0, primed := true, halfcnt := s.halfcnt + 1
      errflags := s.completionEvent.errflags, missed := s.completionEvent.missed
      irqPend := s.irqPend ||| s.activeLines.setWidth 32 } := by
  simp only [State.completionEvent, State.handoff, State.tearCheck]
  split <;> split <;> rfl

/-- MISSED counts a completion event before which HALF_DONE of a line in use was pending (42_capture_buffer.md R153). -/
theorem State.completionEvent_missed (s : State) : s.completionEvent.missed =
    if s.halfDone &&& s.activeLines ≠ 0 then satIncr s.missed else s.missed := by
  simp only [State.completionEvent, State.handoff, State.tearCheck, decide_eq_true_eq]
  split <;> split <;> split <;> first | rfl | (rename_i h1 h2; exact absurd h1 h2) | (rename_i h1 h2; exact absurd h2 h1)

/-- The flag a tear check raises (42_capture_buffer.md R154). -/
theorem State.tearCheck_errflags (s : State) : s.tearCheck.errflags =
    s.errflags ||| if s.asmBusy && !s.asmZero then 1#32 <<< errFlagBit .tear else 0 := by
  unfold State.tearCheck
  split
  · rfl
  · exact BitVec.or_zero.symm

/-- The flag a handoff raises (42_capture_buffer.md R153). -/
theorem State.handoff_errflags (s : State) : s.handoff.errflags =
    s.errflags ||| if s.halfDone &&& s.activeLines ≠ 0 then 1#32 <<< errFlagBit .overrun else 0 := by
  unfold State.handoff
  by_cases h : s.halfDone &&& s.activeLines ≠ 0
  · simp only [h, ne_eq, not_false_eq_true, decide_true, if_true]; rfl
  · simp only [h, decide_false, Bool.false_eq_true, if_false]
    exact BitVec.or_zero.symm

/-- The flags a completion event raises: OVERRUN with MISSED, TEAR with a running assembly that is not zero-fill
(42_capture_buffer.md R153, R154). -/
theorem State.completionEvent_errflags (s : State) : s.completionEvent.errflags =
    (s.errflags ||| if s.asmBusy && !s.asmZero then 1#32 <<< errFlagBit .tear else 0) |||
      if s.halfDone &&& s.activeLines ≠ 0 then 1#32 <<< errFlagBit .overrun else 0 := by
  rw [State.completionEvent, State.handoff_errflags, State.tearCheck_errflags]
  simp only [State.halfDone, State.activeLines, State.tearCheck_irqPend, State.tearCheck_active]
  rfl

/-! ### The bit event -/

/-- What the end of a slot answers (41_sequencer.md R131). -/
theorem State.latchAndStore_cases {s t : State} (h : s.latchAndStore = .next t) :
    s.active.nlines ≤ s.params.nlinesMax ∧ s.widx.toNat < s.params.halfWordsMax ∧
      ((s.widx.toNat + 1 = s.active.half ∧ t = (State.storeLanes s.active.nlines s).completionEvent) ∨
        (s.widx.toNat + 1 ≠ s.active.half ∧ t = { State.storeLanes s.active.nlines s with widx := s.widx + 1 })) := by
  unfold State.latchAndStore at h
  split at h
  · rename_i hb
    refine ⟨hb.1, hb.2, ?_⟩
    split at h <;> rename_i hw <;> cases h
    · exact .inl ⟨hw, rfl⟩
    · exact .inr ⟨hw, rfl⟩
  · cases h

/-- The end of a slot that fills the half (41_sequencer.md R131). -/
theorem State.latchAndStore_fills {s : State} (hl : s.active.nlines ≤ s.params.nlinesMax)
    (hw : s.widx.toNat < s.params.halfWordsMax) (hf : s.widx.toNat + 1 = s.active.half) :
    s.latchAndStore = .next (State.storeLanes s.active.nlines s).completionEvent := by
  simp only [State.latchAndStore, if_pos (And.intro hl hw), if_pos hf]

/-- The end of a slot that does not fill the half (41_sequencer.md R131). -/
theorem State.latchAndStore_advances {s : State} (hl : s.active.nlines ≤ s.params.nlinesMax)
    (hw : s.widx.toNat < s.params.halfWordsMax) (hf : s.widx.toNat + 1 ≠ s.active.half) :
    s.latchAndStore = .next { State.storeLanes s.active.nlines s with widx := s.widx + 1 } := by
  simp only [State.latchAndStore, if_pos (And.intro hl hw), if_neg hf]

/-- A tracked bit without an unexpected edge is used at `pos` (41_sequencer.md R129). -/
theorem State.bitEvent_tracked {s : State} {i : SerialIn} (hv : s.fsv = true) (hs : s.synced = true)
    (he : ¬ (fsEdge s.active s.fsPrev i.fs = true ∧ s.pos.toNat ≠ s.active.edgePos)) :
    s.bitEvent i = { s with fsPrev := i.fs }.useBit i.sd s.pos.toNat := by
  have hb : (fsEdge s.active s.fsPrev i.fs && decide (s.pos.toNat ≠ s.active.edgePos)) = false := by simpa using he
  simp only [State.bitEvent, hv, hs, State.track]
  simp only [Bool.not_true, Bool.false_eq_true, if_false, if_true, hb]

/-- What a used bit answers (41_sequencer.md R130 to R132). -/
theorem State.useBit_cases {s t : State} {d : BitVec 6} {p : Nat} (h : s.useBit d p = .next t) :
    (p % 32 ≠ 31 ∧ t = { s.shift d with pos := BitVec.ofNat 6 ((p + 1) % s.active.frameBits) }) ∨
      (p % 32 = 31 ∧ ∃ u, (s.shift d).latchAndStore = .next u ∧
        t = { u with pos := BitVec.ofNat 6 ((p + 1) % s.active.frameBits) }) := by
  unfold State.useBit at h
  split at h
  · rename_i hp
    obtain ⟨u, h1, h2⟩ := (andThen_eq_next_iff _ _ _).1 h
    exact .inr ⟨hp, u, h1, by cases h2; rfl⟩
  · rename_i hp
    exact .inl ⟨hp, by cases h; rfl⟩

/-- What a bit event answers: a bit that is not used only moves the alignment (41_sequencer.md R126 to R129); a bit
that is used stands at the position alignment gives it. -/
theorem State.bitEvent_cases {s t : State} {i : SerialIn} (h : s.bitEvent i = .next t) :
    (s.fsv = false ∧ t = { s with fsPrev := i.fs, fsv := true }) ∨
    (s.fsv = true ∧ s.synced = false ∧ fsEdge s.active s.fsPrev i.fs = false ∧ t = { s with fsPrev := i.fs }) ∨
    (s.fsv = true ∧ s.synced = false ∧ fsEdge s.active s.fsPrev i.fs = true ∧ s.active.fsDelay = true ∧
      t = { s with fsPrev := i.fs, synced := true, pos := 0 }) ∨
    (s.fsv = true ∧ s.synced = false ∧ fsEdge s.active s.fsPrev i.fs = true ∧ s.active.fsDelay = false ∧
      { s with fsPrev := i.fs, synced := true }.useBit i.sd 0 = .next t) ∨
    (s.fsv = true ∧ s.synced = true ∧
      ¬ (fsEdge s.active s.fsPrev i.fs = true ∧ s.pos.toNat ≠ s.active.edgePos) ∧
      { s with fsPrev := i.fs }.useBit i.sd s.pos.toNat = .next t) ∨
    (s.fsv = true ∧ s.synced = true ∧ fsEdge s.active s.fsPrev i.fs = true ∧ s.pos.toNat ≠ s.active.edgePos ∧
      s.active.fsDelay = true ∧ t = { { s with fsPrev := i.fs }.realign with pos := 0 }) ∨
    (s.fsv = true ∧ s.synced = true ∧ fsEdge s.active s.fsPrev i.fs = true ∧ s.pos.toNat ≠ s.active.edgePos ∧
      s.active.fsDelay = false ∧ { s with fsPrev := i.fs }.realign.useBit i.sd 0 = .next t) := by
  unfold State.bitEvent at h
  cases hv : s.fsv
  · simp only [hv, Bool.not_false, if_true] at h
    cases h
    exact .inl ⟨rfl, rfl⟩
  · simp only [hv, Bool.not_true, Bool.false_eq_true, if_false] at h
    cases hs : s.synced
    · simp only [hs, Bool.false_eq_true, if_false, State.acquire] at h
      cases he : fsEdge s.active s.fsPrev i.fs
      · simp only [he, Bool.not_false, if_true] at h
        cases h
        simp
      · simp only [he, Bool.not_true, Bool.false_eq_true, if_false] at h
        cases hd : s.active.fsDelay
        · simp only [hd, Bool.false_eq_true, if_false] at h
          simp only [true_and, reduceCtorEq, false_and, false_or, or_false]
          exact h
        · simp only [hd, if_true] at h
          cases h
          simp
    · simp only [hs, if_true, State.track] at h
      by_cases hc : fsEdge s.active s.fsPrev i.fs = true ∧ s.pos.toNat ≠ s.active.edgePos
      · simp only [hc.1, hc.2, ne_eq, not_false_eq_true, decide_true, Bool.and_self, if_true] at h
        cases hd : s.active.fsDelay
        · simp only [hd, Bool.false_eq_true, if_false] at h
          simp only [true_and, reduceCtorEq, false_and, false_or, hc.1, hc.2, ne_eq, not_false_eq_true, not_true_eq_false]
          exact h
        · simp only [hd, if_true] at h
          cases h
          simp [hc.1, hc.2]
      · have hb : (fsEdge s.active s.fsPrev i.fs && decide (s.pos.toNat ≠ s.active.edgePos)) = false := by
          simpa using hc
        simp only [hb, Bool.false_eq_true, if_false] at h
        exact .inr (.inr (.inr (.inr (.inl ⟨rfl, rfl, hc, h⟩))))

/-! ### The assembler -/

/-- A sample of D bits takes D/8 bytes (43_frame_assembler.md R181). -/
@[simp] theorem length_pack {d : Nat} (v : BitVec d) : (pack v).length = d / 8 := by simp [pack]

/-- Byte b of a packed sample is bits [8b+7 : 8b] (43_frame_assembler.md R181). -/
theorem getElem_pack {d : Nat} (v : BitVec d) (b : Nat) (h : b < (pack v).length) : (pack v)[b] = v.extractLsb' (8 * b) 8 := by
  simp [pack]

/-- What an ASM step answers: one sample's bytes stored, and on to the next sample or the end (43_frame_assembler.md R183). -/
theorem State.asmStep_cases {s t : State} (h : s.asmStep = .next t) :
    (s.asmZero = true ∨ capExists s.params s.asmLine s.asmIndex = true) ∧
      s.asmAddr + s.asmBytes.length ≤ s.params.frameBytesMax ∧ t = (s.frameStore s.asmAddr s.asmBytes).asmAdvance := by
  unfold State.asmStep at h
  split at h
  · cases h
  · rename_i h1
    split at h
    · cases h
    · rename_i h2
      cases h
      exact ⟨by cases hz : s.asmZero <;> simp_all, by omega, rfl⟩

/-- When an ASM step faults: the word it reads or a byte it writes does not exist (log 16). -/
theorem State.asmStep_fault {s : State} {r : Fault} (h : s.asmStep = .fault r) :
    (s.asmZero = false ∧ capExists s.params s.asmLine s.asmIndex = false) ∨
      s.params.frameBytesMax < s.asmAddr + s.asmBytes.length := by
  unfold State.asmStep at h
  split at h
  · rename_i h1
    exact .inl (by simpa using h1)
  · split at h
    · rename_i h2
      exact .inr h2
    · cases h

/-! ### The host's transactions -/

/-- A configuration register's write keeps within the writable bits (41_sequencer.md R110 to R118). -/
inductive CfgWrite (c : CfgRegs) (d : Word) : CfgRegs → Prop where
  | cfg0 : CfgWrite c d { c with cfg0 := d &&& cfg0Mask }
  | rate : CfgWrite c d { c with rate := d &&& rateMask }
  | sysclk : CfgWrite c d { c with sysclk := d }
  | framebytes : CfgWrite c d { c with framebytes := d &&& framebytesMask }
  | chmap : CfgWrite c d { c with chmap := d &&& chmapMask }

/-- What a transaction does: whatever it is, one of these, and its response (30_encoding.md R94). -/
inductive ExecCase (i : Instr) (s : State) (r : Response) : State → Prop where
  | response : ExecCase i s r { s with resp := some r }
  | cfg (d : Word) (c : CfgRegs) (h : CfgWrite s.cfg d c) (hr : s.run = false) : ExecCase i s r { s with cfg := c, resp := some r }
  | flag (f : ErrFlag) : ExecCase i s r { s with errflags := s.errflags ||| 1#32 <<< errFlagBit f, resp := some r }
  | ctrl (d : Word) : ExecCase i s r { s with ctrl := d &&& ctrlMask, resp := some r }
  | irqEn (d : Word) : ExecCase i s r { s with irqEn := d &&& irqMask, resp := some r }
  | clearFlags (d : Word) (h : i = .w1cErrflags d) :
    ExecCase i s r { s with errflags := s.errflags &&& ~~~(d &&& errMask), resp := some r }
  | acknowledge (d : Word) (h : i = .w1cIrqPend d) :
    ExecCase i s r { s with irqPend := s.irqPend &&& ~~~(d &&& irqMask), resp := some r }
  | clearDiag (h : i = .cmdClrDiag) : ExecCase i s r { s with errflags := 0, missed := 0, resp := some r }
  | start (h : i = .cmdStart) (hr : s.run = false) (hb : s.asmBusy = false) (hv : validate s.params s.cfg = 0) :
    ExecCase i s r { s.startStreaming with resp := some r }
  | invalid (h : i = .cmdStart) (hr : s.run = false) (hb : s.asmBusy = false) (hv : validate s.params s.cfg ≠ 0) :
    ExecCase i s r { s with cfgErr := true, errcode := BitVec.ofNat 4 (validate s.params s.cfg), resp := some r }
  | stop (h : i = .cmdStop) (hr : s.run = true) : ExecCase i s r { s.stopStreaming with resp := some r }
  | decline (h : i = .cmdFrameReq) (hb : s.asmBusy = false) (ok : Bool) : ExecCase i s r { s.finish ok 0 with resp := some r }
  | assemble (h : i = .cmdFrameReq) (hb : s.asmBusy = false) (hv : s.cfgValid = true) :
    ExecCase i s r { s.startAssembly with frameReady := false, resp := some r }

/-- Every transaction answers a next state, which is one of the cases. -/
theorem exec_cases (i : Instr) (s : State) : ∃ r t, exec i s = .next t ∧ ExecCase i s r t := by
  have hcfg (d : Word) (c : CfgRegs) (h : CfgWrite s.cfg d c) : 
      ∃ r t, (.next (s.writeCfg c) : Host.Outcome State Fault Refusal) = .next t ∧ ExecCase i s r t := by
    unfold State.writeCfg
    split
    · exact ⟨_, _, rfl, .flag .wign⟩
    · rename_i hr
      exact ⟨_, _, rfl, .cfg d c h (by simpa using hr)⟩
  cases i
  case wrCfg0 d => exact hcfg d _ .cfg0
  case wrRate d => exact hcfg d _ .rate
  case wrSysclk d => exact hcfg d _ .sysclk
  case wrFramebytes d => exact hcfg d _ .framebytes
  case wrChmap d => exact hcfg d _ .chmap
  case wrCtrl d => exact ⟨_, _, rfl, .ctrl d⟩
  case wrIrqEn d => exact ⟨_, _, rfl, .irqEn d⟩
  case w1cErrflags d => exact ⟨_, _, rfl, .clearFlags d rfl⟩
  case w1cIrqPend d => exact ⟨_, _, rfl, .acknowledge d rfl⟩
  case cmdClrDiag => exact ⟨_, _, rfl, .clearDiag rfl⟩
  case cmdRsvd d => exact ⟨_, _, rfl, .flag .cmdIgn⟩
  case rdCapwin l h i =>
    simp only [exec, execRdCapwin]
    split <;> exact ⟨_, _, rfl, .response⟩
  case rdFramewin k =>
    simp only [exec, execRdFramewin]
    split <;> exact ⟨_, _, rfl, .response⟩
  case cmdStart =>
    simp only [exec, execCmdStart]
    split
    · exact ⟨_, _, rfl, .flag .cmdIgn⟩
    · rename_i h
      simp only [Bool.or_eq_true, not_or, Bool.not_eq_true] at h
      split
      · rename_i hv
        exact ⟨_, _, rfl, .invalid rfl h.1 h.2 hv⟩
      · rename_i hv
        exact ⟨_, _, rfl, .start rfl h.1 h.2 (not_not.1 hv)⟩
  case cmdStop =>
    simp only [exec, execCmdStop]
    split
    · rename_i h
      exact ⟨_, _, rfl, .stop rfl h⟩
    · exact ⟨_, _, rfl, .response⟩
  case cmdFrameReq =>
    simp only [exec, execCmdFrameReq]
    split
    · exact ⟨_, _, rfl, .flag .cmdIgn⟩
    · rename_i h
      have hb : s.asmBusy = false := by simpa using h
      split
      · exact ⟨_, _, rfl, .decline rfl hb false⟩
      · split
        · exact ⟨_, _, rfl, .decline rfl hb true⟩
        · split
          · exact ⟨_, _, rfl, .decline rfl hb false⟩
          · rename_i hv
            exact ⟨_, _, rfl, .assemble rfl hb (by simpa using hv)⟩
  all_goals exact ⟨_, _, rfl, .response⟩

/-- What HOST's turn answers: the transaction of the next word, or nothing where there is none (00_scope.md R9; log 3). -/
theorem hostTurn_cases {s t : State} (h : hostTurn s = .next t) :
    (s.bus = [] ∧ t = s) ∨
      ∃ w rest i, s.bus = w :: rest ∧ decode s.params w = some i ∧ exec i { s with bus := rest } = .next t := by
  unfold hostTurn at h
  split at h
  · rename_i hb
    exact .inl ⟨hb, by cases h; rfl⟩
  · rename_i w rest hb
    split at h
    · rename_i i hi
      exact .inr ⟨w, rest, i, hb, hi, h⟩
    · cases h

/-- HOST's turn never faults: a transaction has no fault (60_exceptions.md R240). -/
theorem hostTurn_ne_fault (s : State) (r : Fault) : hostTurn s ≠ .fault r := by
  unfold hostTurn
  split
  · exact nofun
  · rename_i w rest _
    split
    · rename_i i _
      obtain ⟨r', t, e, _⟩ := exec_cases i { s with bus := rest }
      rw [e]
      exact nofun
    · exact nofun

end Sys2Proof.Machine
end

