-- ==== Sys2Proof/Laws/Program.lean ====
section
/-! SUPPORT. What placing lines and running them does, said once; runs of turns; an access's place in the window. -/

namespace Sys2Proof.Machine

/-! ### Runs -/

/-- A run of two lists is one run after the other. -/
theorem runTurns_append (ts us : List Turn) (s : State) :
    runTurns (ts ++ us) s = andThen (runTurns ts s) (runTurns us) := by
  induction ts generalizing s with
  | nil => rfl
  | cons t ts ih =>
    rw [List.cons_append, runTurns_cons, runTurns_cons, andThen_assoc]
    congr 1
    exact funext ih

/-- A turn of ASM changes nothing while ASM_BUSY = 0 (log 4). -/
theorem asmTurn_idle {s : State} (h : s.asmBusy = false) : asmTurn s = .next s := by simp [asmTurn, h]

/-- A turn of SEQ changes nothing while RUN = 0 (log 4). -/
theorem seqTurn_idle {s : State} (h : s.run = false) : seqTurn s = .next s := by simp [seqTurn, h]

/-- Turns of ASM change nothing while ASM_BUSY = 0 (log 4). -/
theorem runTurns_asm_idle {s : State} (h : s.asmBusy = false) (n : Nat) :
    runTurns (List.replicate n .asm) s = .next s := by
  induction n with
  | zero => rfl
  | succ n ih => rw [List.replicate_succ, runTurns_cons, takeTurn, asmTurn_idle h, andThen_next, ih]

@[simp] theorem runSteps_zero (s : State) : runSteps 0 s = .next s := rfl

@[simp] theorem runSteps_succ (n : Nat) (s : State) : runSteps (n + 1) s = andThen (step s) (runSteps n) := rfl

/-- The end of an ASM step neither reads nor writes the list of turns. -/
theorem State.asmAdvance_with_turns (s : State) (ts : List Turn) :
    ({ s with turns := ts } : State).asmAdvance = { s.asmAdvance with turns := ts } := by
  show (if s.asmN.toNat + 1 = s.active.outSamples then _ else _) = _
  rw [State.asmAdvance]
  split <;> rfl

/-- An ASM step neither reads nor writes the list of turns. -/
theorem State.asmStep_with_turns (s : State) (ts : List Turn) :
    ({ s with turns := ts } : State).asmStep = andThen s.asmStep fun t => .next { t with turns := ts } := by
  show (if (!s.asmZero && !capExists s.params s.asmLine s.asmIndex) = true then (.fault .noSuchCapWord : Host.Outcome State Fault Refusal)
    else if s.params.frameBytesMax < s.asmAddr + s.asmBytes.length then .fault .noSuchFrameByte
    else .next ({ s.frameStore s.asmAddr s.asmBytes with turns := ts } : State).asmAdvance) = _
  rw [State.asmAdvance_with_turns, State.asmStep]
  split
  · rfl
  · split <;> rfl

/-- ASM's turn neither reads nor writes the list of turns. -/
theorem asmTurn_with_turns (s : State) (ts : List Turn) :
    asmTurn { s with turns := ts } = andThen (asmTurn s) fun t => .next { t with turns := ts } := by
  show (if s.asmBusy = true then ({ s with turns := ts } : State).asmStep
    else .next { s with turns := ts }) = _
  rw [State.asmStep_with_turns, asmTurn]
  split <;> rfl

/-- The machine's steps over listed turns of ASM are ASM's turns. -/
theorem runSteps_asm (n : Nat) (s : State) :
    runSteps n { s with turns := List.replicate n .asm } =
      andThen (runTurns (List.replicate n .asm) s) fun t => .next { t with turns := [] } := by
  induction n generalizing s with
  | zero => rfl
  | succ n ih =>
    rw [runSteps_succ, List.replicate_succ, runTurns_cons, andThen_assoc]
    show andThen (asmTurn { s with turns := List.replicate n .asm }) (runSteps n) = _
    rw [asmTurn_with_turns, andThen_assoc]
    show andThen (asmTurn s) _ = andThen (asmTurn s) _
    congr 1
    exact funext ih

/-! ### Lines -/

@[simp] theorem State.place_eq (s : State) (l : Line) :
    s.place l = { s with bus := s.bus ++ l.words, serial := s.serial ++ l.samples, turns := s.turns ++ l.turns } := rfl

/-- Placing lines appends their words, samples and turns, in order, and does nothing else. -/
theorem State.foldl_place_eq (s : State) (program : List Line) : program.foldl State.place s =
    { s with
      bus := s.bus ++ program.flatMap Line.words, serial := s.serial ++ program.flatMap Line.samples
      turns := s.turns ++ program.flatMap Line.turns } := by
  induction program generalizing s with
  | nil => simp
  | cons l ls ih =>
    rw [List.foldl_cons, ih]
    simp [List.append_assoc]

/-- ASM's turns for an assembly hold no turn of another agent. -/
theorem eq_asm_of_mem_assemblyTurns {t : Turn} (h : t ∈ assemblyTurns) : t = .asm := List.eq_of_mem_replicate h

/-- A line of one word, with nothing else listed: HOST's turn on that word. -/
theorem runLine_word {l : Line} {w : Txn} {s : State} (hw : l.words = [w]) (ht : l.turns = [.host])
    (hs : l.samples = []) (hb : s.bus = []) (hn : s.turns = []) : runLine l s = hostTurn { s with bus := [w] } := by
  rw [runLine, State.place_eq, hw, ht, hs, hb, hn, List.append_nil]
  exact andThen_pure _

/-- An ASMRUN, with no turn listed: ASM's turns until ASM_BUSY = 0. -/
theorem runLine_asmrun {s : State} (hn : s.turns = []) :
    runLine .asmrun s = andThen (runTurns assemblyTurns s) fun t => .next { t with turns := [] } := by
  have h : s.place .asmrun = { s with turns := List.replicate maxOutSamples .asm } := by
    simp [State.place_eq, Line.words, Line.samples, Line.turns, hn, assemblyTurns, -List.reduceReplicate]
  rw [runLine, h, List.length_replicate, runSteps_asm, assemblyTurns]

@[simp] theorem thenRun_next (s : State) (f : State → Option (Host.Outcome State Fault Refusal)) :
    thenRun (.next s) f = f s := rfl

/-- A run that ends after one outcome comes from a state that outcome answers. -/
theorem thenRun_eq_some_next_iff (o : Host.Outcome State Fault Refusal)
    (f : State → Option (Host.Outcome State Fault Refusal)) (t : State) :
    thenRun o f = some (.next t) ↔ ∃ s, o = .next s ∧ f s = some (.next t) := by
  cases o <;> simp [thenRun]

/-- A WAIT ends at a read for which its condition holds. -/
theorem runWait_ends {r : RegName} {mask val : Word} {s t : State} (n : Nat) (h : runLine (.rd r) s = .next t)
    (hw : t.waitEnds mask val = true) : runWait r mask val (n + 1) s = some (.next t) := by
  rw [runWait, h, thenRun_next, if_pos hw]

/-- After a read for which the condition does not hold, ASM goes on to its end and the WAIT reads again. -/
theorem runWait_again {r : RegName} {mask val : Word} {s t : State} (n : Nat) (h : runLine (.rd r) s = .next t)
    (hw : t.waitEnds mask val = false) :
    runWait r mask val (n + 1) s = thenRun (runLine .asmrun t) (runWait r mask val n) := by
  rw [runWait, h, thenRun_next, if_neg (by rw [hw]; exact Bool.false_ne_true)]

/-- A WAIT that has ended after some number of reads has ended, with the same outcome, after any greater one. -/
theorem runWait_mono (r : RegName) (mask val : Word) (o : Host.Outcome State Fault Refusal) (n : Nat) (s : State)
    (h : runWait r mask val n s = some o) : runWait r mask val (n + 1) s = some o := by
  induction n generalizing s with
  | zero => cases h
  | succ n ih =>
    rw [runWait] at h ⊢
    cases hr : runLine (.rd r) s <;> rw [hr] at h
    · rename_i t
      rw [thenRun_next] at h ⊢
      split at h
      · rename_i hw
        rw [if_pos hw, h]
      · rename_i hw
        rw [if_neg hw]
        cases ha : runLine .asmrun t <;> rw [ha] at h
        · exact ih _ h
        · exact h
        · exact h
    · exact h
    · exact h

/-! ### The window -/

/-- Exactly the addresses of the 16 KiB from the base on lie in the window (20_memory.md R78). -/
theorem inWindow_iff (base addr : Nat) : inWindow base addr = true ↔ base ≤ addr ∧ addr < base + 0x4000 := by
  rw [inWindow, Bool.and_eq_true, decide_eq_true_eq, decide_eq_true_eq, windowBytes]

/-- The address at an offset from the base has that offset (20_memory.md R78). -/
@[simp] theorem windowOffset_add (base : Nat) (off : Offset) : windowOffset base (base + off.toNat) = off := by
  simp [windowOffset]

end Sys2Proof.Machine
end

