-- ==== Sys2Proof/Tests/Slice0.lean ====
section
/-! SUPPORT. Tests: words written out from the spec's encoding, the checks of well-formedness, one-step tests with values
from 95_test_vectors.md, and for every statement with hypotheses a state that meets them. -/

namespace Sys2Proof.Tests

open Machine

/-- What an outcome's next state shows, none if there is none. -/
def after {α : Type} (o : Host.Outcome State Fault Refusal) (f : State → α) : Option α :=
  match o with
  | .next t => some (f t)
  | .fault _ => none
  | .refused _ => none

theorem after_eq_some {α : Type} {o : Host.Outcome State Fault Refusal} {f : State → α} {a : α} (h : after o f = some a) :
    ∃ t, o = .next t ∧ f t = a := by
  cases o <;> simp_all [after]

/-- A transaction's response. -/
def answer (i : Instr) (s : State) : Option (Option Response) := after (exec i s) State.resp

/-! ### Small states -/

/-- The reset state with a system clock stated: START passes (95_test_vectors.md X1). -/
def ready : State := { State.reset with cfg := { CfgRegs.atReset with sysclk := 12288000 } }

/-- Two channels at 2 kHz: four capture words a half, four samples of two bytes (95_test_vectors.md 3.5). -/
def four : CfgRegs := ⟨0x00210212, 2000, 1000000, 8, 0x00A29180⟩

/-- The same with FS_EDGE = 1 and FS_DELAY = 0. -/
def fourRising : CfgRegs := { four with cfg0 := 0x00110212 }

/-- Streaming in the configuration `four`, synced at position 0. -/
def running : State :=
  { State.reset with
    cfg := four, active := four, cfgValid := true, divq := 1000, run := true, ctrl := 3, fsv := true, synced := true }

/-- `running` with an assembly of the read-ready half that has just started. -/
def busy : State := { running with asmBusy := true, primed := true, rh := 0x3F }

/-! ### Decoding: every row of 30_encoding.md R94, its word written out -/

theorem test_decode_identification_and_diagnostics :
    decode Params.sample 0b000000000000000000000000000000000000000000000000 = some .rdId ∧
    decode Params.sample 0b100000000000000000000000000000000000000000000101 = some (.wrId 5) ∧
    decode Params.sample 0b000000000000010000000000000000000000000000000000 = some .rdParams ∧
    decode Params.sample 0b100000000000010010000000000000000000000000000001 = some (.wrParams 0x80000001) ∧
    decode Params.sample 0b000000000010010000000000000000000000000000000000 = some .rdStatus ∧
    decode Params.sample 0b100000000010010000000000000000000000000000000000 = some (.wrStatus 0) ∧
    decode Params.sample 0b000000000010100000000000000000000000000000000000 = some .rdDiv ∧
    decode Params.sample 0b100000000010100000000000000000000000000100000000 = some (.wrDiv 0x100) ∧
    decode Params.sample 0b000000000010110000000000000000000000000000000000 = some .rdErrflags ∧
    decode Params.sample 0b100000000010110000000000000000000000000000000100 = some (.w1cErrflags 4) ∧
    decode Params.sample 0b100000000010001000000000000000000000000000000001 = some (.busErr true 0x22 1) := by decide

theorem test_decode_configuration :
    decode Params.sample 0b000000000000100000000000000000000000000000000000 = some .rdCfg0 ∧
    decode Params.sample 0b100000000000100000000000001000010000001000110110 = some (.wrCfg0 0x00210236) ∧
    decode Params.sample 0b000000000000110000000000000000000000000000000000 = some .rdRate ∧
    decode Params.sample 0b100000000000110000000000000000000011111010000000 = some (.wrRate 16000) ∧
    decode Params.sample 0b000000000001000000000000000000000000000000000000 = some .rdSysclk ∧
    decode Params.sample 0b100000000001000000000000101110111000000000000000 = some (.wrSysclk 12288000) ∧
    decode Params.sample 0b000000000001010000000000000000000000000000000000 = some .rdFramebytes ∧
    decode Params.sample 0b100000000001010000000000000000000000000011000000 = some (.wrFramebytes 192) ∧
    decode Params.sample 0b000000000001100000000000000000000000000000000000 = some .rdChmap ∧
    decode Params.sample 0b100000000001100000000000101000101001000110000000 = some (.wrChmap 0x00A29180) := by decide

theorem test_decode_delivery :
    decode Params.sample 0b000000000001110000000000000000000000000000000000 = some .rdCtrl ∧
    decode Params.sample 0b100000000001110000000000000000000000000000000011 = some (.wrCtrl 3) ∧
    decode Params.sample 0b000000000100000000000000000000000000000000000000 = some .rdFrameLen ∧
    decode Params.sample 0b100000000100000000000000000000000000000000000101 = some (.wrFrameLen 5) ∧
    decode Params.sample 0b001101101011110000000000000000000000000000000000 = some (.rdFramewin 431) ∧
    decode Params.sample 0b101100000000100000000000000000000000000000000111 = some (.wrFramewin 2 7) := by decide

theorem test_decode_commands :
    decode Params.sample 0b000000000010000000000000000000000000000000000000 = some .rdCmd ∧
    decode Params.sample 0b100000000010000000000000000000000000000000000000 = some .cmdNop ∧
    decode Params.sample 0b100000000010000000000000000000000000000000000001 = some .cmdStart ∧
    decode Params.sample 0b100000000010000000000000000000000000000000000010 = some .cmdStop ∧
    decode Params.sample 0b100000000010000000000000000000000000000000000011 = some .cmdFrameReq ∧
    decode Params.sample 0b100000000010000000000000000000000000000000000100 = some .cmdClrDiag ∧
    decode Params.sample 0b100000000010000000000000000000000000000000000101 = some (.cmdRsvd 5) := by decide

theorem test_decode_capture :
    decode Params.sample 0b000000000011000000000000000000000000000000000000 = some .rdIrqPend ∧
    decode Params.sample 0b100000000011000000000000000000000000000100000000 = some (.w1cIrqPend 0x100) ∧
    decode Params.sample 0b000000000011010000000000000000000000000000000000 = some .rdIrqEn ∧
    decode Params.sample 0b100000000011010000000000000000000000000100000001 = some (.wrIrqEn 0x101) ∧
    decode Params.sample 0b000000000011100000000000000000000000000000000000 = some .rdMissed ∧
    decode Params.sample 0b100000000011100000000000000000000000000000000111 = some (.wrMissed 7) ∧
    decode Params.sample 0b000000000011110000000000000000000000000000000000 = some .rdHalfcnt ∧
    decode Params.sample 0b100000000011110000000000000000000000000000001001 = some (.wrHalfcnt 9) ∧
    decode Params.sample 0b000110110111110000000000000000000000000000000000 = some (.rdCapwin 2 true 95) ∧
    decode Params.sample 0b100101000000110000000000000000000000000000000111 = some (.wrCapwin 1 false 3 7) := by decide

/-- The table of 95_test_vectors.md 3.1: the words that are errors or no transaction. -/
theorem test_decode_errors :
    decode Params.sample 0x802200000001 = some (.busErr true 0x0022 1) ∧
    decode Params.sample 0x002600000000 = some (.busErr false 0x0026 0) ∧
    decode Params.sample 0x004400000000 = some (.busErr false 0x0044 0) ∧
    decode Params.sample 0x0FFC00000000 = some (.busErr false 0x0FFC 0) ∧
    decode Params.sample 0x118000000000 = some (.busErr false 0x1180 0) ∧
    decode Params.sample 0x1C0000000000 = some (.busErr false 0x1C00 0) ∧
    decode Params.sample 0x280000000000 = some (.busErr false 0x2800 0) ∧
    decode Params.sample 0x36C000000000 = some (.busErr false 0x36C0 0) ∧
    decode Params.sample 0xC02000000001 = none := by decide

/-- The window words of 95_test_vectors.md 3.1. -/
theorem test_decode_windows :
    decode Params.sample 0x100000000000 = some (.rdCapwin 0 false 0) ∧
    decode Params.sample 0x117C00000000 = some (.rdCapwin 0 false 95) ∧
    decode Params.sample 0x120000000000 = some (.rdCapwin 0 true 0) ∧
    decode Params.sample 0x180000000000 = some (.rdCapwin 2 false 0) ∧
    decode Params.sample 0x900000000000 = some (.wrCapwin 0 false 0 0) ∧
    decode Params.sample 0x300000000000 = some (.rdFramewin 0) ∧
    decode Params.sample 0x36BC00000000 = some (.rdFramewin 431) ∧
    decode Params.sample 0xB00000000000 = some (.wrFramewin 0 0) := by decide

/-- A read's DATA is don't-care (30_encoding.md R92); the whole word of a command is compared (R96). -/
theorem test_decode_data :
    decode Params.sample 0x0000FFFFFFFF = some .rdId ∧ decode Params.sample 0x0044FFFFFFFF = some (.busErr false 0x44 0) ∧
    decode Params.sample 0x802000000101 = some (.cmdRsvd 0x101) := by decide

theorem test_decodeTableWord : decodeTableWord 48 0x802000000001 = some .cmdStart := by decide

/-! ### WellFormed refuses an ill-formed term for each check -/

theorem test_wf_cmdRsvd : (Instr.cmdRsvd 4).wf Params.sample = false ∧ (Instr.cmdRsvd 5).wf Params.sample = true := by decide

theorem test_wf_rdCapwin :
    (Instr.rdCapwin 0 false 96).wf Params.sample = false ∧ (Instr.rdCapwin 3 false 0).wf Params.sample = false ∧
    (Instr.rdCapwin 2 true 95).wf Params.sample = true := by decide

theorem test_wf_wrCapwin :
    (Instr.wrCapwin 0 false 96 0).wf Params.sample = false ∧ (Instr.wrCapwin 3 false 0 0).wf Params.sample = false := by decide

theorem test_wf_framewin :
    (Instr.rdFramewin 432).wf Params.sample = false ∧ (Instr.wrFramewin 432 0).wf Params.sample = false ∧
    (Instr.rdFramewin 431).wf Params.sample = true := by decide

theorem test_wf_busErr :
    (Instr.busErr true 0x20 0).wf Params.sample = false ∧ (Instr.busErr false 0x44 1).wf Params.sample = false ∧
    (Instr.busErr true 0x44 1).wf Params.sample = true := by decide

/-! ### HOST's step from reset -/

/-- A word presented next is fetched and performed (95_test_vectors.md 3.1). -/
theorem test_step_rdId :
    after (step (State.reset.withFetchWord 48 0x000000000000)) State.resp = some (some (.read 0x48540001 false)) := by decide

theorem test_step_start : after (step (State.reset.withFetchWord 48 0x802000000001)) State.statusWord = some 0x00008100 := by
  decide

theorem test_step_illegal : step (State.reset.withFetchWord 48 0x400000000000) = .refused .illegalTransaction := rfl

/-! ### Registers (95_test_vectors.md 3.2, 3.10, 3.12) -/

theorem test_rdId : answer .rdId State.reset = some (some (.read 0x48540001 false)) := by decide
theorem test_wrId : answer (.wrId 0) State.reset = some (some (.write false)) := by decide
theorem test_rdParams : answer .rdParams State.reset = some (some (.read 0x00066003 false)) := by decide
theorem test_wrParams : answer (.wrParams 0xFFFFFFFF) State.reset = some (some (.write false)) := by decide
theorem test_rdCfg0 : answer .rdCfg0 State.reset = some (some (.read 0x00210212 false)) := by decide
theorem test_wrCfg0 : after (exec (.wrCfg0 0xFFFFFFFF) State.reset) (·.cfg.cfg0) = some 0x0033F377 := by decide
theorem test_rdRate : answer .rdRate State.reset = some (some (.read 0x0000BB80 false)) := by decide
theorem test_wrRate : after (exec (.wrRate 0xFFFFFFFF) State.reset) (·.cfg.rate) = some 0x000FFFFF := by decide
theorem test_wrRate_running :
    after (exec (.wrRate 16000) running) (fun t => (t.cfg.rate, t.errflags)) = some (2000, 0x8) := by decide
theorem test_rdSysclk : answer .rdSysclk ready = some (some (.read 0x00BB8000 false)) := by decide
theorem test_wrSysclk : after (exec (.wrSysclk 0xFFFFFFFF) State.reset) (·.cfg.sysclk) = some 0xFFFFFFFF := by decide
theorem test_rdFramebytes : answer .rdFramebytes State.reset = some (some (.read 0xC0 false)) := by decide
theorem test_wrFramebytes : after (exec (.wrFramebytes 0x123456) State.reset) (·.cfg.framebytes) = some 0x3456 := by decide
theorem test_rdChmap : answer .rdChmap State.reset = some (some (.read 0x00A29180 false)) := by decide
theorem test_wrChmap : after (exec (.wrChmap 0xFFFFFFFF) State.reset) (·.cfg.chmap) = some 0x00FFFFFF := by decide
theorem test_rdCtrl : answer .rdCtrl running = some (some (.read 3 false)) := by decide
theorem test_wrCtrl : after (exec (.wrCtrl 0xFFFFFFFF) State.reset) State.ctrl = some 3 := by decide
theorem test_rdCmd : answer .rdCmd running = some (some (.read 0 false)) := by decide
theorem test_rdStatus : answer .rdStatus { running with primed := true, wt := 1, irqPend := 1, irqEn := 0x101 } =
    some (some (.read 0x01010047 false)) := by decide
theorem test_wrStatus : after (exec (.wrStatus 0) { State.reset with cfgErr := true }) State.cfgErr = some true := by decide
theorem test_rdDiv : answer .rdDiv { ready with divq := 512 } = some (some (.read 0x200 false)) := by decide
theorem test_wrDiv : after (exec (.wrDiv 0x100) { ready with divq := 512 }) State.divq = some 0x200 := by decide
theorem test_rdErrflags : answer .rdErrflags { ready with errflags := 0xC } = some (some (.read 0xC false)) := by decide
theorem test_w1cErrflags : after (exec (.w1cErrflags 4) { ready with errflags := 0xC }) State.errflags = some 8 := by decide
theorem test_rdIrqPend : answer .rdIrqPend { ready with irqPend := 0x107 } = some (some (.read 0x107 false)) := by decide
theorem test_w1cIrqPend : after (exec (.w1cIrqPend 1) { ready with irqPend := 0x107 }) State.irqPend = some 0x106 := by decide
theorem test_w1cIrqPend_frame : after (exec (.w1cIrqPend 0x100) { ready with irqPend := 0x101 }) State.irqPend = some 1 := by
  decide
theorem test_rdIrqEn : answer .rdIrqEn { ready with irqEn := 0x101 } = some (some (.read 0x101 false)) := by decide
theorem test_wrIrqEn : after (exec (.wrIrqEn 0xFFFFFFFF) State.reset) State.irqEn = some 0x13F := by decide
theorem test_wrIrqEn_line : after (exec (.wrIrqEn 4) { ready with irqPend := 4 }) State.irqO = some true := by decide
theorem test_rdMissed : answer .rdMissed { ready with missed := 7 } = some (some (.read 7 false)) := by decide
theorem test_wrMissed : after (exec (.wrMissed 0) { ready with missed := 7 }) State.missed = some 7 := by decide
theorem test_rdHalfcnt : answer .rdHalfcnt { ready with halfcnt := 9 } = some (some (.read 9 false)) := by decide
theorem test_wrHalfcnt : after (exec (.wrHalfcnt 0) { ready with halfcnt := 9 }) State.halfcnt = some 9 := by decide
theorem test_rdFrameLen : answer .rdFrameLen { ready with frameLen := 192 } = some (some (.read 192 false)) := by decide
theorem test_wrFrameLen : after (exec (.wrFrameLen 5) { ready with frameLen := 192 }) State.frameLen = some 192 := by decide
theorem test_irq_disabled : ({ ready with irqPend := 0x100, irqEn := 1 } : State).irqO = false := by decide

/-! ### Commands (95_test_vectors.md 3.3, 3.4, 3.9, 3.10) -/

theorem test_cmdNop : answer .cmdNop ready = some (some (.write false)) := by decide
theorem test_cmdStart :
    after (exec .cmdStart ready) (fun t => (t.statusWord, t.divq, t.active)) = some (0x41, 0x200, ready.cfg) := by decide
theorem test_cmdStart_ignored : after (exec .cmdStart running) State.errflags = some 0x10 := by decide
theorem test_cmdStop :
    after
      (exec .cmdStop
        { running with
          primed := true, wt := 1, halfcnt := 1, irqPend := 0x101, frameReady := true, frameOk := true })
    (fun t => (t.statusWord, t.halfcnt, t.irqPend)) = some (0x00010070, 1, 0x101) := by decide
theorem test_cmdStop_stopped : after (exec .cmdStop ready) State.errflags = some 0 := by decide
theorem test_cmdFrameReq_notStreaming : after (exec .cmdFrameReq { State.reset with ctrl := 1 })
    (fun t => (t.statusWord, t.frameLen, t.irqPend)) = some (0x30, 0, 0x100) := by decide
theorem test_cmdFrameReq_accepted : after (exec .cmdFrameReq { running with primed := true, wt := 1, frameReady := true })
    (fun t => (t.asmBusy, t.asmZero, t.frameReady, t.rh)) = some (true, false, false, 0x3E) := by decide
theorem test_cmdClrDiag : after (exec .cmdClrDiag { ready with missed := 7, errflags := 5, halfcnt := 9, irqPend := 1 })
    (fun t => (t.missed, t.errflags, t.halfcnt, t.irqPend)) = some (0, 0, 9, 1) := by decide
theorem test_cmdRsvd : after (exec (.cmdRsvd 5) ready) State.errflags = some 0x10 := by decide

/-- 95_test_vectors.md 3.3. -/
theorem test_validate :
    [(0x00210212, 0x00A29180, 12288000, 48000, 192), (0x00210212, 0x00A29180, 0, 48000, 192),
     (0x00210217, 0x00A29180, 12288000, 48000, 1), (0x00210242, 0x00A29180, 12288000, 48000, 192),
     (0x00210312, 0x00A29180, 12288000, 48000, 192), (0x00214212, 0x00A29180, 12288000, 48000, 192),
     (0x00210212, 0x00A29180, 12288000, 44100, 192), (0x00210112, 0x00A29180, 12288000, 48000, 192),
     (0x00210212, 0x00A29180, 12288000, 48000, 190), (0x00210211, 0x000000F0, 12288000, 48000, 96)].map
      (fun (c, m, f, r, b) => validate Params.sample ⟨c, r, f, b, m⟩) = [0, 8, 1, 2, 3, 4, 5, 6, 7, 0] := by decide

/-- 95_test_vectors.md 3.3: the divider's rounding and its limits. -/
theorem test_divQ :
    divQ 63874 1000 1 = 255 ∧ divQ 63875 1000 1 = 256 ∧ divQ 4194303874 1000 1 = 0xFFFFFF ∧
    divQ 4194303875 1000 1 = 0x1000000 ∧ divQ 125000000 48000 2 = 5208 ∧ divQ 6132000 48000 2 = 256 := by decide

/-! ### Windows and bus errors (95_test_vectors.md 3.1, 3.10) -/

theorem test_rdCapwin :
    answer (.rdCapwin 2 true 95) (State.reset.capStore 2 true 95 0x12345678) = some (some (.read 0x12345678 false)) := by decide
theorem test_rdCapwin_unmapped : answer (.rdCapwin 3 false 0) State.reset = some (some (.read 0 true)) := by decide
theorem test_wrCapwin : answer (.wrCapwin 0 false 0 7) State.reset = some (some (.write true)) := by decide
theorem test_rdFramewin :
    answer (.rdFramewin 431) (State.reset.frameStore 1724 [0xEF, 0xBE, 0xAD, 0xDE]) = some (some (.read 0xDEADBEEF false)) := by
  decide
theorem test_rdFramewin_unmapped : answer (.rdFramewin 432) State.reset = some (some (.read 0 true)) := by decide
theorem test_wrFramewin : answer (.wrFramewin 0 7) State.reset = some (some (.write true)) := by decide
theorem test_busErr : answer (.busErr false 0x44 0) running = some (some (.read 0 true)) := by decide
theorem test_busErr_write : after (exec (.busErr true 0x22 1) ready) (fun t => (t.resp, t.run)) =
    some (some (.write true), false) := by decide

/-! ### SEQ and ASM (95_test_vectors.md 3.5 to 3.8) -/

/-- The falling edge acquires sync, and with FS_DELAY = 1 its bit is discarded. -/
theorem test_bit_acquires : after ({ running with synced := false, fsPrev := true }.bitEvent ⟨false, 1⟩)
    (fun t => (t.synced, t.pos, t.lane 0)) = some (true, 0, 0) := by decide

/-- A falling edge at p = 41 sets SYNC_ERR and rewinds widx from 3 to 2. -/
theorem test_bit_realigns : after ({ running with fsPrev := true, pos := 41, widx := 3 }.bitEvent ⟨false, 0⟩)
    (fun t => (t.errflags, t.widx, t.pos)) = some (1, 2, 0) := by decide

/-- The last bit of the last slot of a half: the word is stored and the completion event happens. -/
theorem test_bit_completes :
    after ({ running with pos := 63, widx := 3, fsPrev := true, sr := #v[0x091A2B3C, 0, 0, 0, 0, 0] }.bitEvent ⟨false, 0⟩)
      (fun t => (t.capWord 0 false 3, t.statusWord, t.widx, t.halfcnt, t.irqPend)) =
    some (0x12345678, 0x00010047, 0, 1, 1) := by decide

/-- A completion that finds HALF_DONE pending is missed, and one during an assembly tears it. -/
theorem test_bit_misses :
    after ({ busy with pos := 63, widx := 3, irqPend := 1, missed := 0xFFFFFFFF, halfcnt := 0xFFFFFFFF }.bitEvent ⟨true, 0⟩)
      (fun t => (t.errflags, t.missed, t.halfcnt)) = some (6, 0xFFFFFFFF, 0) := by decide

/-- 95_test_vectors.md 3.7. -/
theorem test_extract_pack :
    pack (extract 0x12345678 16) = [0x34, 0x12] ∧ pack (extract 0x12345678 24) = [0x56, 0x34, 0x12] ∧
    pack (extract 0xFFFF8000 16) = [0xFF, 0xFF] ∧ pack (extract 0xDDEEFF00 24) = [0xFF, 0xEE, 0xDD] := by decide

/-- One ASM step: channel 1 of time slot 1 is word 3 of the snapshot's half. -/
theorem test_asmStep : after (({ busy with asmN := 3 }.capStore 0 true 3 0x12345678).asmStep)
    (fun t => (t.frameByte 6, t.frameByte 7, t.asmBusy, t.frameLen, t.statusWord)) =
    some (0x34, 0x12, false, 8, 0x00000077) := by decide

/-! ### Witnesses: states and operands that meet each statement's hypotheses together -/

theorem running_inv : running.Inv :=
  ⟨⟨by decide, by decide, by decide, by decide, by decide, by decide, by decide, by decide, by decide, by decide, by decide,
      by decide⟩,
    ⟨by decide, by decide, by decide, by decide, by decide⟩,
    ⟨by decide, by decide, by decide, by decide, by decide, by decide, by decide⟩, fun _ => .inl rfl, ⟨by decide, by decide⟩,
    ⟨by decide, by decide, by decide, by decide⟩⟩

theorem busy_inv : busy.Inv :=
  ⟨⟨by decide, by decide, by decide, by decide, by decide, by decide, by decide, by decide, by decide, by decide, by decide,
      by decide⟩,
    ⟨by decide, by decide, by decide, by decide, by decide⟩,
    ⟨by decide, by decide, by decide, by decide, by decide, by decide, by decide⟩, fun _ => .inl rfl, ⟨by decide, by decide⟩,
    ⟨by decide, by decide, by decide, by decide⟩⟩

/-! #### Encoding -/

theorem witness_DecodeAfterEncodeIsIdentity :
    (Instr.rdCapwin 2 true 95).wf Params.sample = true ∧ (Instr.rdFramewin 431).wf Params.sample = true ∧
    (Instr.cmdRsvd 5).wf Params.sample = true ∧ (Instr.busErr true 0x1180 7).wf Params.sample = true ∧
    (Instr.busErr false 0x36C0 0).wf Params.sample = true := by decide

theorem witness_DecoderIsTotalOnLegalWords :
    (0x117C00000000 : Txn).getLsbD 46 = false ∧ (0x400000000000 : Txn).getLsbD 46 = true := by decide

theorem witness_EncodeAfterDecodeIsIdentityOnCanonicalWords :
    (decode Params.sample 0x802000000101 = some (.cmdRsvd 0x101) ∧ (0x802000000101 : Txn).getLsbD 47 = true) ∧
    (decode Params.sample 0x36BC00000000 = some (.rdFramewin 431) ∧ (0x36BC00000000 : Txn).extractLsb' 0 32 = 0) := by decide

theorem witness_StepRunsTheDecodedTransaction :
    ∃ s : State, ∃ ts w rest i, s.turns = .host :: ts ∧ s.bus = w :: rest ∧ decode s.params w = some i :=
  ⟨{ State.reset with turns := [.host], bus := [0x802000000001] }, [], 0x802000000001, [], .cmdStart, by decide⟩

theorem witness_StepRunsTheDecodedTransaction_agents :
    (running.run = true ∧ ({ running with turns := [.seq], serial := [⟨true, 1⟩] } : State).turns = .seq :: []) ∧
    (running.serial = [] ∧ State.reset.run = false ∧ State.reset.bus = []) ∧
    (busy.asmBusy = true ∧ running.asmBusy = false ∧ ({ busy with turns := [.asm] } : State).turns = .asm :: []) := by decide

theorem witness_IllegalWordIsRefused :
    ∃ s : State, ∃ ts, ∃ w : Txn, ∃ rest, s.turns = .host :: ts ∧ s.bus = w :: rest ∧ w.getLsbD 46 = true :=
  ⟨{ State.reset with turns := [.host], bus := [0x400000000000] }, [], 0x400000000000, [], by decide⟩

/-- What HOST's turn answers to one word, from reset. -/
def respond (w : Txn) : Option (Option Response) := after (hostTurn { State.reset with bus := [w] }) State.resp

theorem witness_ErrorResponseExactlyWhereTheMapSays :
    ∃ s : State, ∃ w : Txn, ∃ rest, s.bus = w :: rest ∧ w.getLsbD 46 = false :=
  ⟨{ State.reset with bus := [0x118000000000] }, 0x118000000000, [], by decide⟩

/-- The clauses at the edges of their ranges: the errors of a read. -/
theorem witness_ErrorResponse_reads :
    [0x004300000000, 0x004400000000, 0x0FFC00000000, 0x118000000000, 0x1C0000000000, 0x2FFC00000000, 0x36C000000000,
      0x3FFC00000000].map respond = List.replicate 8 (some (some (.read 0 true))) := by decide

/-- The clauses at the edges of their ranges: the errors of a write. -/
theorem witness_ErrorResponse_writes :
    [0x800100000000, 0x900000000000, 0xB00000000000, 0xBFFC00000000].map respond =
      List.replicate 4 (some (some (.write true))) := by decide

/-- Just inside: the last register, and the last word of a half and of the frame window. -/
theorem witness_ErrorResponse_okay :
    [0x804000000000, 0x802400000000].map respond = List.replicate 2 (some (some (.write false))) ∧
    [0x004000000000, 0x117C00000000, 0x1B7C00000000, 0x36BC00000000].map
      (fun w : Txn => after (hostTurn { State.reset with bus := [w] }) State.busErrOut) = List.replicate 4 (some false) := by
  decide

theorem witness_ReadsHaveNoSideEffect :
    ∃ s : State, ∃ w : Txn, ∃ rest, s.bus = w :: w :: rest ∧ w.getLsbD 46 = false ∧ w.getLsbD 47 = false :=
  ⟨{ running with bus := [0x002400000000, 0x002400000000] }, 0x002400000000, [], by decide⟩

/-! #### Registers and commands -/

theorem witness_RegisterWrites : State.reset.run = false ∧ running.run = true := by decide

theorem witness_WriteThenReadShowsTheNamedFields : State.reset.run = false := by decide

theorem witness_WritesThatChangeNothing : running.run = true ∧ Instr.wrId 0 ∈ [Instr.wrId 0, .wrParams 0] := by decide

theorem witness_StartCommand :
    (running.run = true ∧ ({ busy with run := false } : State).asmBusy = true) ∧
    (State.reset.run = false ∧ State.reset.asmBusy = false ∧ validate State.reset.params State.reset.cfg ≠ 0) ∧
    (ready.run = false ∧ ready.asmBusy = false ∧ validate ready.params ready.cfg = 0) := by decide

theorem witness_StopCommand : ready.run = false ∧ running.run = true := by decide

theorem witness_FrameRequestCommand :
    busy.asmBusy = true ∧ (State.reset.asmBusy = false ∧ State.reset.ctrl.getLsbD 0 = false) ∧
    (({ ready with ctrl := 1 } : State).ctrl.getLsbD 0 = true ∧ ({ ready with ctrl := 1 } : State).ctrl.getLsbD 1 = false) ∧
    (({ ready with ctrl := 3 } : State).ctrl.getLsbD 1 = true ∧ ready.cfgValid = false) ∧
    (running.asmBusy = false ∧ running.ctrl.getLsbD 0 = true ∧ running.ctrl.getLsbD 1 = true ∧ running.cfgValid = true) := by
  decide

theorem witness_CaptureWindowRead :
    ((2#3).toNat < Params.sample.nlinesMax ∧ (95#7).toNat < Params.sample.halfWordsMax) ∧
    ¬ ((3#3).toNat < Params.sample.nlinesMax ∧ (0#7).toNat < Params.sample.halfWordsMax) ∧
    ¬ ((0#3).toNat < Params.sample.nlinesMax ∧ (96#7).toNat < Params.sample.halfWordsMax) := by decide

theorem witness_FrameWindowRead :
    4 * (431#10).toNat < 18 * Params.sample.halfWordsMax ∧ ¬ 4 * (432#10).toNat < 18 * Params.sample.halfWordsMax := by decide

/-! #### Divider, extractor -/

theorem witness_DividerIsNearestTiesUp : 1 ≤ 1000 ∧ 1 ≤ 1 ∧ divQ 63875 1000 1 = 256 := by decide

theorem witness_AchievedRateIsWithinHalfADividerUnit : 1 ≤ 48000 ∧ 1 ≤ 2 ∧ 1 ≤ divQ 125000000 48000 2 := by decide

/-- The last cycle of a period with the bit clock high. -/
def beforeToggle : State := { running with bclk := true, divCnt := 2 }

/-- The first cycle of a period with the bit clock low, 3 ticks, and `beforeToggle`, 1 + 4 ticks. -/
theorem witness_TicksReachTheRisingEdge :
    (running.divCnt < running.divPeriod ∧ 1 ≤ running.divInt ∧
      2 + 1 = (running.divPeriod - running.divCnt) + (if running.bclk then running.divToggle.divPeriod else 0)) ∧
    (beforeToggle.divCnt < beforeToggle.divPeriod ∧ 1 ≤ beforeToggle.divInt ∧
      4 + 1 = (beforeToggle.divPeriod - beforeToggle.divCnt) +
        (if beforeToggle.bclk then beforeToggle.divToggle.divPeriod else 0)) := by decide

theorem witness_ExtractIsTheTruncatedShift : 1 ≤ 1 ∧ 1 ≤ 24 ∧ 24 ≤ 32 ∧ 32 ≤ 32 := by decide

theorem witness_ExtractRoundTrip :
    (16 ≤ 32 ∧ 0xFFFF < 2 ^ 16 ∧ 0xFFFF < 2 ^ (32 - 16)) ∧ (32 ≤ 32 ∧ 0xFFFFFFFF < 2 ^ 32 ∧ 0 < 2 ^ (32 - 32)) := by decide

theorem witness_PackIsLittleEndian : (16 = 16 ∨ 16 = 24) ∧ (24 = 16 ∨ 24 = 24) := by decide

/-! #### SEQ -/

theorem witness_AcquisitionOfFrameSync :
    ({ running with fsv := false } : State).fsv = false ∧
    (running.fsv = true ∧ ({ running with synced := false } : State).synced = false) ∧
    (¬ (if four.cfg0.getLsbD 20 then false = false ∧ true = true else false = true ∧ true = false)) ∧
    ((if four.cfg0.getLsbD 20 then true = false ∧ false = true else true = true ∧ false = false) ∧
      four.cfg0.getLsbD 21 = true) ∧
    ((if fourRising.cfg0.getLsbD 20 then false = false ∧ true = true else false = true ∧ true = false) ∧
      fourRising.cfg0.getLsbD 21 = false) := by decide

theorem witness_UnexpectedEdgeRealigns :
    (running.fsv = true ∧ running.synced = true ∧ fsEdge four true false = true ∧ four.cfg0.getLsbD 21 = true ∧
      62 ≠ (32 * four.slots - (four.cfg0.getLsbD 21).toNat) % (32 * four.slots)) ∧
    (fsEdge fourRising false true = true ∧ fourRising.cfg0.getLsbD 21 = false ∧
      1 ≠ (32 * fourRising.slots - (fourRising.cfg0.getLsbD 21).toNat) % (32 * fourRising.slots)) := by decide

theorem witness_BitInsideASlotIsShiftedIn :
    running.fsv = true ∧ running.synced = true ∧
    ¬ (fsEdge running.active running.fsPrev false = true ∧ running.pos.toNat ≠ running.active.edgePos) ∧
    running.pos.toNat % 32 ≠ 31 := by decide

/-- The last bit of a slot, within the half. -/
def lastBit : State := { running with pos := 31, widx := 2 }

/-- The last bit of a half, with the expected edge. -/
def lastOfHalf : State := { running with pos := 63, widx := 3, fsPrev := true }

theorem witness_EndOfSlotStoresEveryLane :
    lastBit.fsv = true ∧ lastBit.synced = true ∧
    ¬ (fsEdge lastBit.active lastBit.fsPrev true = true ∧ lastBit.pos.toNat ≠ lastBit.active.edgePos) ∧
    lastBit.pos.toNat % 32 = 31 ∧ lastBit.active.nlines ≤ lastBit.params.nlinesMax ∧
    lastBit.widx.toNat < lastBit.params.halfWordsMax ∧ lastBit.widx.toNat + 1 ≠ lastBit.active.half := by decide

/-- Without and with a pending HALF_DONE. -/
theorem witness_EndOfHalfIsOneCompletionEvent :
    (lastOfHalf.fsv = true ∧ lastOfHalf.synced = true ∧
      ¬ (fsEdge lastOfHalf.active lastOfHalf.fsPrev false = true ∧ lastOfHalf.pos.toNat ≠ lastOfHalf.active.edgePos) ∧
      lastOfHalf.pos.toNat % 32 = 31 ∧ lastOfHalf.active.nlines ≤ lastOfHalf.params.nlinesMax ∧
      lastOfHalf.widx.toNat < lastOfHalf.params.halfWordsMax ∧ lastOfHalf.widx.toNat + 1 = lastOfHalf.active.half) ∧
    (¬ ∃ l < lastOfHalf.active.nlines, lastOfHalf.irqPend.getLsbD l = true) ∧
    ∃ l < lastOfHalf.active.nlines, ({ lastOfHalf with irqPend := 1 } : State).irqPend.getLsbD l = true := by decide

theorem witness_BitEventFrame : ∃ t, lastOfHalf.bitEvent ⟨false, 1⟩ = .next t := ⟨_, rfl⟩

theorem witness_ReadReadyHalfIsStable : ∃ t, lastBit.bitEvent ⟨true, 1⟩ = .next t := ⟨_, rfl⟩

/-- A run while stopped: a write to CTRL, a declined request, and idle turns of the other agents. -/
def stoppedRun : State := { ready with bus := [0x801C00000001, 0x802000000003] }

theorem witness_NothingIsCapturedWhileStopped :
    stoppedRun.run = false ∧ (∀ w ∈ stoppedRun.bus, w ≠ encode .cmdStart) ∧ Turn.reset ∉ [Turn.host, .cycle true, .seq] :=
  ⟨rfl, List.forall_mem_cons.2 ⟨by decide, List.forall_mem_cons.2 ⟨by decide, nofun⟩⟩, by decide⟩

theorem witness_NothingIsCapturedWhileStopped_run :
    ∃ t, runTurns [.host, .cycle true, .seq] stoppedRun = .next t ∧ t.irqPend = 0x100 := after_eq_some (by decide)

/-! #### ASM -/

theorem witness_AssemblerStep :
    (busy.active.depth = 16 ∧ capExists busy.params busy.asmLine busy.asmIndex = true ∧
      (busy.asmN.toNat + 1) * busy.active.sampleBytes ≤ 18 * busy.params.halfWordsMax ∧
      busy.asmN.toNat + 1 ≠ busy.active.samples * busy.active.nch) ∧
    (({ busy with asmN := 3, asmZero := true } : State).asmZero = true ∧ 3 + 1 = busy.active.samples * busy.active.nch) := by
  decide

theorem witness_AssemblyIsExactlyNSteps : busy.Inv ∧ busy.asmBusy = true ∧ busy.asmN = 0 := ⟨busy_inv, rfl, rfl⟩

theorem witness_AssemblyIsExactlyNSteps_wait : busy.bus = [] ∧ busy.turns = [] ∧ 2 ≤ 2 := by decide

/-- `busy` with a zero-fill assembly. -/
def busyZero : State := { busy with asmZero := true }

theorem witness_ZeroFillFrameIsSilence :
    busyZero.Inv ∧ busyZero.asmBusy = true ∧ busyZero.asmZero = true ∧ busyZero.asmN = 0 := by
  obtain ⟨⟨a1, a2, a3, a4, a5, a6, a7, a8, a9, a10, a11, a12⟩, ⟨b1, b2, b3, b4, b5⟩, ⟨c1, c2, c3, c4, c5, c6, c7⟩, d, ⟨e1, e2⟩,
    ⟨f1, f2, f3, f4⟩⟩ := busy_inv
  exact ⟨⟨⟨a1, a2, a3, a4, a5, a6, a7, a8, a9, a10, a11, a12⟩, ⟨b1, b2, b3, b4, b5⟩, ⟨c1, c2, c3, c4, c5, c6, c7⟩, d, ⟨e1, e2⟩,
    ⟨f1, f2, f3, f4⟩⟩, rfl, rfl, rfl⟩

theorem witness_UndisturbedAssemblyIsTheInterleave :
    busy.Inv ∧ busy.Assembling ∧ Turn.asm.isAgent = true ∧ ∃ t, takeTurn .asm busy = .next t ∧ t.halfcnt = busy.halfcnt :=
  ⟨busy_inv, ⟨rfl, by decide, fun n hn => absurd hn (Nat.not_lt_zero n)⟩, rfl, _, rfl, rfl⟩

theorem witness_FrameIsStableBetweenRequests :
    running.asmBusy = false ∧ (∀ w ∈ ({ running with bus := [0x300000000000] } : State).bus, w ≠ encode .cmdFrameReq) ∧
    Turn.reset ∉ [Turn.host, .asm] ∧
    ∃ t, runTurns [.host, .asm] { running with bus := [0x300000000000] } = .next t ∧ t.frameReady = false :=
  ⟨rfl, List.forall_mem_cons.2 ⟨by decide, nofun⟩, by decide, after_eq_some (by decide)⟩

/-! #### Whole-machine rules -/

/-- `running` with a transaction to present. -/
def runningWith (w : Txn) : State := { running with bus := [w] }

theorem witness_ConfigurationIsFrozenWhileRunning :
    Turn.host ≠ .reset ∧ (runningWith 0x800C00003E80).run = true ∧ ∃ t, takeTurn .host (runningWith 0x800C00003E80) = .next t :=
  ⟨by decide, rfl, _, rfl⟩

/-- A START that passes: A, DIV and RUN change. -/
def starting : State := { ready with bus := [0x802000000001] }

theorem witness_OnlyStartWritesTheActiveConfiguration :
    Turn.host.isAgent = true ∧ after (takeTurn .host starting) (fun t => (t.active, t.divq)) = some (ready.cfg, 512) := by decide

theorem witness_OnlyStartAndStopChangeRun :
    (Turn.host.isAgent = true ∧ starting.run = false ∧ after (takeTurn .host starting) State.run = some true) ∧
    ((runningWith 0x802000000002).run = true ∧ after (takeTurn .host (runningWith 0x802000000002)) State.run = some false) := by
  decide

/-- A completion event at SEQ's turn. -/
def completing : State := { lastOfHalf with serial := [⟨false, 1⟩] }

theorem witness_OnlyStartAndCompletionWriteTargets :
    Turn.seq.isAgent = true ∧ after (takeTurn .seq completing) State.wt = some 1 ∧
    after (takeTurn .host { starting with wt := 1 }) State.wt = some 0 := by decide

theorem witness_DiagnosticFlagsAreSticky :
    Turn.host.isAgent = true ∧ ({ runningWith 0x802000000004 with errflags := 1 } : State).errflags.getLsbD 0 = true ∧
    after (takeTurn .host { runningWith 0x802000000004 with errflags := 1 }) State.errflags = some 0 ∧
    after (takeTurn .host { runningWith 0x802C00000001 with errflags := 1 }) State.errflags = some 0 := by decide

theorem witness_EachRamHasOneWriter :
    Turn.host.isAgent = true ∧ (∃ t, takeTurn .host starting = .next t) ∧ ∃ t, takeTurn .seq completing = .next t :=
  ⟨rfl, ⟨_, rfl⟩, _, rfl⟩

theorem witness_ResetLoadsTheResetValues : ∃ t, takeTurn .reset busy = .next t := ⟨_, rfl⟩

theorem witness_ResetStateMeetsTheInvariant : ∃ t, takeTurn .reset lastOfHalf = .next t := ⟨_, rfl⟩

/-- `busy` with a turn of ASM next. -/
def busyTurn : State := { busy with turns := [.asm] }

theorem busyTurn_inv : busyTurn.Inv := by
  obtain ⟨⟨a1, a2, a3, a4, a5, a6, a7, a8, a9, a10, a11, a12⟩, ⟨b1, b2, b3, b4, b5⟩, ⟨c1, c2, c3, c4, c5, c6, c7⟩, d, ⟨e1, e2⟩,
    ⟨f1, f2, f3, f4⟩⟩ := busy_inv
  exact ⟨⟨a1, a2, a3, a4, a5, a6, a7, a8, a9, a10, a11, a12⟩, ⟨b1, b2, b3, b4, b5⟩, ⟨c1, c2, c3, c4, c5, c6, c7⟩, d, ⟨e1, e2⟩,
    ⟨f1, f2, f3, f4⟩⟩

theorem witness_EveryStepKeepsTheInvariant : busyTurn.Inv ∧ ∃ t, step busyTurn = .next t := ⟨busyTurn_inv, _, rfl⟩

theorem witness_NoStepFaultsUnderTheInvariant : running.Inv ∧ busy.Inv := ⟨running_inv, busy_inv⟩

/-! #### What cannot be observed, and the cycle -/

theorem reset_inv : State.reset.Inv :=
  ⟨⟨by decide, by decide, by decide, by decide, by decide, by decide, by decide, by decide, by decide, by decide, by decide,
      by decide⟩,
    ⟨by decide, by decide, by decide, by decide, by decide⟩,
    ⟨by decide, by decide, by decide, by decide, by decide, by decide, by decide⟩, fun _ => .inl rfl, ⟨by decide, by decide⟩,
    ⟨by decide, by decide, by decide, by decide⟩⟩

theorem witness_UnsetActiveConfigurationIsUnobserved :
    State.reset.Inv ∧ State.reset.sameButUnsetActive { State.reset with active := four } ∧
    State.reset.active ≠ four := ⟨reset_inv, ⟨rfl, nofun⟩, by decide⟩

/-- Two lanes that agree on the one bit shifted in so far, and on no other. -/
theorem witness_StaleShiftRegisterBitsAreUnobserved :
    ({ running with pos := 1, sr := #v[0, 0, 0, 0, 0, 0] } : State).sameButStaleBits
      { running with pos := 1, sr := #v[0xFFFFFFFE, 5, 5, 5, 5, 5] } := ⟨rfl, by decide⟩

theorem witness_CycleIsAnInterleavingOfSteps : running.sameButDivider { running with divCnt := 2, bclk := true } := rfl

/-- `busy` at its last ASM step, presenting `w`, in a cycle in which `bclk_o` rises on a half's last bit. -/
def crowded (w : Txn) : State :=
  { busy with
    bus := [w], asmN := 3, divCnt := 2, bclk := false, pos := 63, widx := 3, fsPrev := true, serial := [⟨false, 1⟩] }

/-- The cases of the order: an acknowledge, a STOP, a rise and none; and a cycle in which all three agents act. -/
theorem witness_CycleIsAnInterleavingOfSteps_clauses :
    (crowded 0x803000000101).bus = encode (.w1cIrqPend 0x101) :: [] ∧
    (crowded 0x802000000002).bus = encode .cmdStop :: [] ∧ (crowded 0x802000000002).risesNow ∧ ¬ running.risesNow ∧
    after (cycleTurn true (crowded 0x002400000000)) (fun t => (t.asmBusy, t.halfcnt, t.bclk)) = some (false, 1, true) := by
  decide

theorem witness_OrderOfEventsInACycle_acknowledge :
    (crowded 0x803000000101).bus = encode (.w1cIrqPend 0x101) :: [] ∧ (crowded 0x803000000101).finishesNow ∧
    (crowded 0x803000000101).completesNow ∧
    after (cycleTurn true (crowded 0x803000000101)) (fun t => (t.asmBusy, t.halfcnt, t.irqPend)) =
      some (false, 1, 0x101) := by decide

/-- `crowded` with an assembly that goes on, a pending HALF_DONE, and every flag and MISSED set. -/
def crowdedFlags (w : Txn) : State := { crowded w with asmN := 1, irqPend := 1, errflags := 0x1F, missed := 7 }

theorem witness_OrderOfEventsInACycle_clear :
    encode .cmdClrDiag = 0x802000000004 ∧ encode (.w1cErrflags 0x1F) = 0x802C0000001F ∧
    (crowdedFlags 0x802000000004).completesNow ∧ ¬ (crowdedFlags 0x802000000004).finishesNow ∧
    (crowdedFlags 0x802000000004).asmBusy = true ∧ (crowdedFlags 0x802000000004).asmZero = false ∧
    (∃ l < (crowdedFlags 0x802000000004).active.nlines, (crowdedFlags 0x802000000004).irqPend.getLsbD l = true) ∧
    after (cycleTurn true (crowdedFlags 0x802000000004)) (fun t => (t.errflags, t.missed)) = some (6, 1) ∧
    after (cycleTurn true (crowdedFlags 0x802C0000001F)) (fun t => (t.errflags, t.missed)) = some (6, 8) := by decide

theorem witness_OrderOfEventsInACycle_realign :
    ({ crowdedFlags 0x802000000004 with pos := 10 } : State).realignsNow ∧
    after (cycleTurn true { crowdedFlags 0x802000000004 with pos := 10 }) State.errflags = some 1 := by decide

theorem witness_OrderOfEventsInACycle_request :
    (crowded 0x802000000003).bus = encode .cmdFrameReq :: [] ∧ (crowded 0x802000000003).finishesNow ∧
    (crowded 0x802000000003).completesNow ∧ (crowded 0x802000000003).primed = true ∧
    (crowded 0x802000000003).ctrl.getLsbD 0 = true ∧ (crowded 0x802000000003).ctrl.getLsbD 1 = true ∧
    (crowded 0x802000000003).cfgValid = true ∧
    after (cycleTurn true (crowded 0x802000000003)) (fun t => (t.asmBusy, t.halfcnt, t.rh, t.errflags, t.irqPend)) =
      some (true, 1, 0x3F, 2, 0x101) := by decide

theorem witness_OrderOfEventsInACycle_status :
    (crowded 0x002400000000).bus = encode .rdStatus :: [] ∧ (crowded 0x002400000000).completesNow ∧
    after (cycleTurn true (crowded 0x002400000000)) (fun t => (t.resp, t.wt)) =
      some (some (.read 0x00000077 false), 1) := by decide

theorem witness_OrderOfEventsInACycle_start :
    (crowded 0x802000000001).bus = encode .cmdStart :: [] ∧
    ({ crowded 0x802000000001 with run := false } : State).finishesNow ∧
    validate (crowded 0x802000000001).params (crowded 0x802000000001).cfg = 0 ∧
    after (cycleTurn true { crowded 0x802000000001 with run := false }) (fun t => (t.run, t.asmBusy, t.errflags)) =
      some (true, false, 0) := by decide

/-! #### The host's lines -/

/-- The words of program lines as 95_test_vectors.md writes them. -/
theorem test_lines :
    ((Line.wr .cfg0 0x00210212).words, (Line.ack 0x101).words, (Line.rdCap 0 false 95).words, (Line.rdFrw 431).words) =
      ([0x800800210212], [0x803000000101], [0x117C00000000], [0x36BC00000000]) := by decide

/-- What an outcome of a run's next state shows. -/
def ended {α : Type} (o : Option (Host.Outcome State Fault Refusal)) (f : State → α) : Option α := o.bind (after · f)

/-- A program's run to its end: a request while the host is mounted and nothing streams (44_delivery.md R202, case 3);
its FRAME_READY is 1 at the WAIT's first read. -/
theorem test_programEnd :
    ended (programEnd 1 [.wr .ctrl 1, .freq, .wait .status 0x10 0x10, .ser [⟨true, 0⟩]] ready)
      (fun t => (t.resp, t.turns, t.bus)) = some (some (.read 0x00000030 false), [], []) := by decide

/-- A WAIT whose condition does not hold has not ended after a read (93_implementation_defined.md U21). -/
theorem test_wait_goes_on : runWait .id 0 1 1 ready = none := by
  rw [runWait_again (t := { ready with resp := some (.read 0x48540001 false) }) 0 rfl rfl, runLine_asmrun rfl, assemblyTurns,
    runTurns_asm_idle rfl]
  rfl

/-- An access in the window of a core at 0x40010000, and one past it (20_memory.md R78). -/
theorem test_window_base :
    (HostAccess.store 0x40010020 1).lines 0x40010000 = [.wrAt 0x020 1] ∧
    (HostAccess.load 0x40013FFC).lines 0x40010000 = [.rdAt 0x3FFC] ∧
    (HostAccess.load 0x40014000).lines 0x40010000 = [] ∧ (HostAccess.load 0x4000FFFC).lines 0x40010000 = [] := by decide

theorem witness_LinesSpellTheirTransactions_wait :
    ∃ t, ProgramEnds [.wait .id 0xFFFF0000 0x48540000] ready t ∧ t.resp = some (.read 0x48540001 false) :=
  ⟨_, ⟨1, rfl⟩, rfl⟩

theorem witness_LinesSpellTheirTransactions :
    4 < (0x101#32).toNat ∧ decode Params.sample 0x802C00000004 = some (.w1cErrflags 4) ∧
    decode Params.sample 0x0024000000FF = some .rdStatus ∧
    capExists Params.sample (2#3).toNat (95#7).toNat = true ∧ frameMapped Params.sample (431#10).toNat = true ∧
    (0x4001000C = 0x40010000 + (0x00C#14).toNat ∧ 0x40010000 + 0x4000 ≤ 0x40014000 ∧ 0x4000FFFF < 0x40010000) := by decide

end Sys2Proof.Tests
end

/-! What a step does where a turn is listed, and each agent's turn by its branches (00_scope.md R9, R10). -/

namespace Sys2Proof.Machine

section
variable {s : State}

/-- Where a turn is listed, a step is that turn, taken with the rest listed (log 2). -/
theorem step_of_turns {t : Turn} {ts : List Turn} (h : s.turns = t :: ts) :
    step s = takeTurn t { s with turns := ts } := by
  rw [step, State.nextTurn, State.turnTaken, h]

/-- HOST's turn with no transaction listed changes nothing (log 3). -/
theorem hostTurn_of_bus_nil (h : s.bus = []) : hostTurn s = .next s := by
  rw [hostTurn, h]

/-- HOST's turn is `exec` of the transaction its next word spells, with the word used up (00_scope.md R9). -/
theorem hostTurn_of_decode {w : Txn} {rest : List Txn} {i : Instr} (hb : s.bus = w :: rest)
    (hi : decode s.params w = some i) : hostTurn s = exec i { s with bus := rest } := by
  simp only [hostTurn, hb, hi]

theorem State.sample_of_serial_cons {i : SerialIn} {rest : List SerialIn} (h : s.serial = i :: rest) : s.sample = i := by
  rw [State.sample, h]

theorem State.sample_of_serial_nil (h : s.serial = []) : s.sample = Config.serialDraw s.draws := by
  rw [State.sample, h]

theorem State.sampled_of_serial_cons {i : SerialIn} {rest : List SerialIn} (h : s.serial = i :: rest) :
    s.sampled = { s with serial := rest } := by
  rw [State.sampled, h]

theorem State.sampled_of_serial_nil (h : s.serial = []) : s.sampled = { s with draws := s.draws + 1 } := by
  rw [State.sampled, h]

/-- The divider's way to its next rising edge neither reads nor writes the samples listed. -/
theorem State.toRisingEdge_with_serial (s : State) (l : List SerialIn) :
    ({ s with serial := l } : State).toRisingEdge = { s.toRisingEdge with serial := l } := by
  rw [State.toRisingEdge, State.toRisingEdge]
  split <;> rfl

/-- The divider's way to its next rising edge neither reads nor writes the count of draws. -/
theorem State.toRisingEdge_with_draws (s : State) (n : Nat) :
    ({ s with draws := n } : State).toRisingEdge = { s.toRisingEdge with draws := n } := by
  rw [State.toRisingEdge, State.toRisingEdge]
  split <;> rfl

/-- Using up a sample and going to the next rising edge commute. -/
theorem State.sampled_toRisingEdge (s : State) : s.toRisingEdge.sampled = s.sampled.toRisingEdge := by
  cases h : s.serial with
  | nil =>
    have he : s.toRisingEdge.serial = [] := by rw [State.toRisingEdge_serial, h]
    rw [State.sampled_of_serial_nil h, State.sampled_of_serial_nil he, State.toRisingEdge_draws]
    exact (State.toRisingEdge_with_draws s _).symm
  | cons i rest =>
    have he : s.toRisingEdge.serial = i :: rest := by rw [State.toRisingEdge_serial, h]
    rw [State.sampled_of_serial_cons h, State.sampled_of_serial_cons he]
    exact (State.toRisingEdge_with_serial s rest).symm

/-- SEQ's turn while RUN = 1: the sample is used up, and its bit event is at the next rising edge
(41_sequencer.md R126). -/
theorem seqTurn_of_run (h : s.run = true) : seqTurn s = s.sampled.toRisingEdge.bitEvent s.sample := by
  rw [seqTurn, if_pos h, State.sampled_toRisingEdge]

theorem seqTurn_of_serial_cons {i : SerialIn} {rest : List SerialIn} (hr : s.run = true) (hs : s.serial = i :: rest) :
    seqTurn s = ({ s with serial := rest } : State).toRisingEdge.bitEvent i := by
  rw [seqTurn_of_run hr, State.sampled_of_serial_cons hs, State.sample_of_serial_cons hs]

theorem seqTurn_of_serial_nil (hr : s.run = true) (hs : s.serial = []) :
    seqTurn s = ({ s with draws := s.draws + 1 } : State).toRisingEdge.bitEvent (Config.serialDraw s.draws) := by
  rw [seqTurn_of_run hr, State.sampled_of_serial_nil hs, State.sample_of_serial_nil hs]

/-- ASM's turn while ASM_BUSY = 1 (43_frame_assembler.md R183). -/
theorem asmTurn_of_busy (h : s.asmBusy = true) : asmTurn s = s.asmStep := by
  rw [asmTurn, if_pos h]

end

/-- Settles O5: the step is the listed agent's turn, and each agent's turn is known by its branches. -/
theorem stepRunsTheDecodedTransaction : Obligations.StepRunsTheDecodedTransaction := by
  intro s ts
  refine ⟨fun ht => ?host, fun ht => ?seq, fun ht => ?asm⟩ <;> rw [step_of_turns ht, takeTurn]
  case host => exact ⟨fun _ _ _ hb hi => hostTurn_of_decode hb hi, fun hb => hostTurn_of_bus_nil hb⟩
  case seq =>
    exact ⟨fun hr _ _ hs => seqTurn_of_serial_cons hr hs, fun hr hs => seqTurn_of_serial_nil hr hs,
      fun hr => seqTurn_idle hr⟩
  case asm => exact ⟨fun ha => asmTurn_of_busy ha, fun ha => asmTurn_idle ha⟩

end Sys2Proof.Machine

/-! What each agent's turn can change, said once (10_state.md R31, R32, R39, R42, R44, R45, R49). -/

namespace Sys2Proof.Machine

/-! ### The words of START and STOP -/

/-- No read spells a command: `RD_CMD` is the read of the command register (30_encoding.md R94). -/
theorem decodeRegRead_ne_command {off : Offset} {i : Instr} (hi : i = .cmdStart ∨ i = .cmdStop) :
    decodeRegRead off ≠ i := by
  rcases hi with rfl | rfl <;> (unfold decodeRegRead; split <;> exact nofun)

/-- A register write that spells START or STOP is a write to CMD (30_encoding.md R94, R96). -/
theorem decodeRegWrite_eq_command {off : Offset} {d : Word} {i : Instr} (hi : i = .cmdStart ∨ i = .cmdStop)
    (h : decodeRegWrite off d = i) : off.toNat / 4 = 8 ∧ decodeCmd d = i := by
  unfold decodeRegWrite at h
  split at h
  case h_9 ho => exact ⟨ho, h⟩
  all_goals rcases hi with rfl | rfl <;> cases h

/-- Only a write to CMD at its own offset spells START or STOP (30_encoding.md R93, R94). -/
theorem decodeAccess_eq_command {p : Params} {w : Bool} {off : Offset} {d : Word} {i : Instr}
    (hi : i = .cmdStart ∨ i = .cmdStop) (h : decodeAccess p w off d = i) :
    w = true ∧ off = 0x020 ∧ decodeCmd d = i := by
  unfold decodeAccess at h
  split_ifs at h with hu hc hf hw
  · rcases hi with rfl | rfl <;> cases h
  · rcases hi with rfl | rfl <;> cases w <;> cases h
  · rcases hi with rfl | rfl <;> cases w <;> cases h
  · obtain ⟨ho, hd⟩ := decodeRegWrite_eq_command hi h
    have h4 : off.toNat % 4 = 0 := by
      by_contra hne
      exact hu ((unmapped_iff _ _).2 (.inl hne))
    have hoff : off = 0x020 := BitVec.eq_of_toNat_eq (show off.toNat = 32 by omega)
    exact ⟨hw, hoff, hd⟩
  · exact absurd h (decodeRegRead_ne_command hi)

theorem decodeCmd_eq_start {d : Word} (h : decodeCmd d = .cmdStart) : d = 1 := by
  unfold decodeCmd at h
  split_ifs at h with h0 h1
  exact h1

theorem decodeCmd_eq_stop {d : Word} (h : decodeCmd d = .cmdStop) : d = 2 := by
  unfold decodeCmd at h
  split_ifs at h with h0 h1 h2
  exact h2

/-- The one word that spells START (30_encoding.md R94, R96). -/
theorem eq_encode_of_decode_start {p : Params} {w : Txn} (h : decode p w = some .cmdStart) : w = encode .cmdStart := by
  obtain ⟨hz, ha⟩ := (decode_eq_some_iff p w _).1 h
  obtain ⟨hw, ho, hd⟩ := decodeAccess_eq_command (.inl rfl) ha
  rw [← mkTxn_fields w hz, hw, ho, decodeCmd_eq_start hd, encode]

/-- The one word that spells STOP (30_encoding.md R94, R96). -/
theorem eq_encode_of_decode_stop {p : Params} {w : Txn} (h : decode p w = some .cmdStop) : w = encode .cmdStop := by
  obtain ⟨hz, ha⟩ := (decode_eq_some_iff p w _).1 h
  obtain ⟨hw, ho, hd⟩ := decodeAccess_eq_command (.inr rfl) ha
  rw [← mkTxn_fields w hz, hw, ho, decodeCmd_eq_stop hd, encode]

/-! ### HOST's turn -/

/-- HOST's turn does nothing, or what one of the cases of the next word's transaction says (00_scope.md R9). -/
theorem hostTurn_effect {s t : State} (h : hostTurn s = .next t) :
    t = s ∨ ∃ w rest i r, s.bus = w :: rest ∧ decode s.params w = some i ∧ ExecCase i { s with bus := rest } r t := by
  rcases hostTurn_cases h with ⟨-, rfl⟩ | ⟨w, rest, i, hb, hd, he⟩
  · exact .inl rfl
  · obtain ⟨r, u, hu, hc⟩ := exec_cases i { s with bus := rest }
    cases hu.symm.trans he
    exact .inr ⟨w, rest, i, r, hb, hd, hc⟩

section
variable {i : Instr} {s t : State} {r : Response}

/-- No transaction changes a configuration register while RUN = 1 (10_state.md R49). -/
theorem ExecCase.cfg_of_run (h : ExecCase i s r t) (hr : s.run = true) : t.cfg = s.cfg := by
  cases h
  case cfg hr' => exact absurd hr (by simp [hr'])
  all_goals rfl

/-- Only a START that passes validation writes A, DIV or CFG_VALID (10_state.md R32, R39). -/
theorem ExecCase.active_cases (h : ExecCase i s r t) :
    (t.active = s.active ∧ t.divq = s.divq ∧ t.cfgValid = s.cfgValid) ∨
    (i = .cmdStart ∧ s.run = false ∧ s.asmBusy = false ∧ validate s.params s.cfg = 0 ∧ t.active = s.cfg ∧
      t.cfgValid = true) := by
  cases h
  case start hi hr hb hv => exact .inr ⟨hi, hr, hb, hv, rfl, rfl⟩
  all_goals exact .inl ⟨rfl, rfl, rfl⟩

/-- Only START sets RUN and only STOP clears it (10_state.md R47). -/
theorem ExecCase.run_cases (h : ExecCase i s r t) :
    t.run = s.run ∨ (i = .cmdStart ∧ t.run = true) ∨ (i = .cmdStop ∧ t.run = false) := by
  cases h
  case start hi _ _ _ => exact .inr (.inl ⟨hi, rfl⟩)
  case stop hi _ => exact .inr (.inr ⟨hi, rfl⟩)
  all_goals exact .inl rfl

/-- Of the transactions only START writes WT, to 0 (10_state.md R42). -/
theorem ExecCase.wt_cases (h : ExecCase i s r t) : t.wt = s.wt ∨ (i = .cmdStart ∧ t.wt = 0) := by
  cases h
  case start hi _ _ _ => exact .inr ⟨hi, rfl⟩
  all_goals exact .inl rfl

/-- No transaction writes a RAM (10_state.md R44, R45). -/
theorem ExecCase.rams (h : ExecCase i s r t) : t.cap = s.cap ∧ t.frame = s.frame ∧ t.ramEpoch = s.ramEpoch := by
  cases h <;> exact ⟨rfl, rfl, rfl⟩

end

/-- HOST's turn writes no RAM (10_state.md R44, R45). -/
theorem hostTurn_rams {s t : State} (h : hostTurn s = .next t) :
    t.cap = s.cap ∧ t.frame = s.frame ∧ t.ramEpoch = s.ramEpoch := by
  rcases hostTurn_effect h with rfl | ⟨w, rest, i, r, -, -, hc⟩
  · exact ⟨rfl, rfl, rfl⟩
  · exact hc.rams

/-- HOST's turn changes no configuration register while RUN = 1 (10_state.md R49). -/
theorem hostTurn_cfg_of_run {s t : State} (h : hostTurn s = .next t) (hr : s.run = true) : t.cfg = s.cfg := by
  rcases hostTurn_effect h with rfl | ⟨w, rest, i, r, -, -, hc⟩
  · rfl
  · exact hc.cfg_of_run hr

/-! ### ASM's turn -/

/-- ASM's turn writes the frame RAM, its own index and the end of a request, and nothing else
(43_frame_assembler.md R183, 44_delivery.md R203). -/
theorem asmTurn_effect {s t : State} (h : asmTurn s = .next t) : t =
    { s with
      frame := t.frame, asmN := t.asmN, asmBusy := t.asmBusy, frameReady := t.frameReady, frameOk := t.frameOk
      frameLen := t.frameLen, irqPend := t.irqPend } := by
  unfold asmTurn at h
  split at h
  · obtain ⟨-, -, rfl⟩ := State.asmStep_cases h
    unfold State.asmAdvance
    split <;> rfl
  · cases h
    rfl

/-! ### SEQ's turn -/

/-- What a bit event that is no completion event can change: alignment, position, shift registers, ERRFLAGS and the
capture RAM (41_sequencer.md R126 to R131). -/
def State.Advanced (s t : State) : Prop := t =
  { s with
    fsPrev := t.fsPrev, fsv := t.fsv, synced := t.synced, pos := t.pos, widx := t.widx, sr := t.sr
    errflags := t.errflags, cap := t.cap }

/-- What a bit event that is a completion event can change besides (42_capture_buffer.md R151 to R154). -/
def State.Completed (s t : State) : Prop := t =
  { s with
    fsPrev := t.fsPrev, fsv := t.fsv, synced := t.synced, pos := t.pos, widx := t.widx, sr := t.sr
    errflags := t.errflags, cap := t.cap, wt := s.wt ^^^ s.activeLines, primed := true, halfcnt := s.halfcnt + 1
    missed := t.missed, irqPend := t.irqPend }

/-- What advances before a bit is used makes no difference to what the used bit can change. -/
theorem State.Advanced.trans {s u t : State} (h : s.Advanced u) (h' : u.Advanced t ∨ u.Completed t) :
    s.Advanced t ∨ s.Completed t := by
  unfold State.Advanced State.Completed at h'
  rw [h] at h'
  exact h'

/-- A used bit advances, or completes a half (41_sequencer.md R130 to R132). -/
theorem State.useBit_effect {s t : State} {d : BitVec 6} {p : Nat} (h : s.useBit d p = .next t) :
    s.Advanced t ∨ s.Completed t := by
  rcases State.useBit_cases h with ⟨-, rfl⟩ | ⟨-, u, hu, rfl⟩
  · exact .inl rfl
  · obtain ⟨c, hc⟩ : ∃ c, State.storeLanes (s.shift d).active.nlines (s.shift d) = { s.shift d with cap := c } :=
      ⟨_, State.storeLanes_eq _ _⟩
    obtain ⟨-, -, ⟨-, rfl⟩ | ⟨-, rfl⟩⟩ := State.latchAndStore_cases hu
    · rw [hc, State.completionEvent_eq]
      exact .inr rfl
    · rw [hc]
      exact .inl rfl

/-- Every bit event advances, or completes a half (41_sequencer.md R126). -/
theorem State.bitEvent_effect {s t : State} {i : SerialIn} (h : s.bitEvent i = .next t) :
    s.Advanced t ∨ s.Completed t := by
  rcases State.bitEvent_cases h with ⟨-, rfl⟩ | ⟨-, -, -, rfl⟩ | ⟨-, -, -, -, rfl⟩ | ⟨-, -, -, -, hu⟩ | ⟨-, -, -, hu⟩ |
    ⟨-, -, -, -, -, rfl⟩ | ⟨-, -, -, -, -, hu⟩
  case inl | inr.inl | inr.inr.inl | inr.inr.inr.inr.inr.inl => exact .inl rfl
  all_goals exact State.Advanced.trans (by rfl) (State.useBit_effect hu)

/-! ### What only HOST changes -/

/-- The fields that neither ASM nor SEQ nor the divider writes: the configuration registers, A, DIV, CFG_VALID and RUN
(10_state.md R32, R39, R47, R49), and the model's name for the RAMs' draw (log 5). -/
structure State.HostKept (s t : State) : Prop where
  cfg : t.cfg = s.cfg
  active : t.active = s.active
  divq : t.divq = s.divq
  cfgValid : t.cfgValid = s.cfgValid
  run : t.run = s.run
  ramEpoch : t.ramEpoch = s.ramEpoch

theorem asmTurn_hostKept {s t : State} (h : asmTurn s = .next t) : s.HostKept t := by
  rw [asmTurn_effect h]
  exact ⟨rfl, rfl, rfl, rfl, rfl, rfl⟩

theorem State.bitEvent_hostKept {s t : State} {i : SerialIn} (h : s.bitEvent i = .next t) : s.HostKept t := by
  rcases State.bitEvent_effect h with ht | ht <;>
  · rw [ht]
    exact ⟨rfl, rfl, rfl, rfl, rfl, rfl⟩

/-- A bit event writes no frame byte (10_state.md R45). -/
theorem State.bitEvent_frame {s t : State} {i : SerialIn} (h : s.bitEvent i = .next t) : t.frame = s.frame := by
  rcases State.bitEvent_effect h with ht | ht <;> rw [ht]

theorem State.HostKept.trans {s u t : State} (h : s.HostKept u) (h' : u.HostKept t) : s.HostKept t :=
  ⟨h'.cfg.trans h.cfg, h'.active.trans h.active, h'.divq.trans h.divq, h'.cfgValid.trans h.cfgValid, h'.run.trans h.run,
    h'.ramEpoch.trans h.ramEpoch⟩

theorem State.HostKept.refl (s : State) : s.HostKept s := ⟨rfl, rfl, rfl, rfl, rfl, rfl⟩

theorem State.sampled_hostKept (s : State) : s.HostKept s.sampled := by constructor <;> simp

theorem State.toRisingEdge_hostKept (s : State) : s.HostKept s.toRisingEdge := by constructor <;> simp

theorem State.divTick_hostKept (s : State) : s.HostKept s.divTick := by constructor <;> simp

theorem seqTurn_hostKept {s t : State} (h : seqTurn s = .next t) : s.HostKept t := by
  unfold seqTurn at h
  split at h
  · exact s.toRisingEdge_hostKept.trans (s.toRisingEdge.sampled_hostKept.trans (State.bitEvent_hostKept h))
  · cases h
    exact .refl s

theorem clockTick_hostKept {s t : State} (h : clockTick s = .next t) : s.HostKept t := by
  unfold clockTick at h
  split at h
  · exact s.divTick_hostKept.trans (s.divTick.sampled_hostKept.trans (State.bitEvent_hostKept h))
  · cases h
    exact s.divTick_hostKept

/-- SEQ's turn writes no frame byte (10_state.md R45). -/
theorem seqTurn_frame {s t : State} (h : seqTurn s = .next t) : t.frame = s.frame := by
  unfold seqTurn at h
  split at h
  · simpa using State.bitEvent_frame h
  · cases h
    rfl

/-- SEQ's turn writes WT in a completion event alone, which inverts the bits of the lines in use
(42_capture_buffer.md R151, R152). -/
theorem seqTurn_wt_cases {s t : State} (h : seqTurn s = .next t) :
    t.wt = s.wt ∨ (s.run = true ∧ t.primed = true ∧ t.halfcnt = s.halfcnt + 1 ∧ t.wt = s.wt ^^^ s.activeLines) := by
  unfold seqTurn at h
  split at h
  next hr =>
    rcases State.bitEvent_effect h with ht | ht
    · exact .inl (by simpa using congrArg State.wt ht)
    · exact .inr ⟨hr, congrArg State.primed ht, by simpa using congrArg State.halfcnt ht,
        by simpa [State.activeLines] using congrArg State.wt ht⟩
  next =>
    cases h
    exact .inl rfl

/-! ### The obligations about what a turn may change -/

/-- Settles O47: of the agents only HOST writes A, DIV or CFG_VALID, and of its transactions only START. -/
theorem onlyStartWritesTheActiveConfiguration : Obligations.OnlyStartWritesTheActiveConfiguration := by
  intro turn s t ht h
  cases turn with
  | host =>
    rcases hostTurn_effect h with rfl | ⟨w, rest, i, r, hb, hd, hc⟩
    · exact .inl ⟨rfl, rfl, rfl⟩
    · rcases hc.active_cases with hk | ⟨rfl, hr, hbusy, hv, ha, hcv⟩
      · exact .inl hk
      · exact .inr ⟨rfl, ⟨rest, eq_encode_of_decode_start hd ▸ hb⟩, hr, hbusy, hv, ha, hcv⟩
  | seq =>
    obtain ⟨-, ha, hd, hv, -, -⟩ := seqTurn_hostKept h
    exact .inl ⟨ha, hd, hv⟩
  | asm =>
    obtain ⟨-, ha, hd, hv, -, -⟩ := asmTurn_hostKept h
    exact .inl ⟨ha, hd, hv⟩
  | cycle _ => cases ht
  | reset => cases ht

/-- Settles O48: of the agents only HOST writes RUN, START to 1 and STOP to 0. -/
theorem onlyStartAndStopChangeRun : Obligations.OnlyStartAndStopChangeRun := by
  intro turn s t ht h hne
  cases turn with
  | host =>
    rcases hostTurn_effect h with rfl | ⟨w, rest, i, r, hb, hd, hc⟩
    · exact absurd rfl hne
    · rcases hc.run_cases with hk | ⟨rfl, hr⟩ | ⟨rfl, hr⟩
      · exact absurd hk hne
      · exact ⟨rfl, rest, by rw [hr, hb, eq_encode_of_decode_start hd, if_pos rfl]⟩
      · exact ⟨rfl, rest, by rw [hr, hb, eq_encode_of_decode_stop hd, if_neg Bool.false_ne_true]⟩
  | seq => exact absurd (seqTurn_hostKept h).run hne
  | asm => exact absurd (asmTurn_hostKept h).run hne
  | cycle _ => cases ht
  | reset => cases ht

/-- Settles O49: HOST writes WT by START alone, SEQ by a completion event alone, ASM not at all. -/
theorem onlyStartAndCompletionWriteTargets : Obligations.OnlyStartAndCompletionWriteTargets := by
  intro turn s t ht h
  cases turn with
  | host =>
    rcases hostTurn_effect h with rfl | ⟨w, rest, i, r, hb, hd, hc⟩
    · exact .inl rfl
    · rcases hc.wt_cases with hk | ⟨rfl, hw⟩
      · exact .inl hk
      · exact .inr (.inl ⟨rfl, ⟨rest, eq_encode_of_decode_start hd ▸ hb⟩, hw⟩)
  | seq =>
    rcases seqTurn_wt_cases h with hk | ⟨hr, hp, hcnt, hw⟩
    · exact .inl hk
    · refine .inr (.inr ⟨rfl, hr, hp, hcnt, fun l hl => ?_⟩)
      rw [hw, BitVec.getLsbD_xor, State.activeLines, getLsbD_lineMask, decide_eq_true hl, Bool.true_and]
  | asm => exact .inl (by rw [asmTurn_effect h])
  | cycle _ => cases ht
  | reset => cases ht

/-- Settles O51: HOST writes neither RAM, SEQ no frame byte and ASM no capture byte. -/
theorem eachRamHasOneWriter : Obligations.EachRamHasOneWriter := by
  intro turn s t ht h
  cases turn with
  | host =>
    obtain ⟨hcap, hframe, he⟩ := hostTurn_rams h
    exact ⟨fun _ => State.capByte_congr hcap he, fun _ => State.frameByte_congr hframe he⟩
  | seq => exact ⟨fun hne => absurd rfl hne, fun _ => State.frameByte_congr (seqTurn_frame h) (seqTurn_hostKept h).ramEpoch⟩
  | asm =>
    have hcap : t.cap = s.cap := by rw [asmTurn_effect h]
    exact ⟨fun _ => State.capByte_congr hcap (asmTurn_hostKept h).ramEpoch, fun hne => absurd rfl hne⟩
  | cycle _ => cases ht
  | reset => cases ht

/-! ### The configuration registers in a cycle -/

/-- ASM's and HOST's part of a cycle, in either order, changes no configuration register while RUN = 1
(60_exceptions.md R248, R249). -/
theorem cycleFront_cfg_of_run {present : Bool} {s t : State} (h : cycleFront present s = .next t)
    (hr : s.run = true) : t.cfg = s.cfg := by
  unfold cycleFront at h
  split at h
  · exact (asmTurn_hostKept h).cfg
  split at h <;> obtain ⟨u, h1, h2⟩ := (andThen_eq_next_iff _ _ _).1 h
  · rw [(asmTurn_hostKept h2).cfg, hostTurn_cfg_of_run h1 hr]
  · have hu := asmTurn_hostKept h1
    rw [hostTurn_cfg_of_run h2 (hu.run.trans hr), hu.cfg]

/-- A whole cycle changes no configuration register while RUN = 1 (70_reset_and_hazards.md R278). -/
theorem cycleTurn_cfg_of_run {present : Bool} {s t : State} (h : cycleTurn present s = .next t)
    (hr : s.run = true) : t.cfg = s.cfg := by
  obtain ⟨u, h1, h2⟩ := (andThen_eq_next_iff _ _ _).1 h
  have hu := cycleFront_cfg_of_run h1 hr
  split at h2
  · rw [(clockTick_hostKept h2).cfg, hu]
  · cases h2
    exact hu

/-- Settles O46: a write to a configuration register while RUN = 1 only sets WIGN, and nothing else writes one. -/
theorem configurationIsFrozenWhileRunning : Obligations.ConfigurationIsFrozenWhileRunning := by
  intro turn s t hne hr h
  cases turn with
  | host => exact hostTurn_cfg_of_run h hr
  | seq => exact (seqTurn_hostKept h).cfg
  | asm => exact (asmTurn_hostKept h).cfg
  | cycle present => exact cycleTurn_cfg_of_run h hr
  | reset => exact absurd rfl hne

end Sys2Proof.Machine

/-! A register's named fields, and the interrupt line, in bits (10_state.md R24 to R29, R35, R46). -/

namespace Sys2Proof.Machine

/-! ### Masks -/

/-- What a mask leaves of a word, where the mask's bits are named. -/
theorem getLsbD_and_mask {mask : Word} {named : Nat → Bool} (h : ∀ k < 32, mask.getLsbD k = named k) (d : Word) :
    ∀ k < 32, (d &&& mask).getLsbD k = (d.getLsbD k && named k) := fun k hk => by
  rw [BitVec.getLsbD_and, h k hk]

theorem getLsbD_cfg0Mask : ∀ k < 32, cfg0Mask.getLsbD k =
    decide (k ≤ 2 ∨ (4 ≤ k ∧ k ≤ 6) ∨ (8 ≤ k ∧ k ≤ 9) ∨ (12 ≤ k ∧ k ≤ 17) ∨ k = 20 ∨ k = 21) := by decide

theorem getLsbD_rateMask : ∀ k < 32, rateMask.getLsbD k = decide (k ≤ 19) := by decide

theorem getLsbD_framebytesMask : ∀ k < 32, framebytesMask.getLsbD k = decide (k ≤ 15) := by decide

theorem getLsbD_chmapMask : ∀ k < 32, chmapMask.getLsbD k = decide (k ≤ 23) := by decide

theorem getLsbD_ctrlMask : ∀ k < 32, ctrlMask.getLsbD k = decide (k ≤ 1) := by decide

theorem getLsbD_irqMask : ∀ k < 32, irqMask.getLsbD k = decide (k ≤ 5 ∨ k = 8) := by decide

/-! ### A write, then a read -/

/-- A configuration register's write takes effect while RUN = 0 (10_state.md R49). -/
theorem State.writeCfg_of_not_run {s : State} (hr : s.run = false) (c : CfgRegs) :
    s.writeCfg c = { s with cfg := c }.respondWrite := by
  rw [State.writeCfg, if_neg (by rw [hr]; exact Bool.false_ne_true)]

/-- A read after a write whose stored value has the named bits of the data shows them (30_encoding.md R90, R95). -/
theorem read_after_write {wr rd : Instr} {s t : State} {d v : Word} {named : Nat → Bool} (hw : exec wr s = .next t)
    (hrd : exec rd t = .next (t.respondRead v)) (hv : ∀ k < 32, v.getLsbD k = (d.getLsbD k && named k)) :
    ∃ t u v, exec wr s = .next t ∧ exec rd t = .next u ∧ u.resp = some (.read v false) ∧
      ∀ k < 32, v.getLsbD k = (d.getLsbD k && named k) :=
  ⟨t, t.respondRead v, v, hw, hrd, rfl, hv⟩

/-- Settles O11, register by register: what the write keeps of the data is its mask, and the read shows it. -/
theorem writeThenReadShowsTheNamedFields : Obligations.WriteThenReadShowsTheNamedFields := by
  intro s d hr
  have hcfg (c : CfgRegs) : (.next (s.writeCfg c) : Host.Outcome State Fault Refusal) =
      .next { s with cfg := c }.respondWrite := by rw [State.writeCfg_of_not_run hr]
  simp only [List.forall_mem_cons, List.not_mem_nil, false_implies, implies_true, and_true]
  refine ⟨?cfg0, ?rate, ?sysclk, ?framebytes, ?chmap, ?ctrl, ?irqEn⟩
  case cfg0 => exact read_after_write (hcfg _) rfl (getLsbD_and_mask getLsbD_cfg0Mask d)
  case rate => exact read_after_write (hcfg _) rfl (getLsbD_and_mask getLsbD_rateMask d)
  case sysclk => exact read_after_write (v := d) (hcfg _) rfl fun k _ => (Bool.and_true _).symm
  case framebytes => exact read_after_write (hcfg _) rfl (getLsbD_and_mask getLsbD_framebytesMask d)
  case chmap => exact read_after_write (hcfg _) rfl (getLsbD_and_mask getLsbD_chmapMask d)
  case ctrl => exact read_after_write rfl rfl (getLsbD_and_mask getLsbD_ctrlMask d)
  case irqEn => exact read_after_write rfl rfl (getLsbD_and_mask getLsbD_irqMask d)

/-! ### The interrupt line -/

/-- A word is not 0 iff some bit of it is set. -/
theorem word_ne_zero_iff (w : Word) : w ≠ 0 ↔ ∃ k < 32, w.getLsbD k = true := by
  constructor
  · intro h
    by_contra! hc
    exact h (BitVec.eq_of_getLsbD_eq fun k hk => by simpa using hc k hk)
  · rintro ⟨k, -, hk⟩ rfl
    simp at hk

/-- `irq_o` is high iff some bit of the interrupt registers is pending and enabled (10_state.md R34, R35, R46). -/
theorem State.irqO_iff (s : State) : s.irqO = true ↔
    ∃ k, (k ≤ 5 ∨ k = 8) ∧ s.irqPend.getLsbD k = true ∧ s.irqEn.getLsbD k = true := by
  rw [State.irqO, decide_eq_true_eq, word_ne_zero_iff]
  refine exists_congr fun k => ⟨fun ⟨hk, h⟩ => ?_, fun ⟨hk, hp, he⟩ => ⟨by omega, ?_⟩⟩
  · rw [getLsbD_and_mask getLsbD_irqMask _ k hk] at h
    simp only [BitVec.getLsbD_and, Bool.and_eq_true, decide_eq_true_eq] at h
    exact ⟨h.2, h.1⟩
  · rw [getLsbD_and_mask getLsbD_irqMask _ k (by omega), BitVec.getLsbD_and, hp, he, decide_eq_true hk]
    rfl

/-- Bit 24 of the STATUS word is `irq_o`: no other field reaches it (10_state.md R31). -/
theorem State.getLsbD_statusWord_irq (s : State) : s.statusWord.getLsbD 24 = s.irqO := by
  simp only [State.statusWord, BitVec.getLsbD_or, getLsbD_bitAt]
  simp

/-- Settles O15: the pending and enabled bit is one of HALF_DONE or FRAME_DONE. -/
theorem interruptLineIsEnabledAndPending : Obligations.InterruptLineIsEnabledAndPending := by
  refine fun s => ⟨?_, s.getLsbD_statusWord_irq⟩
  rw [s.irqO_iff]
  constructor
  · rintro ⟨k, hk | rfl, hb⟩
    · exact .inl ⟨k, by omega, hb⟩
    · exact .inr hb
  · rintro (⟨l, hl, hb⟩ | hb)
    · exact ⟨l, by omega, hb⟩
    · exact ⟨8, .inr rfl, hb⟩

end Sys2Proof.Machine

/-! What a step cannot tell apart: the active configuration while there is none, and the stale bits of the shift
registers (10_state.md R39, R41). -/

namespace Sys2Proof.Machine

/-! ### A relation that every agent's turn keeps -/

section
variable {r : State → State → Prop}

/-- An outcome agrees with its own image under an update that the relation allows. -/
theorem outcomesAgree_map {o : Host.Outcome State Fault Refusal} {g : State → State}
    (h : ∀ u, o = .next u → r u (g u)) : outcomesAgree r o (andThen o fun u => .next (g u)) := by
  cases o with
  | next u => exact h u rfl
  | fault _ => rfl
  | refused _ => rfl

/-- An outcome agrees with itself if the state it answers is related to itself. -/
theorem outcomesAgree_self {o : Host.Outcome State Fault Refusal} (h : ∀ u, o = .next u → r u u) :
    outcomesAgree r o o := by
  simpa only [andThen_pure] using outcomesAgree_map (g := fun u => u) h

/-- Outcomes that agree are both states, both faults or both refusals. -/
theorem outcomesAgree_cases {o p : Host.Outcome State Fault Refusal} (h : outcomesAgree r o p) :
    (∃ u v, o = .next u ∧ p = .next v ∧ r u v) ∨ (∃ a, o = .fault a ∧ p = .fault a) ∨
      (∃ a, o = .refused a ∧ p = .refused a) := by
  cases o with
  | next u =>
    cases p with
    | next v => exact .inl ⟨u, v, rfl, rfl, h⟩
    | fault _ | refused _ => exact h.elim
  | fault a =>
    cases p with
    | fault b => exact .inr (.inl ⟨a, rfl, congrArg _ (Eq.symm h)⟩)
    | next _ | refused _ => exact h.elim
  | refused a =>
    cases p with
    | refused b => exact .inr (.inr ⟨a, rfl, congrArg _ (Eq.symm h)⟩)
    | next _ | fault _ => exact h.elim

/-- Steps that agree, followed by steps that agree on what they answer, agree. -/
theorem outcomesAgree_andThen {r' : State → State → Prop} {o p : Host.Outcome State Fault Refusal}
    {f g : State → Host.Outcome State Fault Refusal} (h : outcomesAgree r o p)
    (hfg : ∀ u v, r u v → outcomesAgree r' (f u) (g v)) : outcomesAgree r' (andThen o f) (andThen p g) := by
  rcases outcomesAgree_cases h with ⟨u, v, rfl, rfl, huv⟩ | ⟨a, rfl, rfl⟩ | ⟨a, rfl, rfl⟩
  · exact hfg u v huv
  · exact rfl
  · exact rfl

/-- Outcomes that agree agree in every wider relation. -/
theorem outcomesAgree_mono {r' : State → State → Prop} {o p : Host.Outcome State Fault Refusal}
    (h : outcomesAgree r o p) (hr : ∀ u v, r u v → r' u v) : outcomesAgree r' o p := by
  rw [← andThen_pure o, ← andThen_pure p]
  exact outcomesAgree_andThen h hr

/-- Each part of a turn keeps a relation on states, and the relation fixes what the machine's choices look at: RUN, the
next turn, and whether the next transaction is an acknowledgement. -/
structure Respected (r : State → State → Prop) : Prop where
  run {s t} : r s t → t.run = s.run
  nextIsAck {s t} : r s t → t.nextIsAck = s.nextIsAck
  nextTurn {s t} : r s t → t.nextTurn = s.nextTurn
  turnTaken {s t} : r s t → r s.turnTaken t.turnTaken
  host {s t} : r s t → outcomesAgree r (hostTurn s) (hostTurn t)
  seq {s t} : r s t → outcomesAgree r (seqTurn s) (seqTurn t)
  asm {s t} : r s t → outcomesAgree r (asmTurn s) (asmTurn t)
  tick {s t} : r s t → s.run = true → outcomesAgree r (clockTick s) (clockTick t)
  reset {s t} : r s t → r (resetTurn s) (resetTurn t)

namespace Respected

variable {s t : State}

theorem cycleFront (h : Respected r) (present : Bool) (hst : r s t) :
    outcomesAgree r (cycleFront present s) (cycleFront present t) := by
  simp only [Machine.cycleFront, h.nextIsAck hst]
  split
  · exact h.asm hst
  split
  · exact outcomesAgree_andThen (h.host hst) fun _ _ => h.asm
  · exact outcomesAgree_andThen (h.asm hst) fun _ _ => h.host

theorem cycleTurn (h : Respected r) (present : Bool) (hst : r s t) :
    outcomesAgree r (cycleTurn present s) (cycleTurn present t) := by
  refine outcomesAgree_andThen (h.cycleFront present hst) fun u v huv => ?_
  rw [h.run hst, h.run huv]
  split
  next hr => exact h.tick huv (Bool.and_eq_true_iff.1 hr).2
  next => exact huv

theorem takeTurn (h : Respected r) (turn : Turn) (hst : r s t) :
    outcomesAgree r (takeTurn turn s) (takeTurn turn t) := by
  cases turn with
  | host => exact h.host hst
  | seq => exact h.seq hst
  | asm => exact h.asm hst
  | cycle present => exact h.cycleTurn present hst
  | reset => exact h.reset hst

/-- A relation that every part of a turn keeps is kept by the machine's step. -/
theorem step (h : Respected r) (hst : r s t) : outcomesAgree r (step s) (step t) := by
  rw [Machine.step, Machine.step, h.nextTurn hst]
  exact h.takeTurn _ (h.turnTaken hst)

end Respected

end

/-! ### What reads neither the active configuration nor a shift register -/

section
variable (s : State) (a : CfgRegs) (v : Vector Word 6)

theorem State.turnTaken_with_active_sr : ({ s with active := a, sr := v } : State).turnTaken =
    { s.turnTaken with active := a, sr := v } := by
  cases h : s.turns <;> simp only [State.turnTaken, h]

theorem State.sampled_with_sr : ({ s with sr := v } : State).sampled = { s.sampled with sr := v } := by
  cases h : s.serial <;> simp only [State.sampled, h]

theorem State.toRisingEdge_with_sr : ({ s with sr := v } : State).toRisingEdge = { s.toRisingEdge with sr := v } := by
  rw [State.toRisingEdge, State.toRisingEdge]
  split <;> rfl

theorem State.divTick_with_sr : ({ s with sr := v } : State).divTick = { s.divTick with sr := v } := by
  by_cases h : s.divPeriod ≤ s.divCnt + 1
  · rw [State.divTick_last h]
    exact State.divTick_last (s := { s with sr := v }) h
  · rw [State.divTick_inside (Nat.lt_of_not_le h)]
    exact State.divTick_inside (s := { s with sr := v }) (Nat.lt_of_not_le h)

end

/-- Of two outcomes, from `s` and from `s` with A and the shift registers replaced by `a` and `v`: both are states, equal
but for A and the shift registers; these are as replaced, or a START has put the same A into both. -/
def AnswersAlike (s : State) (a : CfgRegs) (v : Vector Word 6) (o p : Host.Outcome State Fault Refusal) : Prop :=
  ∃ u a', o = .next u ∧ p = .next { u with active := a', sr := v } ∧
    (a' = u.active ∨ (a' = a ∧ u.active = s.active ∧ u.cfgValid = s.cfgValid))

/-- An update that leaves A and CFG_VALID answers alike if it reads neither A nor a shift register. -/
theorem AnswersAlike.of_kept {s u : State} {a : CfgRegs} {v : Vector Word 6} (ha : u.active = s.active)
    (hv : u.cfgValid = s.cfgValid) : AnswersAlike s a v (.next u) (.next { u with active := a, sr := v }) :=
  ⟨u, a, rfl, rfl, .inr ⟨rfl, ha, hv⟩⟩

/-- A write to a configuration register answers alike (10_state.md R49). -/
theorem State.writeCfg_answersAlike (s : State) (a : CfgRegs) (v : Vector Word 6) (c : CfgRegs) :
    AnswersAlike s a v (.next (s.writeCfg c)) (.next (({ s with active := a, sr := v } : State).writeCfg c)) := by
  simp only [State.writeCfg]
  split <;> exact .of_kept rfl rfl

/-- No transaction reads A or a shift register; only a START that passes validation writes A, and none writes a shift
register (10_state.md R39, R41). -/
theorem exec_answersAlike (i : Instr) (s : State) (a : CfgRegs) (v : Vector Word 6) :
    AnswersAlike s a v (exec i s) (exec i { s with active := a, sr := v }) := by
  cases i
  case wrCfg0 | wrRate | wrSysclk | wrFramebytes | wrChmap => exact s.writeCfg_answersAlike a v _
  case rdCapwin l h k =>
    simp only [exec, execRdCapwin]
    split <;> exact .of_kept rfl rfl
  case rdFramewin k =>
    simp only [exec, execRdFramewin]
    split <;> exact .of_kept rfl rfl
  case cmdStop =>
    simp only [exec, execCmdStop]
    split <;> exact .of_kept rfl rfl
  case cmdStart =>
    simp only [exec, execCmdStart]
    split
    · exact .of_kept rfl rfl
    split
    · exact .of_kept rfl rfl
    · exact ⟨_, s.cfg, rfl, rfl, .inl rfl⟩
  case cmdFrameReq =>
    unfold exec execCmdFrameReq State.mounted State.stream
    dsimp only
    split
    · exact .of_kept rfl rfl
    split
    · exact .of_kept rfl rfl
    split
    · exact .of_kept rfl rfl
    split <;> exact .of_kept rfl rfl
  all_goals exact .of_kept rfl rfl

/-- HOST's turn reads neither A nor a shift register: it is refused alike, or answers alike (10_state.md R39, R41). -/
theorem hostTurn_answersAlike (s : State) (a : CfgRegs) (v : Vector Word 6) :
    (∃ c, hostTurn s = .refused c ∧ hostTurn { s with active := a, sr := v } = .refused c) ∨
      AnswersAlike s a v (hostTurn s) (hostTurn { s with active := a, sr := v }) := by
  obtain hb | ⟨w, rest, hb⟩ : s.bus = [] ∨ ∃ w rest, s.bus = w :: rest := by cases s.bus <;> simp
  · rw [hostTurn_of_bus_nil hb, hostTurn_of_bus_nil (s := { s with active := a, sr := v }) hb]
    exact .inr (.of_kept rfl rfl)
  · cases hd : decode s.params w with
    | none => exact .inl ⟨.illegalTransaction, by simp only [hostTurn, hb, hd], by simp only [hostTurn, hb, hd]⟩
    | some i =>
      rw [hostTurn_of_decode hb hd, hostTurn_of_decode (s := { s with active := a, sr := v }) hb hd]
      exact .inr (exec_answersAlike i { s with bus := rest } a v)

end Sys2Proof.Machine

/-! The active configuration is not observed while there is none (10_state.md R39). -/

namespace Sys2Proof.Machine

/-! ### What needs an active configuration -/

/-- SEQ runs, and an assembly runs, only with a validated active configuration (10_state.md R39): the part of the
invariant that keeps A unobserved. -/
structure State.Configured (s : State) : Prop where
  run : s.run = true → s.cfgValid = true
  asmBusy : s.asmBusy = true → s.cfgValid = true

theorem State.Configured.of_cfgValid {s : State} (h : s.cfgValid = true) : s.Configured := ⟨fun _ => h, fun _ => h⟩

theorem State.Inv.configured {s : State} (h : s.Inv) : s.Configured := ⟨h.active.run, h.active.asmBusy⟩

/-- Every transaction keeps it: START sets CFG_VALID with RUN, and CMD_FRAME_REQ starts an assembly only with CFG_VALID
(41_sequencer.md R123, 44_delivery.md R202). -/
theorem ExecCase.configured {i : Instr} {s t : State} {r : Response} (h : ExecCase i s r t) (hs : s.Configured) :
    t.Configured := by
  cases h
  case start => exact .of_cfgValid rfl
  case assemble hv => exact .of_cfgValid hv
  case stop => exact ⟨nofun, hs.asmBusy⟩
  case decline => exact ⟨hs.run, nofun⟩
  all_goals exact ⟨hs.run, hs.asmBusy⟩

/-- HOST's turn keeps CFG_VALID once it is set (10_state.md R39). -/
theorem hostTurn_cfgValid {s t : State} (h : hostTurn s = .next t) (hv : s.cfgValid = true) : t.cfgValid = true := by
  rcases hostTurn_effect h with rfl | ⟨w, rest, i, r, -, -, hc⟩
  · exact hv
  · rcases hc.active_cases with ⟨-, -, hk⟩ | ⟨-, -, -, -, -, hk⟩
    · exact hk.trans hv
    · exact hk

/-- HOST's turn writes no shift register (10_state.md R41). -/
theorem hostTurn_sr {s t : State} (h : hostTurn s = .next t) : t.sr = s.sr := by
  rcases hostTurn_effect h with rfl | ⟨w, rest, i, r, -, -, hc⟩
  · rfl
  · cases hc <;> rfl

theorem hostTurn_configured {s t : State} (h : hostTurn s = .next t) (hs : s.Configured) : t.Configured := by
  rcases hostTurn_effect h with rfl | ⟨w, rest, i, r, -, -, hc⟩
  · exact hs
  · exact hc.configured ⟨hs.run, hs.asmBusy⟩

/-! ### The relation that turns keep -/

/-- Equal but for an unset active configuration, which nothing that runs needs (10_state.md R39). -/
def sameButUnusedActive (s t : State) : Prop := s.sameButUnsetActive t ∧ s.Configured

/-- Where CFG_VALID = 1 the two states are one. -/
theorem State.sameButUnsetActive.eq_of_cfgValid {s t : State} (h : s.sameButUnsetActive t) (hv : s.cfgValid = true) :
    t = s := by
  rw [h.1, h.2 hv]

theorem State.sameButUnsetActive.rfl {s : State} : s.sameButUnsetActive s := ⟨Eq.refl s, fun _ => Eq.refl _⟩

/-- A part of a turn that keeps CFG_VALID keeps the relation where CFG_VALID = 1. -/
theorem sameButUnusedActive.outcomesAgree_of_cfgValid {s t : State} (h : sameButUnusedActive s t)
    (hv : s.cfgValid = true) {f : State → Host.Outcome State Fault Refusal}
    (hf : ∀ u, f s = .next u → u.cfgValid = true) : outcomesAgree sameButUnusedActive (f s) (f t) := by
  rw [h.1.eq_of_cfgValid hv]
  exact outcomesAgree_self fun u hu => ⟨.rfl, .of_cfgValid (hf u hu)⟩

/-- While CFG_VALID = 0 HOST's turn reads nothing of A, and a START that passes validation overwrites it
(41_sequencer.md R123, 44_delivery.md R202). -/
theorem hostTurn_unset_active {s : State} (a : CfgRegs) (hv : s.cfgValid = false) (hs : s.Configured) :
    outcomesAgree sameButUnusedActive (hostTurn s) (hostTurn { s with active := a }) := by
  rcases hostTurn_answersAlike s a s.sr with ⟨c, h1, h2⟩ | ⟨u, a', h1, h2, ha⟩
  · rw [h1, h2]
    exact rfl
  · have hsr : u.sr = s.sr := hostTurn_sr h1
    rw [h1, h2]
    refine ⟨⟨by rw [hsr], fun hu => ?_⟩, hostTurn_configured h1 hs⟩
    rcases ha with rfl | ⟨-, -, hk⟩
    · rfl
    · exact absurd (hk.symm.trans hu) (by simp [hv])

/-- While CFG_VALID = 0 neither ASM nor SEQ is enabled (10_state.md R39). -/
theorem State.Configured.idle {s : State} (h : s.Configured) (hv : s.cfgValid = false) :
    s.run = false ∧ s.asmBusy = false := by
  constructor <;> by_contra hc
  · exact absurd (h.run (by simpa using hc)) (by simp [hv])
  · exact absurd (h.asmBusy (by simpa using hc)) (by simp [hv])

/-- Every part of a turn keeps the relation: where CFG_VALID = 1 the states are one, and where it is 0 only HOST acts. -/
theorem respected_sameButUnusedActive : Respected sameButUnusedActive where
  run h := by rw [h.1.1]
  nextIsAck h := by rw [h.1.1]; rfl
  nextTurn h := by rw [h.1.1]; rfl
  turnTaken {s t} h := by
    refine ⟨⟨?_, fun hv => ?_⟩, ⟨fun hr => ?_, fun hb => ?_⟩⟩
    · rw [h.1.1]
      exact (s.turnTaken_with_active_sr t.active s.sr).trans (by simp)
    · simpa using h.1.2 (by simpa using hv)
    · simpa using h.2.run (by simpa using hr)
    · simpa using h.2.asmBusy (by simpa using hb)
  host {s t} h := by
    cases hv : s.cfgValid with
    | true => exact h.outcomesAgree_of_cfgValid hv fun u hu => hostTurn_cfgValid hu hv
    | false =>
      rw [h.1.1]
      exact hostTurn_unset_active t.active hv h.2
  seq {s t} h := by
    cases hv : s.cfgValid with
    | true => exact h.outcomesAgree_of_cfgValid hv fun u hu => (seqTurn_hostKept hu).cfgValid.trans hv
    | false =>
      have hr : s.run = false := (h.2.idle hv).1
      rw [seqTurn_idle hr, seqTurn_idle (s := t) (by rw [h.1.1]; exact hr)]
      exact h
  asm {s t} h := by
    cases hv : s.cfgValid with
    | true => exact h.outcomesAgree_of_cfgValid hv fun u hu => (asmTurn_hostKept hu).cfgValid.trans hv
    | false =>
      have hb : s.asmBusy = false := (h.2.idle hv).2
      rw [asmTurn_idle hb, asmTurn_idle (s := t) (by rw [h.1.1]; exact hb)]
      exact h
  tick h hr := h.outcomesAgree_of_cfgValid (h.2.run hr) fun _ hu => (clockTick_hostKept hu).cfgValid.trans (h.2.run hr)
  reset h := by
    rw [h.1.1]
    exact ⟨.rfl, nofun, nofun⟩

/-- Settles O56: the relation holds of the two states, since the invariant has nothing running without CFG_VALID, and a
step keeps it. -/
theorem unsetActiveConfigurationIsUnobserved : Obligations.UnsetActiveConfigurationIsUnobserved :=
  fun _ _ hs hst => outcomesAgree_mono (respected_sameButUnusedActive.step ⟨hst, hs.configured⟩) fun _ _ h => h.1

end Sys2Proof.Machine

/-! The bits a shift register held before the current slot are never observed (10_state.md R41). -/

namespace Sys2Proof.Machine

/-! ### Lanes that agree in their newest bits -/

/-- The lanes in use of `s` have the same low `n` bits in `t`: the bits that the last `n` bit events shifted in
(41_sequencer.md R130). -/
def State.LanesAgree (n : Nat) (s t : State) : Prop :=
  ∀ l < s.active.nlines, ∀ k < n, (t.lane l).getLsbD k = (s.lane l).getLsbD k

/-- Before the first bit of a slot no bit needs to agree. -/
theorem State.lanesAgree_slot_start (s : State) (v : Vector Word 6) :
    State.LanesAgree (0 % 32) s { s with sr := v } :=
  fun _ _ _ hk => absurd hk (Nat.not_lt_zero _)

/-- A shift takes one bit into a lane in use and leaves the others (41_sequencer.md R130). -/
theorem State.lane_shift (s : State) (d : BitVec 6) (l : Nat) : (s.shift d).lane l =
    if l < 6 ∧ l < s.active.nlines then ((s.lane l).setWidth 31).concat (d.getLsbD l) else s.lane l := by
  by_cases hl : l < 6
  · simp [State.lane, State.shift, hl]
  · simp [State.lane, hl]

/-- One more bit agrees after a shift of the same data: the bit shifted in, and those that agreed, one place up. -/
theorem State.LanesAgree.shift {n : Nat} {s t : State} (h : State.LanesAgree n s t) (ha : t.active = s.active)
    (d : BitVec 6) : State.LanesAgree (n + 1) (s.shift d) (t.shift d) := by
  intro l hl k hk
  rw [State.lane_shift, State.lane_shift, ha]
  split
  · cases k with
    | zero => simp
    | succ k =>
      simp only [BitVec.getLsbD_concat, BitVec.getLsbD_setWidth, h l hl k (by omega), Nat.add_eq_zero_iff, one_ne_zero,
        and_false, if_false, Nat.add_sub_cancel]
  next hc =>
    have hl6 : 6 ≤ l := by
      have : l < s.active.nlines := hl
      omega
    simp [State.lane, hl6]

/-- Lanes that agree in 32 bits are equal. -/
theorem State.LanesAgree.lane_eq {s t : State} (h : State.LanesAgree 32 s t) {l : Nat} (hl : l < s.active.nlines) :
    t.lane l = s.lane l := BitVec.eq_of_getLsbD_eq (h l hl)

/-! ### The end of a slot reads whole lanes -/

section
variable {s : State} {v : Vector Word 6}

theorem State.storeLanes_with_sr : ∀ n, (∀ l < n, ({ s with sr := v } : State).lane l = s.lane l) →
    State.storeLanes n { s with sr := v } = { State.storeLanes n s with sr := v }
  | 0, _ => rfl
  | n + 1, h => by
    rw [State.storeLanes, State.storeLanes_with_sr n fun l hl => h l (Nat.lt_succ_of_lt hl), h n (Nat.lt_succ_self n)]
    rfl

theorem State.completionEvent_with_sr (s : State) (v : Vector Word 6) :
    ({ s with sr := v } : State).completionEvent = { s.completionEvent with sr := v } := by
  rw [State.completionEvent_eq, State.completionEvent_errflags, State.completionEvent_missed, State.completionEvent_eq s,
    State.completionEvent_errflags s, State.completionEvent_missed s]
  rfl

/-- The end of a slot answers alike where the lanes in use are equal (41_sequencer.md R131). -/
theorem State.latchAndStore_with_sr (h : State.LanesAgree 32 s { s with sr := v }) :
    ({ s with sr := v } : State).latchAndStore = andThen s.latchAndStore fun u => .next { u with sr := v } := by
  have hs := State.storeLanes_with_sr s.active.nlines fun l => h.lane_eq
  unfold State.latchAndStore
  dsimp only
  rw [hs]
  split
  · split
    · rw [andThen_next, State.completionEvent_with_sr]
    · rfl
  · rfl

end

/-! ### The bit event -/

/-- At the first bit of a slot every bit of the shift registers is stale. -/
theorem State.sameButStaleBits_of_slot_start {s t : State} (ht : t = { s with sr := t.sr })
    (h : s.pos.toNat % 32 = 0) : s.sameButStaleBits t := by
  refine ⟨ht, fun _ l _ k hk => ?_⟩
  rw [h] at hk
  exact absurd hk (Nat.not_lt_zero k)

/-- The advance counts the bit within its slot, since a frame is whole slots (00_scope.md R6, 41_sequencer.md R132). -/
theorem slotBit_advance (c : CfgRegs) (p : Nat) :
    (BitVec.ofNat 6 ((p + 1) % c.frameBits)).toNat % 32 = (p + 1) % 32 := by
  rw [BitVec.toNat_ofNat, Nat.mod_mod_of_dvd _ (by decide), CfgRegs.frameBits, Nat.mod_mul_right_mod]

/-- A bit used at a position of the slot up to which the lanes agree: inside the slot one more bit agrees; at its end
whole lanes are stored, and the next slot begins (41_sequencer.md R130 to R132). -/
theorem State.LanesAgree.useBit {s : State} {v : Vector Word 6} {p : Nat}
    (h : State.LanesAgree (p % 32) s { s with sr := v }) (d : BitVec 6) :
    outcomesAgree State.sameButStaleBits (s.useBit d p) (({ s with sr := v } : State).useBit d p) := by
  have hsh : State.LanesAgree (p % 32 + 1) (s.shift d) (({ s with sr := v } : State).shift d) := h.shift rfl d
  by_cases hp : p % 32 = 31
  · rw [hp] at hsh
    have hstore : (({ s with sr := v } : State).shift d).latchAndStore =
        andThen (s.shift d).latchAndStore fun u => .next { u with sr := (({ s with sr := v } : State).shift d).sr } :=
      State.latchAndStore_with_sr hsh
    simp only [State.useBit, if_pos hp]
    rw [hstore, andThen_assoc]
    refine outcomesAgree_andThen (outcomesAgree_self (r := Eq) fun _ _ => rfl) ?_
    rintro u _ rfl
    have hpos := slotBit_advance s.active p
    exact State.sameButStaleBits_of_slot_start rfl (hpos.trans (by omega))
  · simp only [State.useBit, if_neg hp]
    have hpos := slotBit_advance s.active p
    exact ⟨rfl, fun _ l hl k hk => hsh l hl k (hk.trans_eq (hpos.trans (by omega)))⟩

section
variable {s : State} {i : SerialIn}

/-- The first bit event after START only samples `fs_i` (41_sequencer.md R126). -/
theorem State.bitEvent_first (hv : s.fsv = false) : s.bitEvent i = .next { s with fsPrev := i.fs, fsv := true } := by
  simp only [State.bitEvent, hv, Bool.not_false, if_true]

/-- Without sync and without an edge the bit is not used (41_sequencer.md R128). -/
theorem State.bitEvent_waiting (hv : s.fsv = true) (hs : s.synced = false)
    (he : fsEdge s.active s.fsPrev i.fs = false) : s.bitEvent i = .next { s with fsPrev := i.fs } := by
  simp only [State.bitEvent, hv, hs, he, State.acquire, Bool.not_true, Bool.not_false, Bool.false_eq_true, if_false,
    if_true]

/-- An edge acquires sync; with FS_DELAY = 1 its own bit is not used (41_sequencer.md R128). -/
theorem State.bitEvent_acquires_delayed (hv : s.fsv = true) (hs : s.synced = false)
    (he : fsEdge s.active s.fsPrev i.fs = true) (hd : s.active.fsDelay = true) :
    s.bitEvent i = .next { s with fsPrev := i.fs, synced := true, pos := 0 } := by
  simp only [State.bitEvent, hv, hs, he, hd, State.acquire, Bool.not_true, Bool.false_eq_true, if_false, if_true]

/-- An edge acquires sync; with FS_DELAY = 0 its own bit is the frame's first (41_sequencer.md R128). -/
theorem State.bitEvent_acquires (hv : s.fsv = true) (hs : s.synced = false)
    (he : fsEdge s.active s.fsPrev i.fs = true) (hd : s.active.fsDelay = false) :
    s.bitEvent i = { s with fsPrev := i.fs, synced := true }.useBit i.sd 0 := by
  simp only [State.bitEvent, hv, hs, he, hd, State.acquire, Bool.not_true, Bool.false_eq_true, if_false]

/-- An unexpected edge re-aligns; with FS_DELAY = 1 its own bit is not used (41_sequencer.md R129). -/
theorem State.bitEvent_realigns_delayed (hv : s.fsv = true) (hs : s.synced = true)
    (he : fsEdge s.active s.fsPrev i.fs = true) (hp : s.pos.toNat ≠ s.active.edgePos)
    (hd : s.active.fsDelay = true) : s.bitEvent i = .next { { s with fsPrev := i.fs }.realign with pos := 0 } := by
  simp only [State.bitEvent, hv, hs, he, hd, hp, State.track, Bool.not_true, Bool.false_eq_true, if_false, if_true,
    ne_eq, not_false_eq_true, decide_true, Bool.and_self]

/-- An unexpected edge re-aligns; with FS_DELAY = 0 its own bit is the frame's first (41_sequencer.md R129). -/
theorem State.bitEvent_realigns (hv : s.fsv = true) (hs : s.synced = true)
    (he : fsEdge s.active s.fsPrev i.fs = true) (hp : s.pos.toNat ≠ s.active.edgePos)
    (hd : s.active.fsDelay = false) : s.bitEvent i = { s with fsPrev := i.fs }.realign.useBit i.sd 0 := by
  simp only [State.bitEvent, hv, hs, he, hd, hp, State.track, Bool.not_true, Bool.false_eq_true, if_false, if_true,
    ne_eq, not_false_eq_true, decide_true, Bool.and_self]

end

/-- A bit event of the same sample answers alike (41_sequencer.md R126 to R129): acquiring or losing alignment starts a
slot, and a tracked bit stands at the position up to which the lanes agree. -/
theorem State.bitEvent_stale {s : State} {v : Vector Word 6} (h : s.sameButStaleBits { s with sr := v })
    (i : SerialIn) : outcomesAgree State.sameButStaleBits (s.bitEvent i) (({ s with sr := v } : State).bitEvent i) := by
  let t : State := { s with sr := v }
  by_cases hv : s.fsv = true
  case neg =>
    rw [Bool.not_eq_true] at hv
    rw [State.bitEvent_first hv, State.bitEvent_first (s := t) hv]
    exact ⟨rfl, h.2⟩
  by_cases hs : s.synced = true
  case neg =>
    rw [Bool.not_eq_true] at hs
    by_cases he : fsEdge s.active s.fsPrev i.fs = true
    case neg =>
      rw [Bool.not_eq_true] at he
      rw [State.bitEvent_waiting hv hs he, State.bitEvent_waiting (s := t) hv hs he]
      exact ⟨rfl, h.2⟩
    by_cases hd : s.active.fsDelay = true
    · rw [State.bitEvent_acquires_delayed hv hs he hd, State.bitEvent_acquires_delayed (s := t) hv hs he hd]
      exact State.sameButStaleBits_of_slot_start rfl rfl
    · rw [Bool.not_eq_true] at hd
      rw [State.bitEvent_acquires hv hs he hd, State.bitEvent_acquires (s := t) hv hs he hd]
      exact (State.lanesAgree_slot_start _ v).useBit i.sd
  by_cases hu : fsEdge s.active s.fsPrev i.fs = true ∧ s.pos.toNat ≠ s.active.edgePos
  case neg =>
    rw [State.bitEvent_tracked hv hs hu, State.bitEvent_tracked (s := t) hv hs hu]
    exact State.LanesAgree.useBit (s := { s with fsPrev := i.fs }) (v := v) (h.2 hs) i.sd
  obtain ⟨he, hp⟩ := hu
  by_cases hd : s.active.fsDelay = true
  · rw [State.bitEvent_realigns_delayed hv hs he hp hd, State.bitEvent_realigns_delayed (s := t) hv hs he hp hd]
    exact State.sameButStaleBits_of_slot_start rfl rfl
  · rw [Bool.not_eq_true] at hd
    rw [State.bitEvent_realigns hv hs he hp hd, State.bitEvent_realigns (s := t) hv hs he hp hd]
    exact (State.lanesAgree_slot_start _ v).useBit i.sd

/-! ### What leaves the shift registers alone -/

/-- An update that leaves the shift registers, and while sync holds the position and A, keeps the relation. -/
theorem State.sameButStaleBits.keep {s u : State} {v : Vector Word 6} (h : s.sameButStaleBits { s with sr := v })
    (hsr : u.sr = s.sr) (hu : u.synced = true → s.synced = true ∧ u.pos = s.pos ∧ u.active = s.active) :
    u.sameButStaleBits { u with sr := v } := by
  refine ⟨rfl, fun hs l hl k hk => ?_⟩
  obtain ⟨hsync, hpos, hact⟩ := hu hs
  rw [hact] at hl
  rw [hpos] at hk
  have hlane : u.lane l = s.lane l := by rw [State.lane, State.lane, hsr]
  rw [hlane]
  exact h.2 hsync l hl k hk

/-- HOST moves the sequencer only by START and STOP, which lose sync (41_sequencer.md R123, R124). -/
theorem hostTurn_position {s t : State} (h : hostTurn s = .next t) (ht : t.synced = true) :
    s.synced = true ∧ t.pos = s.pos ∧ t.active = s.active := by
  rcases hostTurn_effect h with rfl | ⟨w, rest, i, r, -, -, hc⟩
  · exact ⟨ht, rfl, rfl⟩
  · cases hc
    case start => exact absurd ht Bool.false_ne_true
    case stop => exact absurd ht Bool.false_ne_true
    all_goals exact ⟨ht, rfl, rfl⟩

/-- HOST's turn reads no shift register (10_state.md R41). -/
theorem hostTurn_stale {s : State} {v : Vector Word 6} (h : s.sameButStaleBits { s with sr := v }) :
    outcomesAgree State.sameButStaleBits (hostTurn s) (hostTurn { s with sr := v }) := by
  rcases hostTurn_answersAlike s s.active v with ⟨c, h1, h2⟩ | ⟨u, a', h1, h2, ha⟩
  · rw [h1, h2]
    exact rfl
  · have ha' : a' = u.active := ha.elim id fun ⟨h3, h4, _⟩ => h3.trans h4.symm
    rw [h1, h2, ha']
    exact h.keep (hostTurn_sr h1) (hostTurn_position h1)

/-- The end of an ASM step neither reads nor writes a shift register. -/
theorem State.asmAdvance_with_sr (s : State) (v : Vector Word 6) :
    ({ s with sr := v } : State).asmAdvance = { s.asmAdvance with sr := v } := by
  show (if s.asmN.toNat + 1 = s.active.outSamples then _ else _) = _
  rw [State.asmAdvance]
  split <;> rfl

/-- An ASM step neither reads nor writes a shift register (43_frame_assembler.md R183). -/
theorem State.asmStep_with_sr (s : State) (v : Vector Word 6) :
    ({ s with sr := v } : State).asmStep = andThen s.asmStep fun t => .next { t with sr := v } := by
  show (if (!s.asmZero && !capExists s.params s.asmLine s.asmIndex) = true then _
    else if s.params.frameBytesMax < s.asmAddr + s.asmBytes.length then _
    else Host.Outcome.next ({ s.frameStore s.asmAddr s.asmBytes with sr := v } : State).asmAdvance) = _
  rw [State.asmAdvance_with_sr, State.asmStep]
  split
  · rfl
  · split <;> rfl

/-- ASM's turn neither reads nor writes a shift register (43_frame_assembler.md R183). -/
theorem asmTurn_with_sr (s : State) (v : Vector Word 6) :
    asmTurn { s with sr := v } = andThen (asmTurn s) fun t => .next { t with sr := v } := by
  by_cases hb : s.asmBusy = true
  · rw [asmTurn_of_busy hb, asmTurn_of_busy (s := { s with sr := v }) hb, State.asmStep_with_sr]
  · rw [Bool.not_eq_true] at hb
    rw [asmTurn_idle hb, asmTurn_idle (s := { s with sr := v }) hb, andThen_next]

/-- ASM's turn leaves the sequencer where it is (10_state.md R41). -/
theorem asmTurn_position {s t : State} (h : asmTurn s = .next t) :
    t.sr = s.sr ∧ t.synced = s.synced ∧ t.pos = s.pos ∧ t.active = s.active := by
  rw [asmTurn_effect h]
  exact ⟨rfl, rfl, rfl, rfl⟩

theorem asmTurn_stale {s : State} {v : Vector Word 6} (h : s.sameButStaleBits { s with sr := v }) :
    outcomesAgree State.sameButStaleBits (asmTurn s) (asmTurn { s with sr := v }) := by
  rw [asmTurn_with_sr s v]
  refine outcomesAgree_map fun u hu => ?_
  obtain ⟨hsr, hsync, hpos, hact⟩ := asmTurn_position hu
  exact h.keep hsr fun hs => ⟨hsync.symm.trans hs, hpos, hact⟩

/-- SEQ's turn is a bit event of the same sample (41_sequencer.md R126). -/
theorem seqTurn_stale {s : State} {v : Vector Word 6} (h : s.sameButStaleBits { s with sr := v }) :
    outcomesAgree State.sameButStaleBits (seqTurn s) (seqTurn { s with sr := v }) := by
  by_cases hr : s.run = true
  · rw [seqTurn_of_run hr, seqTurn_of_run (s := { s with sr := v }) hr, State.sampled_with_sr s v,
      State.toRisingEdge_with_sr s.sampled v]
    exact State.bitEvent_stale (h.keep (by simp) fun hs => ⟨by simpa using hs, by simp, by simp⟩) _
  · rw [Bool.not_eq_true] at hr
    rw [seqTurn_idle hr, seqTurn_idle (s := { s with sr := v }) hr]
    exact h

/-- The divider's part of a cycle is a tick, and a bit event of the same sample if `bclk_o` rises
(41_sequencer.md R125, R126). -/
theorem clockTick_stale {s : State} {v : Vector Word 6} (h : s.sameButStaleBits { s with sr := v }) :
    outcomesAgree State.sameButStaleBits (clockTick s) (clockTick { s with sr := v }) := by
  rw [clockTick, clockTick, State.divTick_with_sr s v, State.sampled_with_sr s.divTick v]
  split
  · exact State.bitEvent_stale (h.keep (by simp) fun hs => ⟨by simpa using hs, by simp, by simp⟩) _
  · exact h.keep (by simp) fun hs => ⟨by simpa using hs, by simp, by simp⟩

/-! ### The obligation -/

theorem State.sameButStaleBits.rfl {s : State} : s.sameButStaleBits s := ⟨Eq.refl s, fun _ _ _ _ _ => Eq.refl _⟩

/-- States that differ in stale bits alone differ by a choice of shift registers. -/
theorem State.sameButStaleBits.exists_sr {s t : State} (h : s.sameButStaleBits t) : ∃ v, t = { s with sr := v } :=
  ⟨t.sr, h.1⟩

/-- Every part of a turn keeps the relation: only a bit event reads a shift register, and it stores whole lanes. -/
theorem respected_sameButStaleBits : Respected State.sameButStaleBits where
  run h := by rw [h.1]
  nextIsAck h := by rw [h.1]; rfl
  nextTurn h := by rw [h.1]; rfl
  turnTaken {s t} h := by
    obtain ⟨v, rfl⟩ := h.exists_sr
    have ht : ({ s with sr := v } : State).turnTaken = { s.turnTaken with sr := v } :=
      (s.turnTaken_with_active_sr s.active v).trans (by simp)
    rw [ht]
    exact h.keep (by simp) fun hs => ⟨by simpa using hs, by simp, by simp⟩
  host h := by
    obtain ⟨v, rfl⟩ := h.exists_sr
    exact hostTurn_stale h
  seq h := by
    obtain ⟨v, rfl⟩ := h.exists_sr
    exact seqTurn_stale h
  asm h := by
    obtain ⟨v, rfl⟩ := h.exists_sr
    exact asmTurn_stale h
  tick h _ := by
    obtain ⟨v, rfl⟩ := h.exists_sr
    exact clockTick_stale h
  reset h := by
    obtain ⟨v, rfl⟩ := h.exists_sr
    exact .rfl

/-- Settles O57: a step keeps the relation, whatever the two states' stale bits are. -/
theorem staleShiftRegisterBitsAreUnobserved : Obligations.StaleShiftRegisterBitsAreUnobserved :=
  fun _ _ h => respected_sameButStaleBits.step h

end Sys2Proof.Machine

/-! The responses of the host window: which transactions answer ERR, and what a read leaves (20_memory.md R76, R80). -/

namespace Sys2Proof

/-- The transaction is a write: field W of its word (30_encoding.md R90). -/
def Instr.isWrite : Instr → Bool
  | .rdId | .rdParams | .rdCfg0 | .rdRate | .rdSysclk | .rdFramebytes | .rdChmap | .rdCtrl | .rdCmd | .rdStatus | .rdDiv
  | .rdErrflags | .rdIrqPend | .rdIrqEn | .rdMissed | .rdHalfcnt | .rdFrameLen | .rdCapwin .. | .rdFramewin _ => false
  | .busErr write _ _ => write
  | _ => true

open Machine in
/-- The transaction's response is ERR: it names nothing, or it writes to a window (20_memory.md R80). -/
def Instr.answersErr (p : Params) : Instr → Bool
  | .rdCapwin l _ i => !capExists p l.toNat i.toNat
  | .rdFramewin k => !frameMapped p k.toNat
  | .wrCapwin .. | .wrFramewin .. | .busErr .. => true
  | _ => false

end Sys2Proof

namespace Sys2Proof.Machine

/-! ### The transaction of an access -/

section
variable {p : Params} {write : Bool} {off : Offset} {d : Word}

/-! The fields of an offset fit the operands that carry them (30_encoding.md R100, R101). -/

theorem capLine_mod (off : Nat) : capLine off % 8 = capLine off := Nat.mod_mod _ _

theorem capIndex_mod (off : Nat) : capIndex off % 128 = capIndex off := Nat.mod_mod _ _

theorem frameIndex_mod (off : Nat) : frameIndex off % 1024 = frameIndex off := Nat.mod_mod _ _

/-- A word of the capture-RAM window that the map does not refuse exists (10_state.md R44). -/
theorem capExists_of_mapped (hu : ¬ unmapped p off.toNat = true) (hc : inCapWindow off.toNat = true) :
    capExists p (capLine off.toNat) (capIndex off.toNat) = true := by
  by_contra hx
  obtain ⟨hlo, hhi⟩ := (inCapWindow_iff _).1 hc
  exact hu ((unmapped_iff _ _).2 (.inr (.inr (.inl ⟨hlo, hhi, Bool.eq_false_of_not_eq_true hx⟩))))

/-- A word of the frame-RAM window that the map does not refuse is mapped (30_encoding.md R101). -/
theorem frameMapped_of_mapped (hu : ¬ unmapped p off.toNat = true) (hf : inFrameWindow off.toNat = true) :
    frameMapped p (frameIndex off.toNat) = true := by
  by_contra hx
  exact hu ((unmapped_iff _ _).2 (.inr (.inr (.inr ⟨(inFrameWindow_iff _).1 hf, Bool.eq_false_of_not_eq_true hx⟩))))

/-- An offset in neither window that the map does not refuse is a register's (20_memory.md R78). -/
theorem register_of_mapped (hu : ¬ unmapped p off.toNat = true) (hc : ¬ inCapWindow off.toNat = true)
    (hf : ¬ inFrameWindow off.toNat = true) : off.toNat < 0x44 := by
  rw [unmapped_iff] at hu
  rw [inCapWindow_iff] at hc
  rw [inFrameWindow_iff] at hf
  omega

theorem isWrite_decodeCmd (d : Word) : (decodeCmd d).isWrite = true := by
  unfold decodeCmd
  split_ifs <;> rfl

theorem answersErr_decodeCmd (p : Params) (d : Word) : (decodeCmd d).answersErr p = false := by
  unfold decodeCmd
  split_ifs <;> rfl

theorem isWrite_decodeRegRead (off : Offset) : (decodeRegRead off).isWrite = false := by
  unfold decodeRegRead
  split <;> rfl

theorem isWrite_decodeRegWrite (off : Offset) (d : Word) : (decodeRegWrite off d).isWrite = true := by
  unfold decodeRegWrite
  split
  case h_9 => exact isWrite_decodeCmd d
  all_goals rfl

theorem answersErr_decodeRegRead (h : off.toNat < 0x44) : (decodeRegRead off).answersErr p = false := by
  unfold decodeRegRead
  split
  case h_18 =>
    simp only [imp_false] at *
    omega
  all_goals rfl

theorem answersErr_decodeRegWrite (h : off.toNat < 0x44) : (decodeRegWrite off d).answersErr p = false := by
  unfold decodeRegWrite
  split
  case h_9 => exact answersErr_decodeCmd p d
  case h_18 =>
    simp only [imp_false] at *
    omega
  all_goals rfl

/-- The transaction of a word is a write iff the word's W says so (30_encoding.md R90, R94). -/
theorem isWrite_decodeAccess : (decodeAccess p write off d).isWrite = write := by
  unfold decodeAccess
  split_ifs with hu hc hf hw
  · rfl
  · cases write <;> rfl
  · cases write <;> rfl
  · rw [isWrite_decodeRegWrite, hw]
  · rw [isWrite_decodeRegRead, Bool.eq_false_of_not_eq_true hw]

/-- The transaction of a word answers ERR iff the address map says so for the word's direction and offset
(20_memory.md R80; 30_encoding.md R94). -/
theorem answersErr_decodeAccess : (decodeAccess p write off d).answersErr p = respondsErr p write off.toNat := by
  unfold decodeAccess respondsErr
  split_ifs with hu hc hf hw
  · rw [hu]
    rfl
  · have hx := capExists_of_mapped hu hc
    cases write
    · simp [decodeCapWindow, Instr.answersErr, hu, capLine_mod, capIndex_mod, hx]
    · simp [decodeCapWindow, Instr.answersErr, hc]
  · have hx := frameMapped_of_mapped hu hf
    cases write
    · simp [decodeFrameWindow, Instr.answersErr, hu, frameIndex_mod, hx]
    · simp [decodeFrameWindow, Instr.answersErr, hf]
  · rw [answersErr_decodeRegWrite (register_of_mapped hu hc hf)]
    simp [hu, hc, hf]
  · rw [answersErr_decodeRegRead (register_of_mapped hu hc hf)]
    simp [hu, hc, hf]

end

/-! ### The response of a transaction -/

/-- A write to a configuration register answers OKAY, whether it takes effect or not (10_state.md R49). -/
theorem State.busErrOut_writeCfg (s : State) (c : CfgRegs) : (s.writeCfg c).busErrOut = false := by
  unfold State.writeCfg
  split <;> rfl

theorem State.writeCfg_with_bus_resp (s : State) (c : CfgRegs) (b : List Txn) (q : Option Response) :
    ({ s with bus := b, resp := q } : State).writeCfg c = { s.writeCfg c with bus := b } := by
  unfold State.writeCfg
  dsimp only
  split <;> rfl

/-- A transaction that answers ERR is a bus error and nothing else (00_scope.md R8, 60_exceptions.md R241). -/
theorem exec_of_answersErr {i : Instr} {s : State} (h : i.answersErr s.params = true) :
    exec i s = .next (s.busError i.isWrite) := by
  cases i
  case rdCapwin l _ i => exact if_neg (by simpa [Instr.answersErr] using h)
  case rdFramewin k => exact if_neg (by simpa [Instr.answersErr] using h)
  case wrCapwin | wrFramewin | busErr => rfl
  all_goals cases h

/-- Every other transaction answers OKAY (60_exceptions.md R240, R241). -/
theorem exec_of_answersOkay {i : Instr} {s : State} (h : i.answersErr s.params = false) :
    ∃ t, exec i s = .next t ∧ t.busErrOut = false := by
  cases i
  case rdCapwin l _ i => exact ⟨_, if_pos (by simpa [Instr.answersErr] using h), rfl⟩
  case rdFramewin k => exact ⟨_, if_pos (by simpa [Instr.answersErr] using h), rfl⟩
  case wrCapwin | wrFramewin | busErr => cases h
  case wrCfg0 | wrRate | wrSysclk | wrFramebytes | wrChmap => exact ⟨_, rfl, s.busErrOut_writeCfg _⟩
  case cmdStart =>
    simp only [exec, execCmdStart]
    split_ifs <;> exact ⟨_, rfl, rfl⟩
  case cmdStop =>
    simp only [exec, execCmdStop]
    split_ifs <;> exact ⟨_, rfl, rfl⟩
  case cmdFrameReq =>
    simp only [exec, execCmdFrameReq]
    split_ifs <;> exact ⟨_, rfl, rfl⟩
  all_goals exact ⟨_, rfl, rfl⟩

/-- A read puts its response and changes nothing else (20_memory.md R76). -/
theorem exec_read {i : Instr} (h : i.isWrite = false) (s : State) : ∃ r, exec i s = .next { s with resp := some r } := by
  cases i
  case rdCapwin =>
    simp only [exec, execRdCapwin]
    split <;> exact ⟨_, rfl⟩
  case rdFramewin =>
    simp only [exec, execRdFramewin]
    split <;> exact ⟨_, rfl⟩
  case rdId | rdParams | rdCfg0 | rdRate | rdSysclk | rdFramebytes | rdChmap | rdCtrl | rdCmd | rdStatus | rdDiv |
    rdErrflags | rdIrqPend | rdIrqEn | rdMissed | rdHalfcnt | rdFrameLen | busErr => exact ⟨_, rfl⟩
  all_goals cases h

/-- No transaction reads the words still to present or the last response, and none changes the former
(logs 2, 10). -/
theorem exec_with_bus_resp (i : Instr) (s : State) (b : List Txn) (q : Option Response) :
    exec i { s with bus := b, resp := q } = andThen (exec i s) fun t => .next { t with bus := b } := by
  cases i
  case wrCfg0 | wrRate | wrSysclk | wrFramebytes | wrChmap => exact congrArg _ (s.writeCfg_with_bus_resp _ b q)
  case rdCapwin =>
    simp only [exec, execRdCapwin]
    split <;> rfl
  case rdFramewin =>
    simp only [exec, execRdFramewin]
    split <;> rfl
  case cmdStart =>
    simp only [exec, execCmdStart]
    split_ifs <;> rfl
  case cmdStop =>
    simp only [exec, execCmdStop]
    split_ifs <;> rfl
  case cmdFrameReq =>
    unfold exec execCmdFrameReq State.mounted State.stream
    dsimp only
    split_ifs <;> rfl
  all_goals rfl

/-! ### The address map as arithmetic -/

/-- Inside the capture-RAM window o[12:10] is all that is left of the offset above the half (30_encoding.md R100). -/
theorem capLine_of_lt {off : Nat} (h : off < 0x3000) : capLine off = (off - 0x1000) / 1024 :=
  Nat.mod_eq_of_lt (by rw [capBase]; omega)

/-- Inside the frame-RAM window (o - 0x3000)[11:2] is the whole word index (30_encoding.md R101). -/
theorem frameIndex_of_lt {off : Nat} (h : off < 0x4000) : frameIndex off = (off - 0x3000) / 4 :=
  Nat.mod_eq_of_lt (by rw [frameBase]; omega)

/-- An offset that names nothing, as arithmetic on the 14-bit offset (20_memory.md R80 (a) to (d)). -/
theorem unmapped_iff_arith {p : Params} {off : Nat} (ho : off < 0x4000) : unmapped p off = true ↔
    off % 4 ≠ 0 ∨ (0x0044 ≤ off ∧ off ≤ 0x0FFF) ∨
    (0x1000 ≤ off ∧ off ≤ 0x2FFF ∧
      ¬ ((off - 0x1000) / 1024 < p.nlinesMax ∧ (off - 0x1000) / 4 % 128 < p.halfWordsMax)) ∨
    (0x3000 ≤ off ∧ ¬ 4 * ((off - 0x3000) / 4) < 18 * p.halfWordsMax) := by
  rw [unmapped_iff, ← Bool.not_eq_true, ← Bool.not_eq_true, capExists_iff, frameMapped_iff, frameIndex_of_lt ho]
  refine or_congr Iff.rfl (or_congr (by omega) (or_congr ?_ Iff.rfl))
  constructor
  · rintro ⟨hlo, hhi, hx⟩
    exact ⟨hlo, by omega, capLine_of_lt hhi ▸ hx⟩
  · rintro ⟨hlo, hhi, hx⟩
    exact ⟨hlo, by omega, (capLine_of_lt (off := off) (by omega)).symm ▸ hx⟩

/-- A write answers ERR in both windows, and any access where the offset names nothing (20_memory.md R80). -/
theorem respondsErr_iff (p : Params) (write : Bool) (off : Nat) :
    respondsErr p write off = true ↔ unmapped p off = true ∨ (write = true ∧ 0x1000 ≤ off) := by
  rw [respondsErr, Bool.or_eq_true, Bool.and_eq_true, Bool.or_eq_true, inCapWindow_iff, inFrameWindow_iff]
  refine or_congr Iff.rfl (and_congr Iff.rfl (by omega))

/-! ### HOST's turn with a legal word -/

/-- HOST's turn with a word whose T[46] = 0 (30_encoding.md R93). -/
theorem hostTurn_of_legal {s : State} {w : Txn} {rest : List Txn} (hb : s.bus = w :: rest) (hz : w.z = false) :
    hostTurn s = exec (decodeAccess s.params w.w w.off w.data) { s with bus := rest } :=
  hostTurn_of_decode hb ((decode_eq_some_iff s.params w _).2 ⟨hz, rfl⟩)

/-- Settles O7: the word's transaction answers ERR iff the map says so, and it is a bus error if it does. -/
theorem errorResponseExactlyWhereTheMapSays : Obligations.ErrorResponseExactlyWhereTheMapSays := by
  intro s w rest hb hz off write bad
  have hmap : (decodeAccess s.params w.w w.off w.data).answersErr s.params = true ↔ bad := by
    rw [answersErr_decodeAccess, respondsErr_iff, unmapped_iff_arith w.off.isLt, or_assoc, or_assoc, or_assoc]
    rfl
  rw [hostTurn_of_legal hb hz]
  refine ⟨fun h => ?_, fun h => ?_⟩
  · rw [exec_of_answersErr (s := { s with bus := rest }) (hmap.2 h), isWrite_decodeAccess]
    rfl
  · exact exec_of_answersOkay (s := { s with bus := rest }) (Bool.eq_false_of_not_eq_true (mt hmap.1 h))

/-- Settles O8: both turns perform the same read, and its response depends on nothing that the first turn changed. -/
theorem readsHaveNoSideEffect : Obligations.ReadsHaveNoSideEffect := by
  intro s w rest hb hz hw
  have hr : (decodeAccess s.params w.w w.off w.data).isWrite = false := isWrite_decodeAccess.trans hw
  obtain ⟨r, hread⟩ := exec_read hr s
  refine ⟨r, ?_, ?_⟩
  · rw [hostTurn_of_legal hb hz, exec_with_bus_resp _ s (w :: rest) s.resp, hread]
    rfl
  · rw [hostTurn_of_legal (s := { s with bus := w :: rest, resp := some r }) rfl hz,
      exec_with_bus_resp _ s rest (some r), hread]
    rfl

end Sys2Proof.Machine

/-! The decoder and the encoder are inverse to each other (30_encoding.md R90 to R97). -/

namespace Sys2Proof

open Machine

/-! ### Registers and commands -/

section
variable {p : Params} {w : Bool} {off : Offset} {d : Word} {i : Instr}

/-- A word at a register's offset decodes by its register (30_encoding.md R94). -/
theorem decode_mkTxn_reg (h : off.toNat < 0x44) (h4 : off.toNat % 4 = 0)
    (hi : (if w then decodeRegWrite off d else decodeRegRead off) = i) : decode p (mkTxn w off d) = some i := by
  rw [decode_mkTxn, decodeAccess_reg p w off d h h4, hi]

/-- A value above 4 is a reserved command (30_encoding.md R96). -/
theorem decodeCmd_of_reserved (h : 4 < d.toNat) : decodeCmd d = .cmdRsvd d := by
  have hne (c : Word) (hc : c.toNat ≤ 4) : d ≠ c := by
    rintro rfl
    omega
  rw [decodeCmd, if_neg (hne _ (by decide)), if_neg (hne _ (by decide)), if_neg (hne _ (by decide)),
    if_neg (hne _ (by decide)), if_neg (hne _ (by decide))]

/-- A reserved value is above 4: the five below are commands of their own (30_encoding.md R96). -/
theorem wf_decodeCmd (p : Params) (d : Word) : (decodeCmd d).wf p = true := by
  unfold decodeCmd
  split_ifs with h0 h1 h2 h3 h4
  case neg => exact decide_eq_true (by bv_omega)
  all_goals rfl

/-- The word of the command that a value spells is the write of that value to CMD (30_encoding.md R96). -/
theorem encode_decodeCmd (d : Word) : encode (decodeCmd d) = mkTxn true 0x020 d := by
  unfold decodeCmd
  split_ifs with h0 h1 h2 h3 h4
  case neg => rfl
  all_goals
    subst d
    rfl

/-- A register's offset is one of seventeen (10_state.md R21). -/
theorem exists_register_offset (h : off.toNat < 0x44) (h4 : off.toNat % 4 = 0) :
    ∃ k < 17, off = BitVec.ofNat 14 (4 * k) :=
  ⟨off.toNat / 4, by omega, BitVec.eq_of_toNat_eq (by rw [BitVec.toNat_ofNat]; omega)⟩

/-- The word of a register's read is the read at its offset, with no data (30_encoding.md R92, R94). -/
theorem encode_decodeRegRead (h : off.toNat < 0x44) (h4 : off.toNat % 4 = 0) :
    encode (decodeRegRead off) = mkTxn false off 0 := by
  obtain ⟨k, hk, rfl⟩ := exists_register_offset h h4
  interval_cases k <;> rfl

/-- The word of a register's write is the write at its offset with its data (30_encoding.md R94). -/
theorem encode_decodeRegWrite (h : off.toNat < 0x44) (h4 : off.toNat % 4 = 0) :
    encode (decodeRegWrite off d) = mkTxn true off d := by
  obtain ⟨k, hk, rfl⟩ := exists_register_offset h h4
  interval_cases k
  on_goal 9 => exact encode_decodeCmd d
  all_goals rfl

theorem wf_decodeRegRead (h : off.toNat < 0x44) : (decodeRegRead off).wf p = true := by
  unfold decodeRegRead
  split
  case h_18 =>
    simp only [imp_false] at *
    omega
  all_goals rfl

theorem wf_decodeRegWrite (h : off.toNat < 0x44) : (decodeRegWrite off d).wf p = true := by
  unfold decodeRegWrite
  split
  case h_9 => exact wf_decodeCmd p d
  case h_18 =>
    simp only [imp_false] at *
    omega
  all_goals rfl

end

/-! ### Offsets -/

section
variable {p : Params} {off : Offset}

/-- An offset that the map does not refuse is a word's (20_memory.md R80 (a)). -/
theorem aligned_of_mapped (hu : ¬ unmapped p off.toNat = true) : off.toNat % 4 = 0 := by
  by_contra h4
  exact hu ((unmapped_iff _ _).2 (.inl h4))

/-- An offset of the capture-RAM window is that of the word its fields name (30_encoding.md R100). -/
theorem capOffset_of_fields (h4 : off.toNat % 4 = 0) (hc : inCapWindow off.toNat = true) :
    BitVec.ofNat 14 (capBase + capAddr (capLine off.toNat) (capHalf off.toNat) (capIndex off.toNat)) = off := by
  obtain ⟨hlo, hhi⟩ := (inCapWindow_iff _).1 hc
  have hline := capLine_of_lt hhi
  have hhalf : (capHalf off.toNat).toNat = (off.toNat - 0x1000) / 512 % 2 := by
    rw [capHalf, capBase]
    rcases Nat.mod_two_eq_zero_or_one ((off.toNat - 0x1000) / 512) with h | h <;> rw [h] <;> rfl
  have hindex : capIndex off.toNat = (off.toNat - 0x1000) / 4 % 128 := rfl
  apply BitVec.eq_of_toNat_eq
  rw [BitVec.toNat_ofNat, capAddr, hline, hhalf, hindex, capBase]
  omega

/-- An offset of the frame-RAM window is that of the word it names (30_encoding.md R101). -/
theorem frameOffset_of_index (h4 : off.toNat % 4 = 0) (hf : inFrameWindow off.toNat = true) :
    BitVec.ofNat 14 (frameBase + 4 * frameIndex off.toNat) = off := by
  have hlo := (inFrameWindow_iff _).1 hf
  have hindex := frameIndex_of_lt off.isLt
  apply BitVec.eq_of_toNat_eq
  rw [BitVec.toNat_ofNat, hindex, frameBase]
  omega

end

/-! ### The obligations -/

/-- Settles O1: the word's offset names the transaction's own register or window word, or nothing. -/
theorem decodeAfterEncodeIsIdentity : Obligations.DecodeAfterEncodeIsIdentity := by
  intro p i hi
  cases i
  case cmdRsvd d => exact decode_mkTxn_reg (by decide) (by decide) (decodeCmd_of_reserved (of_decide_eq_true hi))
  case rdCapwin l h k => rw [encode, decode_mkTxn, decodeAccess_cap p false l h k 0 hi]; rfl
  case wrCapwin l h k d => rw [encode, decode_mkTxn, decodeAccess_cap p true l h k d hi]; rfl
  case rdFramewin k => rw [encode, decode_mkTxn, decodeAccess_frame p false k 0 hi]; rfl
  case wrFramewin k d => rw [encode, decode_mkTxn, decodeAccess_frame p true k d hi]; rfl
  case busErr write off d =>
    obtain ⟨hu, hd⟩ := Bool.and_eq_true_iff.1 hi
    rw [encode, decode_mkTxn, decodeAccess, if_pos hu, mkBusErr]
    cases write
    · rw [show d = 0 from of_decide_eq_true hd]
      rfl
    · rfl
  all_goals exact decode_mkTxn_reg (by decide) (by decide) rfl

/-- Every access is a well-formed transaction (30_encoding.md R93). -/
theorem wf_decodeAccess (p : Params) (write : Bool) (off : Offset) (d : Word) :
    (decodeAccess p write off d).wf p = true := by
  unfold decodeAccess
  split_ifs with hu hc hf
  · cases write <;> simp [mkBusErr, Instr.wf, hu]
  · have hx := capExists_of_mapped hu hc
    cases write <;> simpa [decodeCapWindow, Instr.wf, capLine_mod, capIndex_mod] using hx
  · have hx := frameMapped_of_mapped hu hf
    cases write <;> simpa [decodeFrameWindow, Instr.wf, frameIndex_mod] using hx
  · exact wf_decodeRegWrite (register_of_mapped hu hc hf)
  · exact wf_decodeRegRead (register_of_mapped hu hc hf)

/-- Settles O2: the decoder refuses exactly the words with T[46] = 1, and reads every other by its fields. -/
theorem decoderIsTotalOnLegalWords : Obligations.DecoderIsTotalOnLegalWords := fun p t =>
  ⟨fun hz => ⟨_, (decode_eq_some_iff p t _).2 ⟨hz, rfl⟩, wf_decodeAccess p _ _ _⟩, (decode_eq_none_iff p t).2⟩

/-- The word of the transaction of an access is the access's own, unless it is a read with data (30_encoding.md R92). -/
theorem encode_decodeAccess (p : Params) (write : Bool) (off : Offset) (d : Word) (h : write = true ∨ d = 0) :
    encode (decodeAccess p write off d) = mkTxn write off d := by
  have hread (hw : ¬ write = true) : d = 0 := h.resolve_left hw
  unfold decodeAccess
  split_ifs with hu hc hf hw
  · cases write
    · rw [hread Bool.false_ne_true]
      rfl
    · rfl
  · have hoff := capOffset_of_fields (aligned_of_mapped hu) hc
    cases write
    · simp [decodeCapWindow, encode, capLine_mod, capIndex_mod, hoff, hread Bool.false_ne_true]
    · simp [decodeCapWindow, encode, capLine_mod, capIndex_mod, hoff]
  · have hoff := frameOffset_of_index (aligned_of_mapped hu) hf
    cases write
    · simp [decodeFrameWindow, encode, frameIndex_mod, hoff, hread Bool.false_ne_true]
    · simp [decodeFrameWindow, encode, frameIndex_mod, hoff]
  · rw [hw, encode_decodeRegWrite (register_of_mapped hu hc hf) (aligned_of_mapped hu)]
  · rw [hread hw, Bool.eq_false_of_not_eq_true hw,
      encode_decodeRegRead (register_of_mapped hu hc hf) (aligned_of_mapped hu)]

/-- Settles O3: a canonical word is the word of its own fields, and so is that of the transaction it spells. -/
theorem encodeAfterDecodeIsIdentityOnCanonicalWords : Obligations.EncodeAfterDecodeIsIdentityOnCanonicalWords := by
  intro p t i hi hcanon
  obtain ⟨hz, rfl⟩ := (decode_eq_some_iff p t i).1 hi
  rw [encode_decodeAccess p t.w t.off t.data hcanon, mkTxn_fields t hz]

/-- Settles O4: each word's own evaluation. -/
theorem wordsOfTheVectorTableDecode : Obligations.WordsOfTheVectorTableDecode := by
  unfold Obligations.WordsOfTheVectorTableDecode
  decide

end Sys2Proof

namespace Sys2Proof.Machine

/-- Settles O6: HOST's turn decodes the word, which spells nothing. -/
theorem illegalWordIsRefused : Obligations.IllegalWordIsRefused := by
  intro s ts w rest ht hb hz
  have hnone : decode s.params w = none := (decode_eq_none_iff s.params w).2 hz
  rw [step_of_turns ht, takeTurn]
  simp only [hostTurn, hb, hnone]

end Sys2Proof.Machine

/-! The words and turns of the host's lines (30_encoding.md R102, R103; 20_memory.md R78). -/

namespace Sys2Proof

/-- Sixteen bits of W, Z and OFF, then DATA (30_encoding.md R90). -/
theorem mkTxn_eq_append (w : Bool) (off : Offset) (d : Word) :
    mkTxn w off d = (BitVec.ofBool w ++ (0#1 ++ off) : BitVec 16) ++ d := by
  rw [mkTxn, BitVec.append_assoc, BitVec.append_assoc]
  rfl

/-- A read's DATA is no part of the transaction (30_encoding.md R92). -/
theorem decodeAccess_read (p : Params) (off : Offset) (d d' : Word) :
    decodeAccess p false off d = decodeAccess p false off d' := rfl

end Sys2Proof

namespace Sys2Proof.Machine

/-- A line whose one word spells a transaction, as the lines' statement has it. -/
theorem map_decode_words {p : Params} {l : Line} {w : Txn} {i : Instr} (hw : l.words = [w]) (h : decode p w = some i) :
    l.words.map (decode p) = [some i] := by
  rw [hw, List.map_singleton, h]

/-- RD of a register name is the read at the register's offset (30_encoding.md R102). -/
theorem decode_rd_words {p : Params} (r : RegName) :
    (Line.rd r).words.map (decode p) = [some (decodeRegRead r.offset)] :=
  map_decode_words rfl (decode_mkTxn_reg (by cases r <;> decide) (by cases r <;> decide) rfl)

/-- WR of a register name is the write at the register's offset (30_encoding.md R102). -/
theorem decode_wr_words {p : Params} (r : RegName) (d : Word) :
    (Line.wr r d).words.map (decode p) = [some (decodeRegWrite r.offset d)] :=
  map_decode_words rfl (decode_mkTxn_reg (by cases r <;> decide) (by cases r <;> decide) rfl)

/-- A raw-offset line spells every transaction (30_encoding.md R93, R102). -/
theorem exists_raw_line {p : Params} {w : Txn} {i : Instr} (h : decode p w = some i) :
    ∃ l, (l = Line.rdAt w.off ∨ l = Line.wrAt w.off w.data) ∧ l.words.map (decode p) = [some i] := by
  obtain ⟨-, hi⟩ := (decode_eq_some_iff p w i).1 h
  cases hw : w.w <;> rw [hw] at hi
  · refine ⟨_, .inl rfl, map_decode_words rfl ?_⟩
    rw [decode_mkTxn, decodeAccess_read p w.off 0 w.data, hi]
  · refine ⟨_, .inr rfl, map_decode_words rfl ?_⟩
    rw [decode_mkTxn, hi]

/-- The read that ends a WAIT answered data that meets its condition (30_encoding.md R103). -/
theorem State.waitEnds_iff (s : State) (mask val : Word) :
    s.waitEnds mask val = true ↔ ∃ v e, s.resp = some (.read v e) ∧ v &&& mask = val := by
  unfold State.waitEnds
  cases h : s.resp with
  | none => simp
  | some r => cases r <;> simp [waitHolds]

/-- A WAIT ends, if it ends in a state, at a read that meets its condition (30_encoding.md R103). -/
theorem runWait_next {r : RegName} {mask val : Word} {t : State} :
    ∀ (n : Nat) (s : State), runWait r mask val n s = some (.next t) → t.waitEnds mask val = true
  | 0, _, h => nomatch h
  | n + 1, s, h => by
    obtain ⟨u, -, hu⟩ := (thenRun_eq_some_next_iff _ _ _).1 h
    split at hu
    next hw =>
      cases hu
      exact hw
    next =>
      obtain ⟨u', -, h'⟩ := (thenRun_eq_some_next_iff _ _ _).1 hu
      exact runWait_next n u' h'

/-- A program of one WAIT ends where that WAIT does. -/
theorem ProgramEnds.waitEnds {r : RegName} {mask val : Word} {s t : State} (h : ProgramEnds [.wait r mask val] s t) :
    t.waitEnds mask val = true := by
  obtain ⟨n, h⟩ := h
  obtain ⟨o, ho, h⟩ := Option.bind_eq_some_iff.1 h
  obtain ⟨u, rfl, h⟩ := (thenRun_eq_some_next_iff _ _ _).1 h
  cases h
  exact runWait_next n s ho

/-- A line takes HOST's turns for its words and SEQ's for its samples (70_reset_and_hazards.md R285). -/
theorem Line.count_turns (l : Line) :
    l.turns.count .host = l.words.length ∧ l.turns.count .seq = l.samples.length := by
  cases l
  case ser samples => exact ⟨List.count_replicate .., List.count_replicate_self ..⟩
  case asmrun => exact ⟨List.count_replicate .., List.count_replicate ..⟩
  all_goals exact ⟨rfl, rfl⟩

/-- An access in the window is the transaction at its offset from the base (20_memory.md R78). -/
theorem HostAccess.lines_inside (base : Nat) (off : Offset) (d : Word) :
    (HostAccess.load (base + off.toNat)).lines base = [.rdAt off] ∧
      (HostAccess.store (base + off.toNat) d).lines base = [.wrAt off d] := by
  have hin : inWindow base (base + off.toNat) = true := by
    rw [inWindow_iff]
    omega
  simp [HostAccess.lines, hin]

/-- An access outside the window is no transaction (20_memory.md R78). -/
theorem HostAccess.lines_outside {base addr : Nat} (h : addr < base ∨ base + 0x4000 ≤ addr) (d : Word) :
    (HostAccess.load addr).lines base = [] ∧ (HostAccess.store addr d).lines base = [] := by
  have hout : ¬ inWindow base addr = true := by
    rw [inWindow_iff]
    omega
  simp [HostAccess.lines, hout]

/-- Settles O60: a line's words are built from the offsets and values of the transactions it spells. -/
theorem linesSpellTheirTransactions : Obligations.LinesSpellTheirTransactions := by
  intro p m
  refine ⟨?registers, decode_rd_words .cmd, ?commands, ?reserved, ?raw, fun _ _ h => exists_raw_line h, ?windows, rfl,
    ?ack, ?clrerr, ?wait, Line.count_turns, ?base⟩
  case registers =>
    simp [decode_rd_words, decode_wr_words, RegName.offset, decodeRegRead, decodeRegWrite]
  case commands =>
    simp only [decode_wr_words]
    rfl
  case reserved =>
    intro hm
    rw [decode_wr_words, ← decodeCmd_of_reserved hm]
    rfl
  case raw =>
    exact fun off => ⟨_, _, rfl, rfl, Txn.w_mkTxn .., Txn.z_mkTxn .., Txn.off_mkTxn .., Txn.data_mkTxn ..,
      Txn.w_mkTxn .., Txn.z_mkTxn .., Txn.off_mkTxn .., Txn.data_mkTxn ..⟩
  case windows =>
    exact fun l h i k hc hf => ⟨map_decode_words rfl (decodeAfterEncodeIsIdentity p (.rdCapwin l h i) hc),
      map_decode_words rfl (decodeAfterEncodeIsIdentity p (.rdFramewin k) hf)⟩
  case ack => exact congrArg ([·]) (mkTxn_eq_append true 0x030 m)
  case clrerr => exact congrArg ([·]) (mkTxn_eq_append true 0x02C m)
  case wait => exact fun r mask val => ⟨rfl, fun s t h => (t.waitEnds_iff mask val).1 h.waitEnds⟩
  case base =>
    refine fun base addr => ⟨?_, fun h => HostAccess.lines_outside h m⟩
    rintro off rfl
    exact HostAccess.lines_inside base off m

end Sys2Proof.Machine

/-! Every step keeps the machine's invariant (30_encoding.md R95; 10_state.md R31 to R48). -/

namespace Sys2Proof.Machine

/-! ### Bits outside a mask -/

section
variable {w : Nat}

/-- What a mask leaves has no bit outside it. -/
theorem and_mask_outside (a m : BitVec w) : a &&& m &&& ~~~m = 0 := by
  rw [BitVec.and_assoc]
  simp

/-- Bits that are set inside a mask set none outside it. -/
theorem or_outside {a b m : BitVec w} (ha : a &&& ~~~m = 0) (hb : b &&& ~~~m = 0) : (a ||| b) &&& ~~~m = 0 := by
  rw [BitVec.and_comm, BitVec.and_or_distrib_left, BitVec.and_comm, ha, BitVec.and_comm, hb]
  simp

/-- Bits that are cleared set none outside a mask. -/
theorem and_outside {a m : BitVec w} (ha : a &&& ~~~m = 0) (b : BitVec w) : a &&& b &&& ~~~m = 0 := by
  rw [BitVec.and_assoc, BitVec.and_comm b, ← BitVec.and_assoc, ha]
  exact BitVec.zero_and

end

/-- Fewer lines are among more. -/
theorem lineMask_outside {n k : Nat} (h : n ≤ k) : lineMask n &&& ~~~lineMask k = 0 := by
  apply lines_ext
  intro l hl
  simp only [BitVec.getLsbD_and, BitVec.getLsbD_not, getLsbD_lineMask, hl, decide_true, Bool.true_and]
  by_cases hn : l < n
  · simp [hn, Nat.lt_of_lt_of_le hn h]
  · simp [hn]

theorem errFlag_outside (f : ErrFlag) : (1#32 <<< errFlagBit f) &&& ~~~errMask = 0 := by cases f <;> decide

/-- The bits of the lines lie in IRQ_PEND's HALF_DONE (10_state.md R34). -/
theorem setWidth_lines_outside : ∀ m : BitVec 6, m.setWidth 32 &&& ~~~irqMask = 0 := by decide

/-- The HALF_DONE of IRQ_PEND with bits set. -/
theorem extractLsb'_or_setWidth (x : Word) (m : BitVec 6) :
    (x ||| m.setWidth 32).extractLsb' 0 6 = x.extractLsb' 0 6 ||| m := by
  rw [BitVec.extractLsb'_or]
  congr 1
  ext i hi
  simp [BitVec.getLsbD_eq_getElem hi, Nat.lt_trans hi]

/-! ### Updates that the invariant does not see -/

section
variable {s : State}

/-- The response and the inputs still to come are no part of the invariant. -/
theorem State.Inv.with_inputs (h : s.Inv) (q : Option Response) (b : List Txn) (l : List SerialIn) (ts : List Turn)
    (n : Nat) : ({ s with resp := q, bus := b, serial := l, turns := ts, draws := n } : State).Inv :=
  ⟨{ h.regs with }, { h.active with }, { h.seq with }, h.wt, { h.asm with }, { h.ram with }⟩

theorem State.Inv.turnTaken (h : s.Inv) : s.turnTaken.Inv := by
  unfold State.turnTaken
  split <;> exact h.with_inputs ..

theorem State.Inv.sampled (h : s.Inv) : s.sampled.Inv := by
  unfold State.sampled
  split <;> exact h.with_inputs ..

/-! ### The active configuration and the divider -/

/-- What runs has a configuration that passed validation (10_state.md R39). -/
theorem State.ActiveOk.valid_of_run (h : s.ActiveOk) (hr : s.run = true) : validate s.params s.active = 0 :=
  h.valid (h.run hr)

/-- A validated divider is at least one whole cycle, whatever the accumulator holds (41_sequencer.md R121, R125). -/
theorem State.ActiveOk.divPeriod_pos (h : s.ActiveOk) (hv : s.cfgValid = true) : 0 < s.divPeriod := by
  have hq : 256 ≤ s.divq.toNat := by
    obtain ⟨-, -, -, -, -, -, -, hq, -⟩ := (validate_eq_zero_iff _ _).1 (h.valid hv)
    rwa [h.divq hv]
  have hint := s.divInt_eq
  have hle := s.divInt_le_divPeriod
  omega

/-- While RUN = 1 the divider may be at any cycle of its period (10_state.md R41). -/
theorem State.Inv.with_divider (h : s.Inv) (hr : s.run = true) {c : Nat} {a : BitVec 8} (b : Bool)
    (hc : c < ({ s with divAcc := a } : State).divPeriod) :
    ({ s with divCnt := c, divAcc := a, bclk := b } : State).Inv :=
  ⟨{ h.regs with }, { h.active with },
    { h.seq with divider := fun h0 => absurd hr (by simp [show s.run = false from h0]), divCnt := fun _ => hc },
    h.wt, { h.asm with }, { h.ram with }⟩

/-- The end of a period is the first cycle of the next (41_sequencer.md R125). -/
theorem State.Inv.divToggle (h : s.Inv) (hr : s.run = true) : s.divToggle.Inv :=
  h.with_divider hr _ (State.ActiveOk.divPeriod_pos { h.active with } (h.active.run hr))

theorem State.Inv.divTick (h : s.Inv) (hr : s.run = true) : s.divTick.Inv := by
  by_cases hlast : s.divPeriod ≤ s.divCnt + 1
  · rw [State.divTick_last hlast]
    exact h.divToggle hr
  · rw [State.divTick_inside (Nat.lt_of_not_le hlast)]
    exact h.with_divider hr _ (Nat.lt_of_not_le hlast)

theorem State.Inv.toRisingEdge (h : s.Inv) (hr : s.run = true) : s.toRisingEdge.Inv := by
  unfold State.toRisingEdge
  split
  · exact (h.divToggle hr).divToggle hr
  · exact h.divToggle hr

end

/-! ### The position of a bit -/

/-- Frame position `p` belongs to word `k` of a half (41_sequencer.md R130 to R132). -/
structure CfgRegs.SlotAt (c : CfgRegs) (p k : Nat) : Prop where
  word : k < c.half
  pos : p < c.frameBits
  slot : p / 32 = k % c.slots

section
variable {pr : Params} {c : CfgRegs} {p k : Nat}

/-- A half is whole serial frames, of one slot or of two (00_scope.md R6). -/
theorem slots_of_valid (hv : validate pr c = 0) : (c.slots = 1 ∨ c.slots = 2) ∧ c.half % c.slots = 0 := by
  obtain ⟨-, -, hslots, -⟩ := (validate_eq_zero_iff pr c).1 hv
  exact ⟨hslots, Nat.mul_mod_left _ _⟩

/-- Word 0 begins at position 0 (41_sequencer.md R128). -/
theorem slotAt_zero (hv : validate pr c = 0) : c.SlotAt 0 0 := by
  obtain ⟨hslots, -⟩ := slots_of_valid hv
  have hhalf := half_le hv
  refine ⟨by omega, ?_, by simp⟩
  rw [CfgRegs.frameBits]
  omega

/-- The words of a partial serial frame dropped, the next bit is again a frame's first (41_sequencer.md R129). -/
theorem CfgRegs.SlotAt.realigned (h : c.SlotAt p k) : c.SlotAt 0 (k - k % c.slots) where
  word := Nat.lt_of_le_of_lt (Nat.sub_le _ _) h.word
  pos := Nat.zero_lt_of_lt h.pos
  slot := by rw [Nat.zero_div, Nat.mod_eq_zero_of_dvd (Nat.dvd_sub_mod k)]

/-- Inside a slot the next bit belongs to the same word (41_sequencer.md R132). -/
theorem CfgRegs.SlotAt.within (h : c.SlotAt p k) (hp : p % 32 ≠ 31) :
    c.SlotAt ((p + 1) % c.frameBits) k := by
  obtain ⟨hk, hlt, hslot⟩ := h
  have hnext : p + 1 < c.frameBits := by
    rw [CfgRegs.frameBits] at hlt ⊢
    omega
  rw [Nat.mod_eq_of_lt hnext]
  exact ⟨hk, hnext, by omega⟩

/-- At the end of a slot the next bit belongs to the next word (41_sequencer.md R131, R132). -/
theorem CfgRegs.SlotAt.next (hv : validate pr c = 0) (h : c.SlotAt p k) (hp : p % 32 = 31) (hk : k + 1 ≠ c.half) :
    c.SlotAt ((p + 1) % c.frameBits) (k + 1) := by
  obtain ⟨hslots, -⟩ := slots_of_valid hv
  obtain ⟨hw, hlt, hslot⟩ := h
  refine ⟨by omega, Nat.mod_lt _ (by omega), ?_⟩
  rw [CfgRegs.frameBits] at hlt ⊢
  rcases hslots with e | e <;> rw [e] at hlt hslot ⊢ <;> omega

/-- At the end of a half the next bit belongs to word 0 (42_capture_buffer.md R151). -/
theorem CfgRegs.SlotAt.fills (hv : validate pr c = 0) (h : c.SlotAt p k) (hp : p % 32 = 31) (hk : k + 1 = c.half) :
    c.SlotAt ((p + 1) % c.frameBits) 0 := by
  obtain ⟨hslots, hhalf⟩ := slots_of_valid hv
  obtain ⟨hw, hlt, hslot⟩ := h
  refine ⟨by omega, Nat.mod_lt _ (by omega), ?_⟩
  rw [CfgRegs.frameBits] at hlt ⊢
  rcases hslots with e | e <;> rw [e] at hlt hslot hhalf ⊢ <;> omega

/-- A position fits `pos` (10_state.md R41). -/
theorem CfgRegs.SlotAt.pos_lt (hv : validate pr c = 0) (h : c.SlotAt p k) : p < 64 := by
  obtain ⟨hslots, -⟩ := slots_of_valid hv
  have hlt := h.pos
  rw [CfgRegs.frameBits] at hlt
  omega

end

/-- Streaming with sync, and the frame position of the bit that comes is `p`: the invariant, with `p` for `pos`
(41_sequencer.md R126). -/
structure State.AlignedAt (s : State) (p : Nat) : Prop where
  regs : s.RegsOk
  active : s.ActiveOk
  wt : s.wt = 0 ∨ s.wt = s.activeLines
  asm : s.AsmOk
  ram : s.RamOk
  run : s.run = true
  synced : s.synced = true
  slot : s.active.SlotAt p s.widx.toNat
  divCnt : s.divCnt < s.divPeriod

section
variable {s : State} {p : Nat}

theorem State.SeqOk.slotAt (h : s.SeqOk) (hr : s.run = true) : s.active.SlotAt s.pos.toNat s.widx.toNat :=
  ⟨h.widx hr, h.pos hr, h.slot hr⟩

theorem State.AlignedAt.valid (h : s.AlignedAt p) : validate s.params s.active = 0 := h.active.valid_of_run h.run

/-- The state whose `pos` is the position meets the invariant. -/
theorem State.AlignedAt.inv (h : s.AlignedAt p) : ({ s with pos := BitVec.ofNat 6 p } : State).Inv := by
  have hp : (BitVec.ofNat 6 p).toNat = p := by
    rw [BitVec.toNat_ofNat]
    exact Nat.mod_eq_of_lt (h.slot.pos_lt h.valid)
  have hrun : ¬ s.run = false := by simp [h.run]
  have hsynced : ¬ s.synced = false := by simp [h.synced]
  exact ⟨{ h.regs with }, { h.active with },
    { stopped := fun h0 => absurd h0 hrun
      idle := fun h0 => absurd h0 hsynced
      widx := fun _ => h.slot.word
      pos := fun _ => hp.symm ▸ h.slot.pos
      slot := fun _ => hp.symm ▸ h.slot.slot
      divider := fun h0 => absurd h0 hrun
      divCnt := fun _ => h.divCnt },
    fun _ => h.wt, { h.asm with }, { h.ram with }⟩

/-- A tracked bit stands at `pos` (41_sequencer.md R129). -/
theorem State.Inv.alignedAt_pos (h : s.Inv) (hr : s.run = true) (hs : s.synced = true) (b : Bool) :
    ({ s with fsPrev := b } : State).AlignedAt s.pos.toNat :=
  ⟨{ h.regs with }, { h.active with }, h.wt hr, { h.asm with }, { h.ram with }, hr, hs, h.seq.slotAt hr,
    h.seq.divCnt hr⟩

/-- The edge that acquires sync begins a frame (41_sequencer.md R128). -/
theorem State.Inv.alignedAt_acquired (h : s.Inv) (hr : s.run = true) (hs : s.synced = false) (b : Bool) :
    ({ s with fsPrev := b, synced := true } : State).AlignedAt 0 := by
  obtain ⟨-, hw⟩ := h.seq.idle hs
  have hslot : s.active.SlotAt 0 s.widx.toNat := by
    rw [hw]
    exact slotAt_zero (h.active.valid_of_run hr)
  exact ⟨{ h.regs with }, { h.active with }, h.wt hr, { h.asm with }, { h.ram with }, hr, rfl, hslot, h.seq.divCnt hr⟩

/-- An unexpected edge begins a frame, and drops the words of the partial one (41_sequencer.md R129). -/
theorem State.Inv.alignedAt_realigned (h : s.Inv) (hr : s.run = true) (hs : s.synced = true) (b : Bool) :
    ({ s with fsPrev := b } : State).realign.AlignedAt 0 := by
  have hat := h.seq.slotAt hr
  have hwidx : (s.widx - BitVec.ofNat 7 (s.widx.toNat % s.active.slots)).toNat =
      s.widx.toNat - s.widx.toNat % s.active.slots := by
    have hlt := s.widx.isLt
    have hle := Nat.mod_le s.widx.toNat s.active.slots
    rw [BitVec.toNat_sub, BitVec.toNat_ofNat]
    omega
  exact ⟨{ h.regs with errflags := or_outside h.regs.errflags (errFlag_outside .syncErr) }, { h.active with }, h.wt hr,
    { h.asm with }, { h.ram with }, hr, hs, hwidx.symm ▸ hat.realigned, h.seq.divCnt hr⟩

/-- A shift keeps the alignment (41_sequencer.md R130). -/
theorem State.AlignedAt.shift (h : s.AlignedAt p) (d : BitVec 6) : (s.shift d).AlignedAt p :=
  ⟨{ h.regs with }, { h.active with }, h.wt, { h.asm with }, { h.ram with }, h.run, h.synced, h.slot, h.divCnt⟩

/-- Inside a slot the alignment advances with the bit (41_sequencer.md R132). -/
theorem State.AlignedAt.within (h : s.AlignedAt p) (hp : p % 32 ≠ 31) : s.AlignedAt ((p + 1) % s.active.frameBits) :=
  { h with slot := h.slot.within hp }

end

/-! ### SEQ's turn -/

/-- The line and the word index are read back from a byte's offset (30_encoding.md R100). -/
theorem capAddr_fields {l i a : Nat} {h : Bool} (hi : i < 128) (ha : capAddr l h i ≤ a ∧ a < capAddr l h i + 4) :
    a / 1024 = l ∧ a % 512 / 4 = i := by
  rw [capAddr] at ha
  have hh : h.toNat ≤ 1 := h.toNat_le
  omega

section
variable {s t : State} {p : Nat}

/-- The lanes in use are stored in words that exist (42_capture_buffer.md R150). -/
theorem State.AlignedAt.storeLanes (h : s.AlignedAt p) : (State.storeLanes s.active.nlines s).AlignedAt p := by
  obtain ⟨-, ⟨-, hlines⟩, -⟩ := (validate_eq_zero_iff _ _).1 h.valid
  have hword : s.widx.toNat < s.params.halfWordsMax := Nat.lt_of_lt_of_le h.slot.word (half_le h.valid).2
  have hram : (State.storeLanes s.active.nlines s).RamOk := by
    refine ⟨s.storeLanes_wf h.ram.cap _, by simpa using h.ram.frame, fun c hc => ?_, by simpa using h.ram.frameRange⟩
    rw [State.storeLanes_params]
    rcases s.mem_storeLanes c _ hc with ⟨l, hl, hin⟩ | hc
    · obtain ⟨hline, hindex⟩ := capAddr_fields s.widx.isLt hin
      rw [hline, hindex, capExists_iff]
      exact ⟨Nat.lt_of_lt_of_le hl hlines, hword⟩
    · exact h.ram.capRange c hc
  rw [State.storeLanes_eq] at hram ⊢
  exact ⟨{ h.regs with }, { h.active with }, h.wt, { h.asm with }, hram, h.run, h.synced, h.slot, h.divCnt⟩

/-- The end of a slot that does not fill the half goes on to the next word (41_sequencer.md R131). -/
theorem State.AlignedAt.next (h : s.AlignedAt p) (hp : p % 32 = 31) (hk : s.widx.toNat + 1 ≠ s.active.half) :
    ({ s with widx := s.widx + 1 } : State).AlignedAt ((p + 1) % s.active.frameBits) := by
  have hword := h.slot.word
  have hmax := (half_le h.valid).2
  have hhalf := s.params.half_range.2
  have hwidx : (s.widx + 1).toNat = s.widx.toNat + 1 := by
    rw [BitVec.toNat_add]
    exact Nat.mod_eq_of_lt (show s.widx.toNat + 1 < 128 by omega)
  exact ⟨{ h.regs with }, { h.active with }, h.wt, { h.asm with }, { h.ram with }, h.run, h.synced,
    hwidx.symm ▸ h.slot.next h.valid hp hk, h.divCnt⟩

/-- A completion event keeps the reserved bits and the bits of lines that do not exist (42_capture_buffer.md R151 to
R154). -/
theorem State.RegsOk.completionEvent (h : s.RegsOk) (hlines : s.active.nlines ≤ s.params.nlinesMax)
    (hwt : s.completionEvent.wt &&& ~~~lineMask s.params.nlinesMax = 0) : s.completionEvent.RegsOk := by
  have hflags : s.completionEvent.errflags &&& ~~~errMask = 0 := by
    rw [State.completionEvent_errflags]
    refine or_outside (or_outside h.errflags ?_) ?_ <;> split
    · exact errFlag_outside .tear
    · exact BitVec.zero_and
    · exact errFlag_outside .overrun
    · exact BitVec.zero_and
  rw [State.completionEvent_eq] at hwt ⊢
  exact { h with
    errflags := hflags
    irqPend := or_outside h.irqPend (setWidth_lines_outside _)
    halfDone := by
      rw [State.halfDone, extractLsb'_or_setWidth]
      exact or_outside h.halfDone (lineMask_outside hlines)
    wt := hwt }

/-- A flip leaves the lines in use with one write target (42_capture_buffer.md R152). -/
theorem State.completionEvent_wt_cases (s : State) (h : s.wt = 0 ∨ s.wt = s.activeLines) :
    s.completionEvent.wt = 0 ∨ s.completionEvent.wt = s.activeLines := by
  rw [State.completionEvent_wt]
  rcases h with h | h
  · exact .inr (by simp [h])
  · exact .inl (by simp [h])

/-- The end of a slot that fills the half begins the other half (42_capture_buffer.md R151). -/
theorem State.AlignedAt.completionEvent (h : s.AlignedAt p) (hp : p % 32 = 31)
    (hk : s.widx.toNat + 1 = s.active.half) : s.completionEvent.AlignedAt ((p + 1) % s.active.frameBits) := by
  obtain ⟨-, ⟨-, hlines⟩, -⟩ := (validate_eq_zero_iff _ _).1 h.valid
  have hwt := s.completionEvent_wt_cases h.wt
  have hregs : s.completionEvent.RegsOk := by
    refine h.regs.completionEvent hlines ?_
    rcases hwt with e | e <;> rw [e]
    · exact BitVec.zero_and
    · exact lineMask_outside hlines
  rw [State.completionEvent_eq] at hwt hregs ⊢
  exact ⟨hregs, { h.active with }, hwt, { h.asm with }, { h.ram with }, h.run, h.synced, h.slot.fills h.valid hp hk,
    h.divCnt⟩

/-- The end of a slot leaves the next bit aligned (41_sequencer.md R131, R132). -/
theorem State.AlignedAt.latchAndStore (h : s.AlignedAt p) (hp : p % 32 = 31) (hu : s.latchAndStore = .next t) :
    t.AlignedAt ((p + 1) % s.active.frameBits) := by
  have hstored := h.storeLanes
  have hcount : (State.storeLanes s.active.nlines s).widx.toNat + 1 = (State.storeLanes s.active.nlines s).active.half ↔
      s.widx.toNat + 1 = s.active.half := by simp
  obtain ⟨-, -, ⟨hk, rfl⟩ | ⟨hk, rfl⟩⟩ := State.latchAndStore_cases hu
  · simpa using hstored.completionEvent hp (hcount.2 hk)
  · simpa using hstored.next hp (mt hcount.1 hk)

/-- A used bit keeps the invariant (41_sequencer.md R130 to R132). -/
theorem State.AlignedAt.useBit (h : s.AlignedAt p) {d : BitVec 6} (hu : s.useBit d p = .next t) : t.Inv := by
  rcases State.useBit_cases hu with ⟨hp, rfl⟩ | ⟨hp, u, hlatch, rfl⟩
  · exact ((h.shift d).within hp).inv
  · exact ((h.shift d).latchAndStore hp hlatch).inv

/-- A bit that is not used and meets no edge leaves the alignment (41_sequencer.md R126, R128). -/
theorem State.Inv.with_fs (h : s.Inv) (hr : s.run = true) (b : Bool) :
    ({ s with fsPrev := b, fsv := true } : State).Inv :=
  ⟨{ h.regs with }, { h.active with },
    { h.seq with stopped := fun h0 => absurd hr (by simp [show s.run = false from h0]) },
    h.wt, { h.asm with }, { h.ram with }⟩

/-- A bit event keeps the invariant while RUN = 1 (41_sequencer.md R126 to R132). -/
theorem State.Inv.bitEvent (h : s.Inv) (hr : s.run = true) {i : SerialIn} (hb : s.bitEvent i = .next t) : t.Inv := by
  rcases State.bitEvent_cases hb with ⟨-, rfl⟩ | ⟨hv, -, -, rfl⟩ | ⟨-, hs, -, -, rfl⟩ | ⟨-, hs, -, -, hu⟩ |
    ⟨-, hs, -, hu⟩ | ⟨-, hs, -, -, -, rfl⟩ | ⟨-, hs, -, -, -, hu⟩
  · exact h.with_fs hr i.fs
  · have hfs := h.with_fs hr i.fs
    rwa [← hv] at hfs
  · exact (h.alignedAt_acquired hr hs i.fs).inv
  · exact (h.alignedAt_acquired hr hs i.fs).useBit hu
  · exact (h.alignedAt_pos hr hs i.fs).useBit hu
  · exact (h.alignedAt_realigned hr hs i.fs).inv
  · exact (h.alignedAt_realigned hr hs i.fs).useBit hu

theorem seqTurn_inv (h : s.Inv) (ht : seqTurn s = .next t) : t.Inv := by
  unfold seqTurn at ht
  split at ht
  next hr => exact (h.toRisingEdge hr).sampled.bitEvent (by simpa using hr) ht
  next =>
    cases ht
    exact h

theorem clockTick_inv (h : s.Inv) (hr : s.run = true) (ht : clockTick s = .next t) : t.Inv := by
  unfold clockTick at ht
  split at ht
  · exact (h.divTick hr).sampled.bitEvent (by simpa using hr) ht
  · cases ht
    exact h.divTick hr

end

/-! ### ASM's turn -/

section
variable {s t : State}

/-- Frame bytes stored where they exist keep both RAMs' form (10_state.md R45). -/
theorem State.RamOk.frameStore (h : s.RamOk) {a : Nat} {bs : List Byte} (ha : a + bs.length ≤ s.params.frameBytesMax) :
    (s.frameStore a bs).RamOk :=
  { h with
    frame := s.frameStore_wf a bs h.frame
    frameRange := fun c hc => by
      rcases Memory.mem_writeBytes bs s.frame a c hc with ⟨-, hlt⟩ | hc
      · exact Nat.lt_of_lt_of_le hlt ha
      · exact h.frameRange c hc }

/-- The end of a request leaves no assembly running, and FRAME_DONE is pending (44_delivery.md R203). -/
theorem State.Inv.finish (h : s.Inv) (ok : Bool) (len : BitVec 16) :
    (({ s with asmN := 0 } : State).finish ok len).Inv := by
  have hdone : (s.irqPend ||| frameDoneBit).extractLsb' 0 6 &&& ~~~lineMask s.params.nlinesMax = 0 := by
    rw [BitVec.extractLsb'_or]
    exact or_outside h.regs.halfDone BitVec.zero_and
  exact ⟨{ h.regs with irqPend := or_outside h.regs.irqPend (by decide), halfDone := hdone },
    { h.active with asmBusy := nofun }, { h.seq with }, h.wt, { busy := nofun, idle := fun _ => rfl }, { h.ram with }⟩

/-- A sample that is not the last is followed by the next one (43_frame_assembler.md R183). -/
theorem State.Inv.nextSample (h : s.Inv) (hb : s.asmBusy = true) (hn : s.asmN.toNat + 1 ≠ s.active.outSamples) :
    ({ s with asmN := s.asmN + 1 } : State).Inv := by
  obtain ⟨hlt, hready⟩ := h.asm.busy hb
  obtain ⟨-, hmax, -⟩ := outSamples_le (h.active.valid (h.active.asmBusy hb))
  have hnext : (s.asmN + 1).toNat = s.asmN.toNat + 1 := by
    rw [BitVec.toNat_add]
    exact Nat.mod_eq_of_lt (show s.asmN.toNat + 1 < 1024 by omega)
  have hin : (s.asmN + 1).toNat < s.active.outSamples := by omega
  exact ⟨{ h.regs with }, { h.active with }, { h.seq with }, h.wt,
    { busy := fun _ => ⟨hin, hready⟩, idle := fun h0 => absurd hb (by simp [show s.asmBusy = false from h0]) },
    { h.ram with }⟩

theorem State.Inv.asmAdvance (h : s.Inv) (hb : s.asmBusy = true) : s.asmAdvance.Inv := by
  unfold State.asmAdvance
  split
  next => exact h.finish true s.active.bytes
  next hn => exact h.nextSample hb hn

theorem asmTurn_inv (h : s.Inv) (ht : asmTurn s = .next t) : t.Inv := by
  unfold asmTurn at ht
  split at ht
  next hb =>
    obtain ⟨-, hfit, rfl⟩ := State.asmStep_cases ht
    have hstored : (s.frameStore s.asmAddr s.asmBytes).Inv :=
      ⟨{ h.regs with }, { h.active with }, { h.seq with }, h.wt, { h.asm with }, h.ram.frameStore hfit⟩
    exact hstored.asmAdvance hb
  next =>
    cases ht
    exact h

/-! ### HOST's turn -/

/-- A write to a configuration register stores no reserved bit (30_encoding.md R95). -/
theorem CfgWrite.inv {c : CfgRegs} {d : Word} (hw : CfgWrite s.cfg d c) (h : s.Inv) (hr : s.run = false)
    (r : Response) : ({ s with cfg := c, resp := some r } : State).Inv := by
  have hrun : ¬ s.run = true := by simp [hr]
  have hregs : ({ s with cfg := c, resp := some r } : State).RegsOk := by
    cases hw
    case cfg0 => exact { h.regs with cfg0 := and_mask_outside d cfg0Mask }
    case rate => exact { h.regs with rate := and_mask_outside d rateMask }
    case sysclk => exact { h.regs with }
    case framebytes => exact { h.regs with framebytes := and_mask_outside d framebytesMask }
    case chmap => exact { h.regs with chmap := and_mask_outside d chmapMask }
  exact ⟨hregs, { h.active with cfg := fun hr' => absurd hr' hrun }, { h.seq with }, h.wt, { h.asm with },
    { h.ram with }⟩

/-- Registers that neither SEQ nor ASM reads may take any value without reserved bits (30_encoding.md R95). -/
theorem State.Inv.with_regs (h : s.Inv) {c e p n m : Word} {ce : Bool} {k : BitVec 4} {q : Option Response}
    (hregs : ({ s with
      ctrl := c, errflags := e, irqPend := p, irqEn := n, missed := m, cfgErr := ce, errcode := k
      resp := q } : State).RegsOk) :
    ({ s with
      ctrl := c, errflags := e, irqPend := p, irqEn := n, missed := m, cfgErr := ce, errcode := k
      resp := q } : State).Inv :=
  ⟨hregs, { h.active with }, { h.seq with }, h.wt, { h.asm with }, { h.ram with }⟩

/-- HALF_DONE bits that are cleared set none of a line that does not exist (10_state.md R34). -/
theorem halfDone_and_outside {x m : Word} {l : BitVec 6} (h : x.extractLsb' 0 6 &&& ~~~l = 0) :
    (x &&& m).extractLsb' 0 6 &&& ~~~l = 0 := by
  rw [BitVec.extractLsb'_and]
  exact and_outside h _

/-- The codes of validation are at most 8 (60_exceptions.md R242). -/
theorem validate_le (p : Params) (c : CfgRegs) : validate p c ≤ 8 := by
  unfold validate
  split_ifs <;> omega

/-- The ERRCODE of a failed START is its code, and not 0 (60_exceptions.md R242). -/
theorem errcode_of_invalid {p : Params} {c : CfgRegs} (hv : validate p c ≠ 0) :
    (BitVec.ofNat 4 (validate p c)).toNat ≤ 8 ∧ true = decide (BitVec.ofNat 4 (validate p c) ≠ 0) := by
  have hle := validate_le p c
  have hcode : (BitVec.ofNat 4 (validate p c)).toNat = validate p c := by
    rw [BitVec.toNat_ofNat]
    exact Nat.mod_eq_of_lt (by omega)
  refine ⟨by omega, Eq.symm (decide_eq_true fun h0 => hv ?_)⟩
  rw [← hcode, h0]
  rfl

/-- A START that passes validation makes the registers the active configuration, with its divider, and begins at
position 0 (41_sequencer.md R123). -/
theorem State.Inv.startStreaming (h : s.Inv) (hb : s.asmBusy = false) (hv : validate s.params s.cfg = 0) :
    s.startStreaming.Inv := by
  obtain ⟨-, -, -, -, -, -, -, -, hmax⟩ := (validate_eq_zero_iff _ _).1 hv
  obtain ⟨hword, hpos, hslot⟩ := slotAt_zero hv
  have hregs : s.startStreaming.RegsOk :=
    { h.regs with
      irqPend := and_outside h.regs.irqPend _
      halfDone := halfDone_and_outside h.regs.halfDone
      wt := BitVec.zero_and
      errcode := Nat.zero_le 8
      cfgErr := rfl }
  have hactive : s.startStreaming.ActiveOk :=
    { valid := fun _ => hv
      divq := fun _ => Nat.mod_eq_of_lt (show s.cfg.divQ < 2 ^ 24 by omega)
      run := fun _ => rfl
      asmBusy := fun _ => rfl
      cfg := fun _ => rfl }
  have hseq : s.startStreaming.SeqOk :=
    { stopped := nofun
      idle := fun _ => ⟨rfl, rfl⟩
      widx := fun _ => hword
      pos := fun _ => hpos
      slot := fun _ => hslot
      divider := nofun
      divCnt := fun _ => hactive.divPeriod_pos rfl }
  exact ⟨hregs, hactive, hseq, fun _ => .inl rfl,
    { busy := fun hbusy => absurd (hb.symm.trans hbusy) Bool.false_ne_true, idle := h.asm.idle },
    { h.ram with }⟩

/-- A STOP leaves nothing of the sequencer's position (41_sequencer.md R124). -/
theorem State.Inv.stopStreaming (h : s.Inv) : s.stopStreaming.Inv :=
  ⟨{ h.regs with }, { h.active with run := nofun, cfg := nofun },
    { stopped := fun _ => ⟨rfl, rfl, rfl⟩
      idle := fun _ => ⟨rfl, rfl⟩
      widx := nofun
      pos := nofun
      slot := nofun
      divider := fun _ => ⟨rfl, rfl, rfl⟩
      divCnt := nofun },
    nofun, { h.asm with }, { h.ram with }⟩

/-- An assembly starts at sample 0 of a validated configuration, and the request is not ready (44_delivery.md R202). -/
theorem State.Inv.startAssembly (h : s.Inv) (hv : s.cfgValid = true) :
    ({ s.startAssembly with frameReady := false } : State).Inv := by
  obtain ⟨hpos, -⟩ := outSamples_le (h.active.valid hv)
  exact ⟨{ h.regs with }, { h.active with asmBusy := fun _ => hv }, { h.seq with }, h.wt,
    { busy := fun _ => ⟨hpos, rfl⟩, idle := nofun }, { h.ram with }⟩

/-- A transaction keeps the invariant, case by case (30_encoding.md R94, R95). -/
theorem ExecCase.inv {i : Instr} {r : Response} (hc : ExecCase i s r t) (h : s.Inv) : t.Inv := by
  cases hc
  case response => exact h.with_inputs ..
  case cfg d c hw hr => exact hw.inv h hr r
  case flag f => exact h.with_regs { h.regs with errflags := or_outside h.regs.errflags (errFlag_outside f) }
  case ctrl d => exact h.with_regs { h.regs with ctrl := and_mask_outside d ctrlMask }
  case irqEn d => exact h.with_regs { h.regs with irqEn := and_mask_outside d irqMask }
  case clearFlags d hi => exact h.with_regs { h.regs with errflags := and_outside h.regs.errflags _ }
  case acknowledge d hi =>
    exact h.with_regs { h.regs with
      irqPend := and_outside h.regs.irqPend _, halfDone := halfDone_and_outside h.regs.halfDone }
  case clearDiag hi => exact h.with_regs { h.regs with errflags := BitVec.zero_and }
  case start hi hr hb hv => exact (h.startStreaming hb hv).with_inputs ..
  case invalid hi hr hb hv =>
    obtain ⟨hcode, herr⟩ := errcode_of_invalid hv
    exact h.with_regs { h.regs with errcode := hcode, cfgErr := herr }
  case stop hi hr => exact h.stopStreaming.with_inputs ..
  case decline hi hb ok =>
    have hfinish := h.finish ok 0
    rw [← h.asm.idle hb] at hfinish
    exact hfinish.with_inputs ..
  case assemble hi hb hv => exact (h.startAssembly hv).with_inputs ..

theorem hostTurn_inv (h : s.Inv) (ht : hostTurn s = .next t) : t.Inv := by
  rcases hostTurn_effect ht with rfl | ⟨w, rest, i, r, -, -, hc⟩
  · exact h
  · exact hc.inv (h.with_inputs ..)

/-! ### The machine's step -/

theorem cycleFront_inv {present : Bool} (h : s.Inv) (ht : cycleFront present s = .next t) : t.Inv := by
  unfold cycleFront at ht
  split at ht
  · exact asmTurn_inv h ht
  split at ht <;> obtain ⟨u, h1, h2⟩ := (andThen_eq_next_iff _ _ _).1 ht
  · exact asmTurn_inv (hostTurn_inv h h1) h2
  · exact hostTurn_inv (asmTurn_inv h h1) h2

theorem cycleTurn_inv {present : Bool} (h : s.Inv) (ht : cycleTurn present s = .next t) : t.Inv := by
  obtain ⟨u, h1, h2⟩ := (andThen_eq_next_iff _ _ _).1 ht
  have hu := cycleFront_inv h h1
  split at h2
  next hr => exact clockTick_inv hu (Bool.and_eq_true_iff.1 hr).2 h2
  next =>
    cases h2
    exact hu

/-- The configuration registers' reset values have no reserved bit (70_reset_and_hazards.md R270). -/
theorem CfgRegs.atReset_outside : CfgRegs.atReset.cfg0 &&& ~~~cfg0Mask = 0 ∧ CfgRegs.atReset.rate &&& ~~~rateMask = 0 ∧
    CfgRegs.atReset.framebytes &&& ~~~framebytesMask = 0 ∧ CfgRegs.atReset.chmap &&& ~~~chmapMask = 0 := by decide

/-- The invariant holds right after a reset of any build (70_reset_and_hazards.md R270). -/
theorem State.resetWith_inv (p : Params) (epoch : Nat) (bus : List Txn) (serial : List SerialIn) (turns : List Turn)
    (draws : Nat) : (State.resetWith p epoch bus serial turns draws).Inv where
  regs := by
    obtain ⟨hcfg0, hrate, hbytes, hchmap⟩ := CfgRegs.atReset_outside
    exact ⟨hcfg0, hrate, hbytes, hchmap, BitVec.zero_and, BitVec.zero_and, BitVec.zero_and, BitVec.zero_and,
      BitVec.zero_and, BitVec.zero_and, Nat.zero_le 8, rfl⟩
  active := ⟨nofun, nofun, nofun, nofun, nofun⟩
  seq := ⟨fun _ => ⟨rfl, rfl, rfl⟩, fun _ => ⟨rfl, rfl⟩, nofun, nofun, nofun, fun _ => ⟨rfl, rfl, rfl⟩, nofun⟩
  wt := nofun
  asm := ⟨nofun, fun _ => rfl⟩
  ram := ⟨rfl, rfl, nofun, nofun⟩

theorem takeTurn_inv {turn : Turn} (h : s.Inv) (ht : takeTurn turn s = .next t) : t.Inv := by
  cases turn with
  | host => exact hostTurn_inv h ht
  | seq => exact seqTurn_inv h ht
  | asm => exact asmTurn_inv h ht
  | cycle present => exact cycleTurn_inv h ht
  | reset =>
    cases ht
    exact State.resetWith_inv ..

end

/-- Settles O54: using up the turn keeps the invariant, and so does every agent's turn, a cycle and a reset. -/
theorem everyStepKeepsTheInvariant : Obligations.EveryStepKeepsTheInvariant :=
  fun _ _ h ht => takeTurn_inv h.turnTaken ht

end Sys2Proof.Machine

/-! The host's commands on the sequencer: configuration registers, validation, START and STOP (41_sequencer.md R110 to
R124, R133). -/

namespace Sys2Proof.Machine

/-! ### Configuration registers -/

/-- While RUN = 1 a write to a configuration register is dropped and sets WIGN (10_state.md R49). -/
theorem State.writeCfg_of_run {s : State} (hr : s.run = true) (c : CfgRegs) :
    s.writeCfg c = (s.setErr .wign).respondWrite := by
  rw [State.writeCfg, if_pos hr]

/-- Settles O10: CTRL and IRQ_EN store at any time, a configuration register as RUN says. -/
theorem registerWrites : Obligations.RegisterWrites := by
  intro s d
  refine ⟨rfl, rfl, fun hr => ?stored, fun hr => ?dropped⟩
  case stored =>
    have hcfg (c : CfgRegs) : (.next (s.writeCfg c) : Host.Outcome State Fault Refusal) =
        .next { s with cfg := c, resp := some (.write false) } := by rw [State.writeCfg_of_not_run hr]; rfl
    exact ⟨hcfg _, hcfg _, hcfg _, hcfg _, hcfg _⟩
  case dropped =>
    have hcfg (c : CfgRegs) : (.next (s.writeCfg c) : Host.Outcome State Fault Refusal) =
        .next { s with errflags := s.errflags ||| 0x00000008, resp := some (.write false) } := by
      rw [State.writeCfg_of_run hr]; rfl
    simp only [List.forall_mem_cons, List.not_mem_nil, false_implies, implies_true, and_true]
    exact ⟨hcfg _, hcfg _, hcfg _, hcfg _, hcfg _⟩

/-- DIV shows DIVQ, its upper bits 0 (10_state.md R32). -/
theorem execRdDiv_eq (s : State) : execRdDiv s = .next (s.respondRead (BitVec.ofNat 32 s.divq.toNat)) := by
  rw [BitVec.ofNat_toNat, execRdDiv]

/-- Settles O12: each read answers its register; DIV's is widened. -/
theorem configurationReads : Obligations.ConfigurationReads :=
  fun s => ⟨rfl, rfl, rfl, rfl, rfl, rfl, execRdDiv_eq s⟩

/-! ### Validation -/

/-- `n` is the first code whose cause holds, 0 if none does (41_sequencer.md R121). -/
def IsFirstCause (cause : Nat → Prop) (n : Nat) : Prop :=
  (n = 0 ∧ ∀ k, ¬ cause k) ∨ (cause n ∧ ∀ k < n, ¬ cause k)

/-- There is one first code. -/
theorem IsFirstCause.unique {cause : Nat → Prop} {n m : Nat} (hn : IsFirstCause cause n)
    (hm : IsFirstCause cause m) : n = m := by
  rcases hn with ⟨rfl, hnone⟩ | ⟨hn, hbelow⟩ <;> rcases hm with ⟨rfl, hnone'⟩ | ⟨hm, hbelow'⟩
  · rfl
  · exact absurd hm (hnone m)
  · exact absurd hn (hnone' n)
  · exact Nat.le_antisymm (not_lt.1 fun h => hbelow m h hm) (not_lt.1 fun h => hbelow' n h hn)

/-- One check of a chain: if no earlier cause holds, either its own is the first, or it is passed. -/
theorem IsFirstCause.check {cause : Nat → Prop} {n m : Nat} {P : Prop} [Decidable P] (hP : P ↔ cause n)
    (hbelow : ∀ k < n, ¬ cause k) (hnext : (∀ k < n + 1, ¬ cause k) → IsFirstCause cause m) :
    IsFirstCause cause (if P then n else m) := by
  split
  next hp => exact .inr ⟨hP.1 hp, hbelow⟩
  next hp => exact hnext (Nat.forall_lt_succ_right.2 ⟨hbelow, mt hP.2 hp⟩)

/-- Some channel is mapped to a line or a slot that is not in use (41_sequencer.md R121). -/
theorem CfgRegs.chmapBad_iff (c : CfgRegs) :
    c.chmapBad = true ↔ ∃ ch, ch < c.nch ∧ (c.nlines ≤ c.line ch ∨ c.slots ≤ c.slot ch) := by
  simp [CfgRegs.chmapBad]

/-- No code is above 8 (60_exceptions.md R242). -/
theorem not_codeCause_of_gt (p : Params) (c : CfgRegs) : ∀ k, 8 < k → ¬ codeCause p c k
  | _ + 9, _ => id

/-- The checks run in the order of the codes, each for the cause of its code (41_sequencer.md R121, 60_exceptions.md
R242, R250). -/
theorem validate_isFirstCause (p : Params) (c : CfgRegs) : IsFirstCause (codeCause p c) (validate p c) := by
  have hnone : ∀ k < 1, ¬ codeCause p c k := fun k hk => by
    obtain rfl : k = 0 := by omega
    exact id
  refine .check (by simp only [codeCause]; omega) hnone fun h => ?_
  refine .check (by simp only [codeCause]; omega) h fun h => ?_
  refine .check (by simp only [codeCause]; omega) h fun h => ?_
  refine .check (by simp only [codeCause]; omega) h fun h => ?_
  refine .check Iff.rfl h fun h => ?_
  refine .check c.chmapBad_iff h fun h => ?_
  refine .check Iff.rfl h fun h => ?_
  refine .check (by simp only [codeCause]; omega) h fun h => ?_
  exact .inl ⟨rfl, fun k => (Nat.lt_or_ge k 9).elim (h k) (not_codeCause_of_gt p c k)⟩

/-- Settles O18: validation answers a first code, and there is only one. -/
theorem validationGivesTheFirstFailingCheck : Obligations.ValidationGivesTheFirstFailingCheck := by
  intro p c n
  have hv := validate_isFirstCause p c
  exact ⟨fun h => h ▸ hv, fun h => hv.unique h⟩

/-! ### START and STOP -/

/-- START while running or assembling is ignored (41_sequencer.md R123). -/
theorem execCmdStart_ignored {s : State} (h : s.run = true ∨ s.asmBusy = true) :
    execCmdStart s = .next (s.setErr .cmdIgn).respondWrite := by
  rw [execCmdStart, if_pos (by simpa using h)]

section
variable {s : State} (hr : s.run = false) (hb : s.asmBusy = false)
include hr hb

/-- START while idle is validated (41_sequencer.md R123). -/
theorem execCmdStart_idle : execCmdStart s =
    if validate s.params s.cfg ≠ 0 then
      .next { s with cfgErr := true, errcode := BitVec.ofNat 4 (validate s.params s.cfg) }.respondWrite
    else .next s.startStreaming.respondWrite := by
  rw [execCmdStart, if_neg (by simp [hr, hb])]

theorem execCmdStart_invalid (hv : validate s.params s.cfg ≠ 0) : execCmdStart s =
    .next { s with cfgErr := true, errcode := BitVec.ofNat 4 (validate s.params s.cfg) }.respondWrite := by
  rw [execCmdStart_idle hr hb, if_pos hv]

theorem execCmdStart_valid (hv : validate s.params s.cfg = 0) :
    execCmdStart s = .next s.startStreaming.respondWrite := by
  rw [execCmdStart_idle hr hb, if_neg (not_not.2 hv)]

end

/-- Settles O21, case by case of START. -/
theorem startCommand : Obligations.StartCommand := fun _ =>
  ⟨fun h => execCmdStart_ignored h, fun hr hb hv => execCmdStart_invalid hr hb hv,
    fun hr hb hv => execCmdStart_valid hr hb hv⟩

/-- STOP while stopped only answers (41_sequencer.md R124). -/
theorem execCmdStop_stopped {s : State} (hr : s.run = false) : execCmdStop s = .next s.respondWrite := by
  rw [execCmdStop, if_neg (by simp [hr])]

theorem execCmdStop_running {s : State} (hr : s.run = true) : execCmdStop s = .next s.stopStreaming.respondWrite := by
  rw [execCmdStop, if_pos hr]

/-- Settles O22: the two cases of STOP. -/
theorem stopCommand : Obligations.StopCommand := fun _ =>
  ⟨fun hr => execCmdStop_stopped hr, fun hr => execCmdStop_running hr⟩

end Sys2Proof.Machine

/-! The bit-clock divider: how near it comes to the rate asked for, how long its periods are, and when `bclk_o` rises
(41_sequencer.md R120, R122, R125, R126). -/

namespace Sys2Proof.Machine

/-! ### The divider's value -/

section
variable {f fs sl : Nat}

/-- Twice the rounding of `256·f / (64·sl·fs)` lies within one of twice the quotient, in whole numbers
(41_sequencer.md R122). -/
theorem divQ_bounds (hfs : 1 ≤ fs) (hsl : 1 ≤ sl) :
    2 * divQ f fs sl * (64 * sl * fs) ≤ 512 * f + 64 * sl * fs ∧
      512 * f < (2 * divQ f fs sl + 1) * (64 * sl * fs) := by
  have hden : 0 < 2 * (64 * sl) * fs := by positivity
  have hle : divQ f fs sl * (2 * (64 * sl) * fs) ≤ 512 * f + 64 * sl * fs := Nat.div_mul_le_self _ _
  have hlt : 512 * f + 64 * sl * fs < (divQ f fs sl + 1) * (2 * (64 * sl) * fs) :=
    Nat.lt_mul_of_div_lt (Nat.lt_succ_self _) hden
  constructor <;> linarith

/-- The divider is the quotient rounded to nearest, ties up (41_sequencer.md R122). -/
theorem divQ_nearest (hfs : 1 ≤ fs) (hsl : 1 ≤ sl) :
    (divQ f fs sl : ℚ) - 1 / 2 ≤ 256 * f / (64 * sl * fs) ∧ (256 * f / (64 * sl * fs) : ℚ) < divQ f fs sl + 1 / 2 := by
  obtain ⟨hle, hlt⟩ := divQ_bounds (f := f) hfs hsl
  have hle' : (2 * divQ f fs sl * (64 * sl * fs) : ℚ) ≤ 512 * f + 64 * sl * fs := by exact_mod_cast hle
  have hlt' : (512 * f : ℚ) < (2 * divQ f fs sl + 1) * (64 * sl * fs) := by exact_mod_cast hlt
  have hden : (0 : ℚ) < 64 * sl * fs := by positivity
  constructor
  · rw [le_div_iff₀ hden]
    linarith
  · rw [div_lt_iff₀ hden]
    linarith

/-- The achieved rate is off by as much as the divider is, relative to the divider (41_sequencer.md R120). -/
theorem achievedRate_error (hfs : 1 ≤ fs) (hsl : 1 ≤ sl) (hq : 1 ≤ divQ f fs sl) :
    |(f * 256 / (64 * sl * divQ f fs sl) : ℚ) - fs| / fs =
      |(256 * f / (64 * sl * fs) : ℚ) - divQ f fs sl| / divQ f fs sl := by
  have hfs' : (0 : ℚ) < fs := by exact_mod_cast hfs
  have hsl' : (0 : ℚ) < sl := by exact_mod_cast hsl
  have hq' : (0 : ℚ) < divQ f fs sl := by exact_mod_cast hq
  rw [← abs_of_pos hfs', ← abs_of_pos hq', ← abs_div, ← abs_div, abs_of_pos hfs', abs_of_pos hq']
  congr 1
  field_simp

end

/-- Settles O19. -/
theorem dividerIsNearestTiesUp : Obligations.DividerIsNearestTiesUp := fun _ _ _ hfs hsl => divQ_nearest hfs hsl

/-- Settles O20: the divider is within a half of the quotient it rounds. -/
theorem achievedRateIsWithinHalfADividerUnit : Obligations.AchievedRateIsWithinHalfADividerUnit := by
  intro f fs sl hfs hsl hq
  obtain ⟨hle, hlt⟩ := divQ_nearest (f := f) hfs hsl
  have hhalf : |(256 * f / (64 * sl * fs) : ℚ) - divQ f fs sl| ≤ 1 / 2 := abs_le.2 ⟨by linarith, by linarith⟩
  calc |(f * 256 / (64 * sl * divQ f fs sl) : ℚ) - fs| / fs
      = |(256 * f / (64 * sl * fs) : ℚ) - divQ f fs sl| / divQ f fs sl := achievedRate_error hfs hsl hq
    _ ≤ 1 / 2 / divQ f fs sl := by gcongr
    _ = 1 / (2 * divQ f fs sl) := div_div _ _ _

/-! ### Periods -/

section
variable (s : State)

/-- A period is I cycles, and one more where the accumulator and F carry (41_sequencer.md R125). -/
theorem State.divPeriod_eq : s.divPeriod =
    s.divq.toNat / 256 + if 256 ≤ s.divAcc.toNat + s.divq.toNat % 256 then 1 else 0 := by
  rw [State.divPeriod, State.divInt_eq, State.divFrac_toNat]

/-- At the end of a period the accumulator takes F (41_sequencer.md R125). -/
theorem State.divToggle_divAcc_toNat :
    s.divToggle.divAcc.toNat = (s.divAcc.toNat + s.divq.toNat % 256) % 256 := by
  rw [State.divToggle_divAcc, BitVec.toNat_add, State.divFrac_toNat]

/-- What a period lasts beyond DIVQ/256 cycles it takes from the accumulator (41_sequencer.md R125). -/
theorem State.divPeriod_balance : 256 * s.divPeriod + s.divToggle.divAcc.toNat = s.divq.toNat + s.divAcc.toNat := by
  have hacc := s.divAcc.isLt
  rw [State.divPeriod_eq, State.divToggle_divAcc_toNat]
  split <;> omega

/-- No number of periods changes DIVQ. -/
theorem State.divToggle_iterate_divq (n : Nat) : (State.divToggle^[n] s).divq = s.divq :=
  Function.Iterate.rec (fun t : State => t.divq = s.divq) rfl (fun t h => t.divToggle_divq.trans h) n

/-- The first `n` periods together (41_sequencer.md R125). -/
theorem State.divPeriod_sum_balance (n : Nat) :
    256 * ((List.range n).map fun k => (State.divToggle^[k] s).divPeriod).sum + (State.divToggle^[n] s).divAcc.toNat =
      n * s.divq.toNat + s.divAcc.toNat := by
  induction n with
  | zero => simp
  | succ n ih =>
    have hperiod := (State.divToggle^[n] s).divPeriod_balance
    rw [State.divToggle_iterate_divq] at hperiod
    rw [List.range_succ, List.map_append, List.sum_append, List.map_singleton, List.sum_singleton,
      Function.iterate_succ_apply', Nat.succ_mul n]
    omega

end

/-- Settles O23: after 256 periods the accumulator is where it was, so they last DIVQ cycles. -/
theorem dividerMeanPeriod : Obligations.DividerMeanPeriod := by
  intro s
  refine ⟨s.divPeriod_eq, ?_, ?_⟩
  · have hacc : s.divAcc + s.divFrac = BitVec.ofNat 8 ((s.divAcc.toNat + s.divq.toNat % 256) % 256) := by
      rw [← State.divToggle_divAcc_toNat, BitVec.ofNat_toNat, BitVec.setWidth_eq, State.divToggle_divAcc]
    rw [← hacc, State.divToggle]
  · have hsum := s.divPeriod_sum_balance 256
    have hbefore := s.divAcc.isLt
    have hafter := (State.divToggle^[256] s).divAcc.isLt
    omega

/-! ### The next rising edge -/

section
variable {s : State}

/-- Inside a period `bclk_o` keeps its level (41_sequencer.md R125). -/
theorem State.divTick_iterate_bclk {j : Nat} (h : s.divCnt + j < s.divPeriod) :
    (State.divTick^[j] s).bclk = s.bclk := by
  rw [State.divTick_iterate s j h]

/-- With `bclk_o` low, the last tick of the period raises it, and no tick before (41_sequencer.md R125, R126). -/
theorem State.rises_iff_of_low {n : Nat} (hb : s.bclk = false) (hn : s.divCnt + (n + 1) = s.divPeriod) {k : Nat}
    (hk : k ≤ n) :
    ((State.divTick^[k] s).bclk = false ∧ (State.divTick^[k + 1] s).bclk = true) ↔ k = n := by
  rw [State.divTick_iterate_bclk (by omega), hb]
  rcases Nat.lt_or_eq_of_le hk with hlt | rfl
  · rw [State.divTick_iterate_bclk (by omega), hb]
    simp [hlt.ne]
  · have hrest : s.divPeriod - s.divCnt = k + 1 := by omega
    rw [← hrest, State.divTick_iterate_rest s (by omega), State.divToggle_bclk, hb]
    simp

/-- With `bclk_o` high, the period that lowers it comes first: no tick of it raises `bclk_o`, and after it the ticks
are those of the next period (41_sequencer.md R125). -/
theorem State.rises_iff_of_high {n : Nat} (hb : s.bclk = true) (hc : s.divCnt < s.divPeriod)
    (hp : 0 < s.divToggle.divPeriod) (hn : n + 1 = s.divPeriod - s.divCnt + s.divToggle.divPeriod) {k : Nat}
    (hk : k ≤ n) :
    ((State.divTick^[k] s).bclk = false ∧ (State.divTick^[k + 1] s).bclk = true) ↔ k = n := by
  rcases Nat.lt_or_ge k (s.divPeriod - s.divCnt) with hfirst | hsecond
  · rw [State.divTick_iterate_bclk (by omega), hb]
    simp only [Bool.true_eq_false, false_and, false_iff]
    omega
  · obtain ⟨j, rfl⟩ := Nat.exists_eq_add_of_le' hsecond
    have hshift (m : Nat) : State.divTick^[m + (s.divPeriod - s.divCnt)] s = State.divTick^[m] s.divToggle := by
      rw [Function.iterate_add_apply, State.divTick_iterate_rest s hc]
    have hlow := State.rises_iff_of_low (s := s.divToggle) (n := n - (s.divPeriod - s.divCnt)) (k := j)
      (by simp [hb]) (by rw [State.divToggle_divCnt]; omega) (by omega)
    rw [Nat.add_right_comm, hshift, hshift, hlow]
    omega

/-- The ticks of the rest of the period, and of the whole next one where `bclk_o` is high, go to the next rising edge
(41_sequencer.md R125, R126). -/
theorem State.divTick_iterate_toRisingEdge (hc : s.divCnt < s.divPeriod) (hp : 0 < s.divToggle.divPeriod) :
    State.divTick^[s.divPeriod - s.divCnt + if s.bclk then s.divToggle.divPeriod else 0] s = s.toRisingEdge := by
  have hnext := s.divToggle.divTick_iterate_rest hp
  rw [State.divToggle_divCnt, Nat.sub_zero] at hnext
  rw [Nat.add_comm, Function.iterate_add_apply, State.divTick_iterate_rest s hc, State.toRisingEdge]
  split
  · exact hnext
  · rfl

end

/-- Settles O24, by the level of `bclk_o`. -/
theorem ticksReachTheRisingEdge : Obligations.TicksReachTheRisingEdge := by
  intro s n hc hi hn
  have hp : 0 < s.divToggle.divPeriod := Nat.lt_of_lt_of_le hi s.divToggle.divInt_le_divPeriod
  refine ⟨hn ▸ State.divTick_iterate_toRisingEdge hc hp, fun k hk => ?_⟩
  cases hb : s.bclk <;> rw [hb] at hn
  · rw [if_neg Bool.false_ne_true] at hn
    exact State.rises_iff_of_low hb (by omega) hk
  · rw [if_pos rfl] at hn
    exact State.rises_iff_of_high hb hc hp hn hk

end Sys2Proof.Machine

/-! The bit event: how it finds the frame, what it shifts in and stores, and what it leaves alone (41_sequencer.md R126
to R132). -/

namespace Sys2Proof.Machine

/-! ### A used bit -/

/-- The frame-sync edge in CFG0's bits (41_sequencer.md R127). -/
theorem fsEdge_iff (c : CfgRegs) (prev fs : Bool) : fsEdge c prev fs = true ↔
    if c.cfg0.getLsbD 20 then prev = false ∧ fs = true else prev = true ∧ fs = false := by
  rw [fsEdge, CfgRegs.fsEdge]
  split <;> simp

/-- The bit after a frame's first is at position 1: no frame is shorter than a slot (41_sequencer.md R132). -/
theorem CfgRegs.second_pos (c : CfgRegs) : BitVec.ofNat 6 ((0 + 1) % c.frameBits) = 1 := by
  have hmod : (0 + 1) % c.frameBits = 1 := by
    rw [CfgRegs.frameBits]
    rcases Nat.eq_zero_or_pos c.slots with h | h
    · rw [h]
    · exact Nat.mod_eq_of_lt (by omega)
  rw [hmod]
  rfl

section
variable (s : State) (d : BitVec 6)

/-- Inside a slot a used bit is shifted in, and the position advances (41_sequencer.md R130, R132). -/
theorem State.useBit_inside {p : Nat} (hp : p % 32 ≠ 31) : s.useBit d p =
    .next { s with sr := (s.shift d).sr, pos := BitVec.ofNat 6 ((p + 1) % s.active.frameBits) } := by
  rw [State.useBit, if_neg hp]
  rfl

/-- The first bit of a frame (41_sequencer.md R128, R129). -/
theorem State.useBit_first : s.useBit d 0 = .next { s with sr := (s.shift d).sr, pos := 1 } := by
  rw [State.useBit_inside s d (by decide), CfgRegs.second_pos]

/-- At the end of a slot that does not fill the half a used bit is shifted in, the lanes are stored, and the position
and the word index advance (41_sequencer.md R130 to R132). -/
theorem State.useBit_advances {p : Nat} (hp : p % 32 = 31) (hl : s.active.nlines ≤ s.params.nlinesMax)
    (hw : s.widx.toNat < s.params.halfWordsMax) (hf : s.widx.toNat + 1 ≠ s.active.half) : s.useBit d p =
      .next { State.storeLanes s.active.nlines (s.shift d) with
        widx := s.widx + 1, pos := BitVec.ofNat 6 ((p + 1) % s.active.frameBits) } := by
  rw [State.useBit, if_pos hp, State.latchAndStore_advances (s := s.shift d) hl hw hf]
  rfl

/-- Re-alignment raises SYNC_ERR and rewinds `widx` to the first slot of the serial frame (41_sequencer.md R129). -/
theorem State.realign_eq : s.realign =
    { s with
      errflags := s.errflags ||| 0x00000001
      widx := BitVec.ofNat 7 (s.widx.toNat - s.widx.toNat % s.active.slots) } := by
  have hwidx : s.widx - BitVec.ofNat 7 (s.widx.toNat % s.active.slots) =
      BitVec.ofNat 7 (s.widx.toNat - s.widx.toNat % s.active.slots) := by
    have hlt := s.widx.isLt
    have hle := Nat.mod_le s.widx.toNat s.active.slots
    apply BitVec.eq_of_toNat_eq
    rw [BitVec.toNat_sub, BitVec.toNat_ofNat, BitVec.toNat_ofNat]
    omega
  rw [State.realign, hwidx]
  rfl

end

/-! ### Alignment -/

/-- Settles O25, by the branches of a bit event without sync. -/
theorem acquisitionOfFrameSync : Obligations.AcquisitionOfFrameSync := by
  refine fun s i => ⟨State.bitEvent_first, fun hv hs => ?_⟩
  simp only [← fsEdge_iff, Bool.not_eq_true]
  refine ⟨State.bitEvent_waiting hv hs, State.bitEvent_acquires_delayed hv hs, fun he hd => ?_⟩
  rw [State.bitEvent_acquires hv hs he hd, State.useBit_first]
  rfl

/-- Settles O27: an unexpected edge re-aligns, and its own bit is the first or is not used. -/
theorem unexpectedEdgeRealigns : Obligations.UnexpectedEdgeRealigns := by
  refine fun s i hv hs he hp => ⟨fun hd => ?_, fun hd => ?_⟩
  · rw [State.bitEvent_realigns_delayed hv hs he hp hd, State.realign_eq]
  · rw [State.bitEvent_realigns hv hs he hp hd, State.realign_eq, State.useBit_first]
    rfl

/-! ### Shift and store -/

/-- Settles O26, by the lane's place among those in use. -/
theorem shiftIsMostSignificantBitFirst : Obligations.ShiftIsMostSignificantBitFirst := by
  refine fun s d => ⟨rfl, fun l hl => ⟨fun hin => ?_, fun hout => ?_⟩⟩
  · rw [State.lane_shift, if_pos ⟨hl, hin⟩]
    refine ⟨by simp, fun k hk => ?_⟩
    simp [hk]
  · rw [State.lane_shift, if_neg fun h => absurd h.2 (Nat.not_lt.2 hout)]

/-- Settles O28. -/
theorem bitInsideASlotIsShiftedIn : Obligations.BitInsideASlotIsShiftedIn := by
  intro s i hv hs he hp
  rw [State.bitEvent_tracked hv hs he, State.useBit_inside _ _ hp]
  rfl

/-- Settles O29: what the bit event answers is the stored lanes, whose words read back. -/
theorem endOfSlotStoresEveryLane : Obligations.EndOfSlotStoresEveryLane := by
  intro s i hv hs he hp hl hw hf
  refine ⟨_, (State.bitEvent_tracked hv hs he).trans (State.useBit_advances _ _ hp hl hw hf), ?frame,
    State.capWord_storeLanes (State.shift { s with fsPrev := i.fs } i.sd) s.active.nlines,
    fun a => State.capByte_storeLanes_other (State.shift { s with fsPrev := i.fs } i.sd) a s.active.nlines⟩
  rw [State.storeLanes_eq]
  rfl

/-! ### What a bit event leaves alone -/

/-- What belongs to the lines not in use is as before: HALF_DONE and the rest of IRQ_PEND, WT, the lanes and the capture
bytes (10_state.md R34, R41, R42, R44; 93_implementation_defined.md U20). -/
structure State.IdleLinesKept (s t : State) : Prop where
  active : t.active = s.active
  irqPend : ∀ k, s.active.nlines ≤ k → t.irqPend.getLsbD k = s.irqPend.getLsbD k
  wt : ∀ l, s.active.nlines ≤ l → t.wt.getLsbD l = s.wt.getLsbD l
  lane : ∀ l, s.active.nlines ≤ l → t.lane l = s.lane l
  capByte : ∀ a, 1024 * s.active.nlines ≤ a → t.capByte a = s.capByte a

section
variable {s u t : State}

/-- An update of none of these fields. -/
theorem State.IdleLinesKept.of_fields (ha : t.active = s.active) (hi : t.irqPend = s.irqPend) (hw : t.wt = s.wt)
    (hs : t.sr = s.sr) (hc : t.cap = s.cap) (he : t.ramEpoch = s.ramEpoch) : s.IdleLinesKept t :=
  ⟨ha, fun _ _ => by rw [hi], fun _ _ => by rw [hw], fun _ _ => by rw [State.lane, State.lane, hs],
    fun a _ => State.capByte_congr hc he a⟩

theorem State.IdleLinesKept.trans (h : s.IdleLinesKept u) (h' : u.IdleLinesKept t) : s.IdleLinesKept t := by
  obtain ⟨ha, hi, hw, hl, hc⟩ := h
  obtain ⟨ha', hi', hw', hl', hc'⟩ := h'
  rw [ha] at hi' hw' hl' hc'
  exact ⟨ha'.trans ha, fun k hk => (hi' k hk).trans (hi k hk), fun l hk => (hw' l hk).trans (hw l hk),
    fun l hk => (hl' l hk).trans (hl l hk), fun a hk => (hc' a hk).trans (hc a hk)⟩

/-- A shift leaves the lanes not in use (41_sequencer.md R130). -/
theorem State.shift_idleLinesKept (s : State) (d : BitVec 6) : s.IdleLinesKept (s.shift d) :=
  ⟨rfl, fun _ _ => rfl, fun _ _ => rfl,
    fun l hl => by rw [State.lane_shift, if_neg fun h => absurd h.2 (Nat.not_lt.2 hl)], fun _ _ => rfl⟩

/-- The words of a line end where those of the next begin (30_encoding.md R100). -/
theorem capAddr_add_le (l : Nat) (h : Bool) {i : Nat} (hi : i < 128) : capAddr l h i + 4 ≤ 1024 * (l + 1) := by
  have hh : h.toNat ≤ 1 := h.toNat_le
  rw [capAddr]
  omega

/-- The lanes in use are stored in their own lines (42_capture_buffer.md R150). -/
theorem State.storeLanes_idleLinesKept (s : State) : s.IdleLinesKept (State.storeLanes s.active.nlines s) where
  active := by simp
  irqPend := by simp
  wt := by simp
  lane l _ := by simp [State.lane]
  capByte a ha := s.capByte_storeLanes_other a _ fun l hl hin => by
    have hend := capAddr_add_le l (s.wt.getLsbD l) s.widx.isLt
    omega

/-- A completion event flips and hands off the lines in use (42_capture_buffer.md R151 to R153). -/
theorem State.completionEvent_idleLinesKept (s : State) : s.IdleLinesKept s.completionEvent := by
  have hline (k : Nat) (hk : s.active.nlines ≤ k) : s.activeLines.getLsbD k = false := by
    rw [State.activeLines, getLsbD_lineMask, decide_eq_false (Nat.not_lt.2 hk), Bool.and_false]
  rw [State.completionEvent_eq]
  refine ⟨rfl, fun k hk => ?_, fun l hl => ?_, fun _ _ => rfl, fun _ _ => rfl⟩
  · exact (s.getLsbD_setHalfDone s.activeLines k).trans (by rw [hline k hk, Bool.or_false])
  · rw [BitVec.getLsbD_xor, hline l hl, Bool.xor_false]

/-- The end of a slot leaves the lines not in use (41_sequencer.md R131). -/
theorem State.latchAndStore_idleLinesKept (h : s.latchAndStore = .next t) : s.IdleLinesKept t := by
  obtain ⟨-, -, ⟨-, rfl⟩ | ⟨-, rfl⟩⟩ := State.latchAndStore_cases h
  · exact s.storeLanes_idleLinesKept.trans (State.completionEvent_idleLinesKept _)
  · exact s.storeLanes_idleLinesKept.trans (.of_fields rfl rfl rfl rfl rfl rfl)

/-- A used bit leaves the lines not in use (41_sequencer.md R130 to R132). -/
theorem State.useBit_idleLinesKept {d : BitVec 6} {p : Nat} (h : s.useBit d p = .next t) : s.IdleLinesKept t := by
  rcases State.useBit_cases h with ⟨-, rfl⟩ | ⟨-, u, hu, rfl⟩
  · exact (s.shift_idleLinesKept d).trans (.of_fields rfl rfl rfl rfl rfl rfl)
  · exact (s.shift_idleLinesKept d).trans
      ((State.latchAndStore_idleLinesKept hu).trans (.of_fields rfl rfl rfl rfl rfl rfl))

/-- A bit event leaves the lines not in use: alignment touches no line, and then the bit is used or not
(41_sequencer.md R126; 93_implementation_defined.md U20). -/
theorem State.bitEvent_idleLinesKept {i : SerialIn} (h : s.bitEvent i = .next t) : s.IdleLinesKept t := by
  rcases State.bitEvent_cases h with ⟨-, rfl⟩ | ⟨-, -, -, rfl⟩ | ⟨-, -, -, -, rfl⟩ | ⟨-, -, -, -, hu⟩ | ⟨-, -, -, hu⟩ |
    ⟨-, -, -, -, -, rfl⟩ | ⟨-, -, -, -, -, hu⟩
  case inl | inr.inl | inr.inr.inl | inr.inr.inr.inr.inr.inl => exact .of_fields rfl rfl rfl rfl rfl rfl
  all_goals
    refine .trans ?_ (State.useBit_idleLinesKept hu)
    exact .of_fields rfl rfl rfl rfl rfl rfl

end

/-- Settles O31: the fields by what a bit event can change at all, the lines not in use by what it keeps of them. -/
theorem bitEventFrame : Obligations.BitEventFrame := by
  intro s t i h
  obtain ⟨-, hirq, hwt, hlane, hcap⟩ := State.bitEvent_idleLinesKept h
  refine ⟨?_, fun k _ hk => hirq k hk, fun l _ hl => ⟨hwt l hl, hlane l hl⟩, hcap⟩
  rcases State.bitEvent_effect h with ht | ht <;> exact ht ▸ rfl

end Sys2Proof.Machine

/-! The capture buffer while the core is stopped: no agent captures anything until a START (42_capture_buffer.md
R164). -/

namespace Sys2Proof.Machine

/-- RUN = 0, and no START is among the words HOST has still to present (42_capture_buffer.md R164). -/
structure State.Stopped (s : State) : Prop where
  run : s.run = false
  noStart : ∀ w ∈ s.bus, w ≠ encode .cmdStart

/-- From `s` to `t` nothing is captured: the capture RAM, WT and HALFCNT are as before, and no HALF_DONE is newly set
(42_capture_buffer.md R164). -/
structure State.NothingCaptured (s t : State) : Prop where
  cap : t.cap = s.cap
  ramEpoch : t.ramEpoch = s.ramEpoch
  wt : t.wt = s.wt
  halfcnt : t.halfcnt = s.halfcnt
  halfDone : ∀ l < 6, t.irqPend.getLsbD l = true → s.irqPend.getLsbD l = true

/-- From every stopped state the core stays stopped and nothing is captured. -/
def StaysStopped (f : State → Host.Outcome State Fault Refusal) : Prop :=
  ∀ s t, s.Stopped → f s = .next t → t.Stopped ∧ s.NothingCaptured t

section
variable {s t u : State}

/-- An update that leaves IRQ_PEND too. -/
theorem State.NothingCaptured.of_fields (hc : t.cap = s.cap) (he : t.ramEpoch = s.ramEpoch) (hw : t.wt = s.wt)
    (hn : t.halfcnt = s.halfcnt) (hi : t.irqPend = s.irqPend) : s.NothingCaptured t :=
  ⟨hc, he, hw, hn, fun _ _ h => hi ▸ h⟩

theorem State.NothingCaptured.trans (h : s.NothingCaptured u) (h' : u.NothingCaptured t) : s.NothingCaptured t :=
  ⟨h'.cap.trans h.cap, h'.ramEpoch.trans h.ramEpoch, h'.wt.trans h.wt, h'.halfcnt.trans h.halfcnt,
    fun l hl ht => h.halfDone l hl (h'.halfDone l hl ht)⟩

end

theorem staysStopped_next : StaysStopped .next := by
  intro s t hs h
  cases h
  exact ⟨hs, .of_fields rfl rfl rfl rfl rfl⟩

theorem StaysStopped.andThen {f g : State → Host.Outcome State Fault Refusal} (hf : StaysStopped f)
    (hg : StaysStopped g) : StaysStopped fun s => andThen (f s) g := by
  intro s t hs h
  obtain ⟨u, h1, h2⟩ := (andThen_eq_next_iff _ _ _).1 h
  obtain ⟨hu, hsu⟩ := hf s u hs h1
  obtain ⟨ht, hut⟩ := hg u t hu h2
  exact ⟨ht, hsu.trans hut⟩

/-! ### Each agent's turn -/

/-- FRAME_DONE is not a HALF_DONE (10_state.md R34). -/
theorem getLsbD_or_frameDoneBit (x : Word) {l : Nat} (hl : l < 6) : (x ||| frameDoneBit).getLsbD l = x.getLsbD l := by
  have hbit : ∀ k < 6, frameDoneBit.getLsbD k = false := by decide
  rw [BitVec.getLsbD_or, hbit l hl, Bool.or_false]

/-- A transaction lists no word (log 2). -/
theorem ExecCase.bus {i : Instr} {s t : State} {r : Response} (h : ExecCase i s r t) : t.bus = s.bus := by
  cases h <;> rfl

/-- No transaction but START captures anything: the others can clear HALF_DONE, and set FRAME_DONE alone
(42_capture_buffer.md R156, R164; 44_delivery.md R202, R203). -/
theorem ExecCase.nothingCaptured {i : Instr} {s t : State} {r : Response} (h : ExecCase i s r t)
    (hi : i ≠ .cmdStart) : s.NothingCaptured t := by
  cases h
  case start hstart _ _ _ => exact absurd hstart hi
  case acknowledge d _ =>
    refine ⟨rfl, rfl, rfl, rfl, fun l _ ht => ?_⟩
    rw [BitVec.getLsbD_and] at ht
    exact (Bool.and_eq_true_iff.1 ht).1
  case decline ok => exact ⟨rfl, rfl, rfl, rfl, fun l hl ht => getLsbD_or_frameDoneBit s.irqPend hl ▸ ht⟩
  all_goals exact .of_fields rfl rfl rfl rfl rfl

/-- HOST has no START to present, and nothing else starts the core or captures (41_sequencer.md R123). -/
theorem hostTurn_staysStopped : StaysStopped hostTurn := by
  intro s t hs h
  rcases hostTurn_effect h with rfl | ⟨w, rest, i, r, hb, hd, hc⟩
  · exact staysStopped_next _ _ hs rfl
  have hi : i ≠ .cmdStart := by
    rintro rfl
    exact hs.noStart w (hb ▸ List.mem_cons_self) (eq_encode_of_decode_start hd)
  have hrun : t.run = false := by
    rcases hc.run_cases with hr | ⟨hstart, -⟩ | ⟨-, hr⟩
    · exact hr.trans hs.run
    · exact absurd hstart hi
    · exact hr
  have hbus : t.bus = rest := hc.bus
  obtain ⟨hcap, he, hwt, hcnt, hdone⟩ := hc.nothingCaptured hi
  exact ⟨⟨hrun, fun v hv => hs.noStart v (hb ▸ List.mem_cons_of_mem w (hbus ▸ hv))⟩, hcap, he, hwt, hcnt, hdone⟩

/-- ASM's turn sets no HALF_DONE: of IRQ_PEND it sets FRAME_DONE, at the end of a request (44_delivery.md R203). -/
theorem asmTurn_halfDone {s t : State} (h : asmTurn s = .next t) {l : Nat} (hl : l < 6) :
    t.irqPend.getLsbD l = s.irqPend.getLsbD l := by
  unfold asmTurn at h
  split at h
  · obtain ⟨-, -, rfl⟩ := State.asmStep_cases h
    unfold State.asmAdvance
    split
    · exact getLsbD_or_frameDoneBit s.irqPend hl
    · rfl
  · cases h
    rfl

/-- ASM neither starts the core nor captures (43_frame_assembler.md R183). -/
theorem asmTurn_staysStopped : StaysStopped asmTurn := by
  intro s t hs h
  have hframe := asmTurn_effect h
  have hbus : t.bus = s.bus := by rw [hframe]
  exact ⟨⟨(asmTurn_hostKept h).run.trans hs.run, hbus ▸ hs.noStart⟩, by rw [hframe], by rw [hframe], by rw [hframe],
    by rw [hframe], fun l hl ht => asmTurn_halfDone h hl ▸ ht⟩

/-- SEQ is not enabled (00_scope.md R10; log 4). -/
theorem seqTurn_staysStopped : StaysStopped seqTurn :=
  fun s t hs h => staysStopped_next s t hs (seqTurn_idle hs.run ▸ h)

/-! ### Cycles and runs -/

/-- ASM's and HOST's part of a cycle, in either order (60_exceptions.md R248, R249). -/
theorem cycleFront_staysStopped (present : Bool) : StaysStopped (cycleFront present) := by
  intro s t hs h
  unfold cycleFront at h
  split_ifs at h
  · exact asmTurn_staysStopped s t hs h
  · exact hostTurn_staysStopped.andThen asmTurn_staysStopped s t hs h
  · exact asmTurn_staysStopped.andThen hostTurn_staysStopped s t hs h

/-- The divider does not tick in a cycle that begins with RUN = 0 (41_sequencer.md R125). -/
theorem cycleTurn_of_stopped {s : State} (hr : s.run = false) (present : Bool) :
    cycleTurn present s = cycleFront present s := by
  simp only [cycleTurn, hr, Bool.false_and, Bool.false_eq_true, if_false, andThen_pure]

theorem takeTurn_staysStopped {turn : Turn} (hne : turn ≠ .reset) : StaysStopped (takeTurn turn) := by
  cases turn with
  | host => exact hostTurn_staysStopped
  | seq => exact seqTurn_staysStopped
  | asm => exact asmTurn_staysStopped
  | cycle present => exact fun s t hs h => cycleFront_staysStopped present s t hs (cycleTurn_of_stopped hs.run present ▸ h)
  | reset => exact absurd rfl hne

theorem runTurns_staysStopped {ts : List Turn} (hts : Turn.reset ∉ ts) : StaysStopped (runTurns ts) := by
  intro s t hs h
  refine runTurns_induction (fun u => u.Stopped ∧ s.NothingCaptured u) ts ?_ s t (staysStopped_next s s hs rfl) h
  rintro turn hturn u v ⟨hu, hsu⟩ hv
  have hne : turn ≠ .reset := fun he => hts (he ▸ hturn)
  obtain ⟨hv, huv⟩ := takeTurn_staysStopped hne u v hu hv
  exact ⟨hv, hsu.trans huv⟩

/-- Settles O33: every turn but a reset keeps the core stopped and captures nothing, and so does a run of them. -/
theorem nothingIsCapturedWhileStopped : Obligations.NothingIsCapturedWhileStopped := by
  intro ts s t hr hb hts h
  obtain ⟨ht, hcap, he, hwt, hcnt, hdone⟩ := runTurns_staysStopped hts s t ⟨hr, hb⟩ h
  exact ⟨ht.run, State.capByte_congr hcap he, hwt, hcnt, hdone⟩

end Sys2Proof.Machine

/-! The double buffer: the completion event, the read-ready half, and the capture-RAM window (42_capture_buffer.md
R150 to R154, R161 to R163). -/

namespace Sys2Proof.Machine

/-! ### The completion event -/

section
variable (s : State)

/-- WT of the lines in use is inverted (42_capture_buffer.md R152). -/
theorem State.getLsbD_completionEvent_wt {l : Nat} (hl : l < 6) :
    s.completionEvent.wt.getLsbD l = (s.wt.getLsbD l ^^ decide (l < s.active.nlines)) := by
  rw [State.completionEvent_eq, BitVec.getLsbD_xor, State.activeLines, getLsbD_lineMask, decide_eq_true hl,
    Bool.true_and]

/-- HALF_DONE of the lines in use is set (42_capture_buffer.md R153). -/
theorem State.getLsbD_completionEvent_irqPend (hn : s.active.nlines ≤ 6) (k : Nat) :
    s.completionEvent.irqPend.getLsbD k = (s.irqPend.getLsbD k || decide (k < s.active.nlines)) := by
  have hline : decide (k < 6 ∧ k < s.active.nlines) = decide (k < s.active.nlines) :=
    decide_eq_decide.2 ⟨And.right, fun h => ⟨by omega, h⟩⟩
  rw [State.completionEvent_eq]
  refine (s.getLsbD_setHalfDone s.activeLines k).trans ?_
  rw [State.activeLines, getLsbD_lineMask, ← Bool.decide_and, hline]

/-- A completion event was missed: HALF_DONE of a line in use was still pending (42_capture_buffer.md R153). -/
def State.MissesHalf : Prop := ∃ l < s.active.nlines, s.irqPend.getLsbD l = true

variable {s}

theorem State.halfDone_and_activeLines_ne_zero (hn : s.active.nlines ≤ 6) :
    s.halfDone &&& s.activeLines ≠ 0 ↔ s.MissesHalf := s.halfDone_and_ne_zero s.active.nlines hn

/-- MISSED counts the missed completion, saturating (42_capture_buffer.md R153). -/
theorem State.completionEvent_missed_of_missed (hn : s.active.nlines ≤ 6) (hm : s.MissesHalf) :
    s.completionEvent.missed.toNat = min (s.missed.toNat + 1) (2 ^ 32 - 1) := by
  rw [State.completionEvent_missed, if_pos ((State.halfDone_and_activeLines_ne_zero hn).2 hm), satIncr_toNat]

theorem State.completionEvent_missed_of_not_missed (hn : s.active.nlines ≤ 6) (hm : ¬ s.MissesHalf) :
    s.completionEvent.missed = s.missed := by
  rw [State.completionEvent_missed, if_neg (mt (State.halfDone_and_activeLines_ne_zero hn).1 hm)]

/-- A flag raised on a condition, in bits (10_state.md R33). -/
theorem getLsbD_flag_if (p : Prop) [Decidable p] (f : ErrFlag) (k : Nat) :
    (if p then 1#32 <<< errFlagBit f else 0).getLsbD k = true ↔ p ∧ k = errFlagBit f := by
  have hf : errFlagBit f < 32 := by cases f <;> decide
  split
  next hp =>
    rw [← BitVec.twoPow_eq, BitVec.getLsbD_twoPow]
    simp [hp, hf, eq_comm]
  next hp => simp [hp]

/-- ERRFLAGS: TEAR is raised with a running assembly that is not zero-fill, OVERRUN with a missed completion
(42_capture_buffer.md R153, R154). -/
theorem State.getLsbD_completionEvent_errflags (hn : s.active.nlines ≤ 6) (k : Nat) :
    s.completionEvent.errflags.getLsbD k = true ↔
      (s.errflags.getLsbD k = true ∨ ((s.asmBusy = true ∧ s.asmZero = false) ∧ k = 1)) ∨ (s.MissesHalf ∧ k = 2) := by
  rw [State.completionEvent_errflags, BitVec.getLsbD_or, BitVec.getLsbD_or, Bool.or_eq_true, Bool.or_eq_true,
    getLsbD_flag_if, getLsbD_flag_if, State.halfDone_and_activeLines_ne_zero hn, Bool.and_eq_true, Bool.not_eq_true',
    errFlagBit, errFlagBit]

end

/-! ### The last bit of a half -/

section
variable (s : State) (d : BitVec 6)

/-- At the end of a slot that fills the half a used bit is shifted in, the lanes are stored, and the completion event
happens (41_sequencer.md R130 to R132, 42_capture_buffer.md R151). -/
theorem State.useBit_fills {p : Nat} (hp : p % 32 = 31) (hl : s.active.nlines ≤ s.params.nlinesMax)
    (hw : s.widx.toNat < s.params.halfWordsMax) (hf : s.widx.toNat + 1 = s.active.half) : s.useBit d p =
      .next { (State.storeLanes s.active.nlines (s.shift d)).completionEvent with
        pos := BitVec.ofNat 6 ((p + 1) % s.active.frameBits) } := by
  rw [State.useBit, if_pos hp, State.latchAndStore_fills (s := s.shift d) hl hw hf]
  rfl

end

/-- The last bit of a half answers the completion event of a state `u`, in which the bit is shifted in and the lanes are
stored (42_capture_buffer.md R150, R151). -/
theorem State.bitEvent_completes {s : State} {i : SerialIn} (hv : s.fsv = true) (hs : s.synced = true)
    (he : ¬ (fsEdge s.active s.fsPrev i.fs = true ∧ s.pos.toNat ≠ s.active.edgePos)) (hp : s.pos.toNat % 32 = 31)
    (hl : s.active.nlines ≤ s.params.nlinesMax) (hw : s.widx.toNat < s.params.halfWordsMax)
    (hf : s.widx.toNat + 1 = s.active.half) :
    ∃ u : State, s.bitEvent i = .next { u.completionEvent with
        pos := BitVec.ofNat 6 ((s.pos.toNat + 1) % s.active.frameBits) } ∧
      u = { s with fsPrev := i.fs, sr := (s.shift i.sd).sr, cap := u.cap } ∧
      (∀ l < s.active.nlines, u.capWord l (s.wt.getLsbD l) s.widx.toNat = (s.shift i.sd).lane l) ∧
      ∀ a, (∀ l < s.active.nlines, ¬ (capAddr l (s.wt.getLsbD l) s.widx.toNat ≤ a ∧
        a < capAddr l (s.wt.getLsbD l) s.widx.toNat + 4)) → u.capByte a = s.capByte a :=
  ⟨State.storeLanes s.active.nlines (State.shift { s with fsPrev := i.fs } i.sd),
    (State.bitEvent_tracked hv hs he).trans (State.useBit_fills _ _ hp hl hw hf), State.storeLanes_eq _ _,
    State.capWord_storeLanes (State.shift { s with fsPrev := i.fs } i.sd) s.active.nlines,
    fun a => State.capByte_storeLanes_other (State.shift { s with fsPrev := i.fs } i.sd) a s.active.nlines⟩

/-- Settles O30: the completion event in bits, from a state that has the fields of `s` it reads. -/
theorem endOfHalfIsOneCompletionEvent : Obligations.EndOfHalfIsOneCompletionEvent := by
  intro s i hv hs he hp hl hw hf missed
  obtain ⟨u, hbit, hu, hwords, hbytes⟩ := State.bitEvent_completes hv hs he hp hl hw hf
  have hn : u.active.nlines ≤ 6 := hu ▸ hl.trans s.params.nlines_range.2
  have hm : u.MissesHalf ↔ missed := by
    rw [hu]
    rfl
  have hcap := u.completionEvent_cap
  have hepoch := u.completionEvent_ramEpoch
  have hflags (k : Nat) : u.completionEvent.errflags.getLsbD k = true ↔
      (s.errflags.getLsbD k = true ∨ ((s.asmBusy = true ∧ s.asmZero = false) ∧ k = 1)) ∨ (missed ∧ k = 2) := by
    rw [State.getLsbD_completionEvent_errflags hn, hm, hu]
  refine ⟨_, hbit, ?frame, fun l hl => (State.capWord_congr hcap hepoch _ _ _).trans (hwords l hl),
    fun a ha => (State.capByte_congr hcap hepoch a).trans (hbytes a ha),
    fun l hl => (u.getLsbD_completionEvent_wt hl).trans (by rw [hu]),
    fun k _ => (u.getLsbD_completionEvent_irqPend hn k).trans (by rw [hu]),
    fun h => (State.completionEvent_missed_of_missed hn (hm.2 h)).trans (by rw [hu]),
    fun h => (State.completionEvent_missed_of_not_missed hn (mt hm.1 h)).trans (by rw [hu]),
    (hflags 2).trans (by simp), (hflags 1).trans (by simp),
    fun k _ h1 h2 => Bool.eq_iff_iff.2 ((hflags k).trans (by simp [h1, h2]))⟩
  case frame =>
    rw [State.completionEvent_eq, hu]
    rfl

/-! ### The read-ready half -/

/-- The words of each line's read-ready half, as `s` has it, are as before (42_capture_buffer.md R161). -/
def State.ReadReadyKept (s t : State) : Prop :=
  ∀ l j, j < 128 → t.capWord l (!s.wt.getLsbD l) j = s.capWord l (!s.wt.getLsbD l) j

section
variable {s u t : State}

/-- An update that does not write the capture RAM. -/
theorem State.ReadReadyKept.of_cap (hc : t.cap = s.cap) (he : t.ramEpoch = s.ramEpoch) : s.ReadReadyKept t :=
  fun l j _ => State.capWord_congr hc he l (!s.wt.getLsbD l) j

/-- What is written before, if neither the capture RAM nor WT, makes no difference. -/
theorem State.ReadReadyKept.of_before (h : u.ReadReadyKept t) (hw : u.wt = s.wt) (hc : u.cap = s.cap)
    (he : u.ramEpoch = s.ramEpoch) : s.ReadReadyKept t := fun l j hj => by
  rw [← hw, h l j hj, State.capWord_congr hc he]

/-- What is written after, if not the capture RAM, makes no difference. -/
theorem State.ReadReadyKept.of_after (h : s.ReadReadyKept u) (hc : t.cap = u.cap) (he : t.ramEpoch = u.ramEpoch) :
    s.ReadReadyKept t := fun l j hj => (State.capWord_congr hc he _ _ _).trans (h l j hj)

/-- The lanes are stored in the write-target halves (42_capture_buffer.md R150). -/
theorem State.storeLanes_readReadyKept (s : State) : ∀ n, s.ReadReadyKept (State.storeLanes n s)
  | 0 => .of_cap rfl rfl
  | n + 1 => fun l j hj => by
    have hhalf : ¬ (n = l ∧ s.wt.getLsbD n = !s.wt.getLsbD l ∧ s.widx.toNat = j) := by
      rintro ⟨rfl, hh, -⟩
      exact Bool.not_ne_self _ hh.symm
    rw [State.storeLanes, State.capWord_capStore_other _ _ s.widx.isLt hj hhalf,
      State.storeLanes_readReadyKept s n l j hj]

/-- The end of a slot writes the stored words, and a completion event writes none (41_sequencer.md R131). -/
theorem State.latchAndStore_readReadyKept (h : s.latchAndStore = .next t) : s.ReadReadyKept t := by
  have hstore := s.storeLanes_readReadyKept s.active.nlines
  obtain ⟨-, -, ⟨-, rfl⟩ | ⟨-, rfl⟩⟩ := State.latchAndStore_cases h
  · exact hstore.of_after (State.completionEvent_cap _) (State.completionEvent_ramEpoch _)
  · exact hstore.of_after rfl rfl

/-- A used bit (41_sequencer.md R130 to R132). -/
theorem State.useBit_readReadyKept {d : BitVec 6} {p : Nat} (h : s.useBit d p = .next t) : s.ReadReadyKept t := by
  rcases State.useBit_cases h with ⟨-, rfl⟩ | ⟨-, u, hu, rfl⟩
  · exact .of_cap rfl rfl
  · exact ((State.latchAndStore_readReadyKept hu).of_before rfl rfl rfl).of_after rfl rfl

/-- Alignment writes no word, and a used bit only the write-target halves (42_capture_buffer.md R150). -/
theorem State.bitEvent_readReadyKept {i : SerialIn} (h : s.bitEvent i = .next t) : s.ReadReadyKept t := by
  rcases State.bitEvent_cases h with ⟨-, rfl⟩ | ⟨-, -, -, rfl⟩ | ⟨-, -, -, -, rfl⟩ | ⟨-, -, -, -, hu⟩ | ⟨-, -, -, hu⟩ |
    ⟨-, -, -, -, -, rfl⟩ | ⟨-, -, -, -, -, hu⟩
  case inl | inr.inl | inr.inr.inl | inr.inr.inr.inr.inr.inl => exact .of_cap rfl rfl
  all_goals exact (State.useBit_readReadyKept hu).of_before rfl rfl rfl

end

/-- Settles O32: it holds of every line and word, and so of those that exist. -/
theorem readReadyHalfIsStable : Obligations.ReadReadyHalfIsStable :=
  fun _ _ _ h l _ j hj => State.bitEvent_readReadyKept h l j hj

/-! ### The capture-RAM window -/

/-- Bit j of byte k of a word is the word's bit 8k + j (00_scope.md R7). -/
theorem getLsbD_byteOf (w : Word) (k : Nat) {j : Nat} (hj : j < 8) : (byteOf w k).getLsbD j = w.getLsbD (8 * k + j) := by
  rw [byteOf, BitVec.getLsbD_extractLsb', decide_eq_true hj, Bool.true_and]

/-- Byte k of a capture word stands k bytes above its address (log 6). -/
theorem State.byteOf_capWord (s : State) (l : Nat) (h : Bool) (i : Nat) {k : Nat} (hk : k < 4) :
    byteOf (s.capWord l h i) k = s.capByte (capAddr l h i + k) := by
  rw [State.capWord, byteOf_wordOf _ _ _ _ k hk]
  interval_cases k <;> rfl

/-- Settles O34, by whether the word exists. -/
theorem captureWindowRead : Obligations.CaptureWindowRead := by
  intro s l h i
  rw [← capExists_iff]
  refine ⟨fun hl hi => ⟨_, if_pos ((capExists_iff _ _ _).2 ⟨hl, hi⟩), rfl, fun k hk j hj => ?_⟩, fun hx => ?_⟩
  · rw [← getLsbD_byteOf _ k hj, State.byteOf_capWord s _ _ _ hk, capAddr]
  · exact if_neg hx

/-- Settles O36: each of the four is a bus error in its direction. -/
theorem windowWritesAndBusErrors : Obligations.WindowWritesAndBusErrors :=
  fun _ _ _ _ _ _ _ =>
    ⟨exec_of_answersErr rfl, exec_of_answersErr rfl, exec_of_answersErr rfl, exec_of_answersErr rfl⟩

end Sys2Proof.Machine

/-! The frame assembler: what it extracts and packs, one sample a step (43_frame_assembler.md R180 to R183, R186). -/

namespace Sys2Proof.Machine

/-! ### The extractor -/

section
variable (w : Word) (d : Nat)

/-- The extractor is the logical shift, truncated (43_frame_assembler.md R180). -/
theorem extract_eq_ushiftRight : extract w d = (w >>> (32 - d)).setWidth d :=
  BitVec.setWidth_ushiftRight_eq_extractLsb.symm

variable {d}

/-- The bits that the arithmetic and the logical shift fill in differently are truncated (43_frame_assembler.md R180). -/
theorem extract_eq_sshiftRight (hd : d ≤ 32) : extract w d = (w.sshiftRight (32 - d)).setWidth d := by
  apply BitVec.eq_of_getLsbD_eq
  intro i hi
  have hw : ¬ 32 ≤ i := by omega
  have hin : 32 - d + i < 32 := by omega
  rw [extract, BitVec.getLsbD_extractLsb', BitVec.getLsbD_setWidth, BitVec.getLsbD_sshiftRight]
  simp [hw, hin]

/-- The extractor divides the signed word by 2^(32−D), rounding down: the quotient fits D bits
(43_frame_assembler.md R180). -/
theorem toInt_extract (h1 : 1 ≤ d) (hd : d ≤ 32) : (extract w d).toInt = w.toInt / 2 ^ (32 - d) := by
  have hpow : (2 : Int) ^ (d - 1) * 2 ^ (32 - d) = 2 ^ 31 := by rw [← pow_add]; congr 1; omega
  have hpos : (0 : Int) < 2 ^ (32 - d) := by positivity
  have hlo : -2 ^ (d - 1) ≤ w.toInt / 2 ^ (32 - d) := by
    rw [Int.le_ediv_iff_mul_le hpos, Int.neg_mul, hpow]
    exact w.le_toInt
  have hhi : w.toInt / 2 ^ (32 - d) < 2 ^ (d - 1) := by
    rw [Int.ediv_lt_iff_lt_mul hpos, hpow]
    exact w.toInt_lt
  have hdouble : (2 : Int) ^ d = 2 * 2 ^ (d - 1) := by rw [← pow_succ']; congr 1; omega
  rw [extract_eq_sshiftRight w hd, ← BitVec.signExtend_eq_setWidth_of_le _ hd,
    BitVec.toInt_signExtend_eq_toInt_bmod_of_le _ hd, BitVec.toInt_sshiftRight, Int.shiftRight_eq_div_pow]
  apply Int.bmod_eq_of_le <;> push_cast <;> omega

/-- Byte b of an extracted sample is eight bits of the word (43_frame_assembler.md R180, R181). -/
theorem extractLsb'_extract {b : Nat} (hb : b < d / 8) :
    (extract w d).extractLsb' (8 * b) 8 = w.extractLsb' (32 - d + 8 * b) 8 := by
  apply BitVec.eq_of_getLsbD_eq
  intro i hi
  have hin : 8 * b + i < d := by omega
  rw [extract, BitVec.getLsbD_extractLsb', BitVec.getLsbD_extractLsb', BitVec.getLsbD_extractLsb', decide_eq_true hin,
    Bool.true_and, Nat.add_assoc]

end

/-- Settles O38, one reading of the extractor each. -/
theorem extractIsTheTruncatedShift : Obligations.ExtractIsTheTruncatedShift :=
  fun w d h1 hd => ⟨extract_eq_sshiftRight w hd, extract_eq_ushiftRight w d, toInt_extract w h1 hd⟩

/-- Settles O39: the shift drops the low bits and nothing else. -/
theorem extractRoundTrip : Obligations.ExtractRoundTrip := by
  intro d v l hd hv hl
  have hfit : v * 2 ^ (32 - d) + l < 2 ^ 32 := by
    calc v * 2 ^ (32 - d) + l < (v + 1) * 2 ^ (32 - d) := by rw [Nat.succ_mul]; omega
      _ ≤ 2 ^ d * 2 ^ (32 - d) := Nat.mul_le_mul_right _ hv
      _ = 2 ^ 32 := by rw [← pow_add]; congr 1; omega
  rw [extract, BitVec.extractLsb'_toNat, BitVec.toNat_ofNat, Nat.mod_eq_of_lt hfit, Nat.shiftRight_eq_div_pow,
    Nat.mul_comm, Nat.mul_add_div (by positivity), Nat.div_eq_of_lt hl, Nat.add_zero, Nat.mod_eq_of_lt hv]

/-! ### The packer -/

/-- A number's low bytes, each at its weight, add up to the number's low bits (43_frame_assembler.md R181). -/
theorem sum_bytes_eq_mod (x n : Nat) :
    ((List.range n).map fun b => x / 2 ^ (8 * b) % 2 ^ 8 * 2 ^ (8 * b)).sum = x % 2 ^ (8 * n) := by
  induction n with
  | zero => simp [Nat.mod_one]
  | succ n ih =>
    rw [List.range_succ, List.map_append, List.sum_append, ih, Nat.mul_succ, pow_add, Nat.mod_mul]
    simp [Nat.mul_comm]

/-- The weighted bytes of a packed sample, as bytes of its number (43_frame_assembler.md R181). -/
theorem mapIdx_pack {d : Nat} (v : BitVec d) : ((pack v).mapIdx fun b x => x.toNat * 2 ^ (8 * b)) =
    (List.range (d / 8)).map fun b => v.toNat / 2 ^ (8 * b) % 2 ^ 8 * 2 ^ (8 * b) := by
  apply List.ext_getElem
  · simp
  · intro b hb _
    rw [List.length_mapIdx] at hb
    rw [List.getElem_mapIdx, getElem_pack v b hb, BitVec.extractLsb'_toNat, Nat.shiftRight_eq_div_pow, List.getElem_map,
      List.getElem_range]

/-- Settles O40: D is whole bytes, so the packed bytes hold every bit of the sample. -/
theorem packIsLittleEndian : Obligations.PackIsLittleEndian := by
  intro d v hd
  have hwhole : 8 * (d / 8) = d := by omega
  refine ⟨length_pack v, ?_⟩
  rw [mapIdx_pack, sum_bytes_eq_mod, hwhole, Nat.mod_eq_of_lt v.isLt]

/-! ### One step -/

section
variable {s : State}

@[simp] theorem State.length_asmBytes (s : State) : s.asmBytes.length = s.active.sampleBytes := length_pack _

/-- The bytes of the next output sample end where those of the one after it begin (43_frame_assembler.md R182). -/
theorem State.asmAddr_add_length (s : State) :
    s.asmAddr + s.asmBytes.length = (s.asmN.toNat + 1) * s.active.sampleBytes := by
  rw [State.length_asmBytes, State.asmAddr, Nat.succ_mul]

/-- Where the word read and the bytes written exist, a step stores one sample and goes on (43_frame_assembler.md
R183). -/
theorem State.asmStep_of_exists (hx : s.asmZero = true ∨ capExists s.params s.asmLine s.asmIndex = true)
    (hfit : (s.asmN.toNat + 1) * s.active.sampleBytes ≤ s.params.frameBytesMax) :
    s.asmStep = .next (s.frameStore s.asmAddr s.asmBytes).asmAdvance := by
  have hword : ¬ (!s.asmZero && !capExists s.params s.asmLine s.asmIndex) = true := by
    rcases hx with h | h <;> simp [h]
  rw [← s.asmAddr_add_length] at hfit
  rw [State.asmStep, if_neg hword, if_neg (Nat.not_lt.2 hfit)]

/-- A step ends by not touching the frame RAM (43_frame_assembler.md R183). -/
theorem State.frameByte_asmAdvance (s : State) (a : Nat) : s.asmAdvance.frameByte a = s.frameByte a :=
  State.frameByte_congr s.asmAdvance_frame s.asmAdvance_ramEpoch a

/-- A stored frame byte is read back (10_state.md R45). -/
theorem State.frameByte_frameStore_inside (s : State) (a : Nat) {bs : List Byte} {k : Nat} (hk : k < bs.length) :
    (s.frameStore a bs).frameByte (a + k) = bs[k] := by
  rw [State.frameByte_def, State.frameStore, Memory.lookup_writeBytes_inside _ _ _ _ hk]
  rfl

/-- The sample stored: byte b is bits [8b+7 : 8b] of the top D bits of its source word (43_frame_assembler.md R180 to
R182). -/
theorem State.frameByte_asmStored_inside {b : Nat} (hb : b < s.active.sampleBytes) :
    (s.frameStore s.asmAddr s.asmBytes).frameByte (s.asmN.toNat * s.active.sampleBytes + b) =
      (s.sourceWord s.asmN.toNat).extractLsb' (32 - s.active.depth + 8 * b) 8 := by
  calc (s.frameStore s.asmAddr s.asmBytes).frameByte (s.asmAddr + b) = s.asmBytes[b]'(s.length_asmBytes.symm ▸ hb) :=
        s.frameByte_frameStore_inside s.asmAddr (s.length_asmBytes.symm ▸ hb)
    _ = (extract s.asmWord s.active.depth).extractLsb' (8 * b) 8 := getElem_pack _ b _
    _ = s.asmWord.extractLsb' (32 - s.active.depth + 8 * b) 8 := extractLsb'_extract _ hb

/-- Every other frame byte is as before (43_frame_assembler.md R183). -/
theorem State.frameByte_asmStored_outside {a : Nat}
    (ha : ¬ (s.asmN.toNat * s.active.sampleBytes ≤ a ∧ a < (s.asmN.toNat + 1) * s.active.sampleBytes)) :
    (s.frameStore s.asmAddr s.asmBytes).frameByte a = s.frameByte a := by
  rw [← s.asmAddr_add_length] at ha
  exact (s.frameByte_frameStore _ _ a).trans (dif_neg ha)

/-- A sample that is not the last is followed by the next one (43_frame_assembler.md R183). -/
theorem State.asmAdvance_of_ne (h : s.asmN.toNat + 1 ≠ s.active.outSamples) :
    s.asmAdvance = { s with asmN := s.asmN + 1 } := if_neg h

/-- The last sample ends the request (43_frame_assembler.md R183, 44_delivery.md R203). -/
theorem State.asmAdvance_of_eq (h : s.asmN.toNat + 1 = s.active.outSamples) :
    s.asmAdvance = { s with asmN := 0 }.finish true s.active.bytes := if_pos h

end

/-- Settles O41: the step stores the sample and then advances. -/
theorem assemblerStep : Obligations.AssemblerStep := by
  intro s _ hx hfit
  refine ⟨_, State.asmStep_of_exists hx hfit, fun b hb => ?_, fun a ha => ?_, fun hn => ?_, fun hn => ?_⟩
  · exact (State.frameByte_asmAdvance _ _).trans (State.frameByte_asmStored_inside hb)
  · exact (State.frameByte_asmAdvance _ _).trans (State.frameByte_asmStored_outside ha)
  · rw [State.asmAdvance_of_ne (s := s.frameStore s.asmAddr s.asmBytes) hn]
    rfl
  · rw [State.asmAdvance_of_eq (s := s.frameStore s.asmAddr s.asmBytes) hn]
    rfl

end Sys2Proof.Machine

/-! No step faults: the words and bytes an agent reaches exist (43_frame_assembler.md R183; log 16). -/

namespace Sys2Proof.Machine

/-! ### ASM's turn -/

/-- The line and the word index of every output sample lie in the lines in use and in a half (00_scope.md R6,
43_frame_assembler.md R182). -/
theorem source_in_half {p : Params} {c : CfgRegs} (hv : validate p c = 0) {n : Nat} (hn : n < c.outSamples) :
    c.line (n % c.nch) < c.nlines ∧ n / c.nch * c.slots + c.slot (n % c.nch) < c.half := by
  obtain ⟨⟨hnch, -⟩, -, -, -, -, hmap, -⟩ := (validate_eq_zero_iff p c).1 hv
  obtain ⟨hline, hslot⟩ := hmap _ (Nat.mod_lt n hnch)
  have hgroup : n / c.nch < c.samples := Nat.div_lt_of_lt_mul (by rwa [Nat.mul_comm])
  refine ⟨hline, ?_⟩
  calc n / c.nch * c.slots + c.slot (n % c.nch) < (n / c.nch + 1) * c.slots := by rw [Nat.succ_mul]; omega
    _ ≤ c.half := Nat.mul_le_mul_right _ hgroup

section
variable {s : State}

theorem State.Inv.valid_of_busy (h : s.Inv) (hb : s.asmBusy = true) : validate s.params s.active = 0 :=
  h.active.valid (h.active.asmBusy hb)

/-- A running assembly's next word exists (10_state.md R44). -/
theorem State.Inv.capExists_asm (h : s.Inv) (hb : s.asmBusy = true) :
    capExists s.params s.asmLine s.asmIndex = true := by
  have hv := h.valid_of_busy hb
  obtain ⟨-, ⟨-, hlines⟩, -⟩ := (validate_eq_zero_iff _ _).1 hv
  obtain ⟨hline, hindex⟩ := source_in_half hv (h.asm.busy hb).1
  exact (capExists_iff _ _ _).2 ⟨Nat.lt_of_lt_of_le hline hlines, Nat.lt_of_lt_of_le hindex (half_le hv).2⟩

/-- A running assembly's next sample fits the frame RAM (10_state.md R45). -/
theorem State.Inv.sample_fits (h : s.Inv) (hb : s.asmBusy = true) :
    (s.asmN.toNat + 1) * s.active.sampleBytes ≤ s.params.frameBytesMax :=
  (Nat.mul_le_mul_right _ (h.asm.busy hb).1).trans (outSamples_le (h.valid_of_busy hb)).2.2

/-- ASM's turn in a running assembly stores the sample and goes on (43_frame_assembler.md R183). -/
theorem State.Inv.asmTurn_eq (h : s.Inv) (hb : s.asmBusy = true) :
    asmTurn s = .next (s.frameStore s.asmAddr s.asmBytes).asmAdvance := by
  rw [asmTurn_of_busy hb, State.asmStep_of_exists (.inr (h.capExists_asm hb)) (h.sample_fits hb)]

theorem asmTurn_ne_fault (h : s.Inv) (r : Fault) : asmTurn s ≠ .fault r := by
  cases hb : s.asmBusy
  · rw [asmTurn_idle hb]
    exact nofun
  · rw [h.asmTurn_eq hb]
    exact nofun

/-! ### SEQ's turn -/

/-- The lanes are stored in words that exist (42_capture_buffer.md R150). -/
theorem State.AlignedAt.latchAndStore_ne_fault {p : Nat} (h : s.AlignedAt p) (r : Fault) :
    s.latchAndStore ≠ .fault r := by
  obtain ⟨-, ⟨-, hlines⟩, -⟩ := (validate_eq_zero_iff _ _).1 h.valid
  have hword : s.widx.toNat < s.params.halfWordsMax := Nat.lt_of_lt_of_le h.slot.word (half_le h.valid).2
  rw [State.latchAndStore, if_pos ⟨hlines, hword⟩]
  split <;> exact nofun

/-- A used bit faults only where its lanes are stored (41_sequencer.md R130 to R132). -/
theorem State.AlignedAt.useBit_ne_fault {p : Nat} (h : s.AlignedAt p) (d : BitVec 6) (r : Fault) :
    s.useBit d p ≠ .fault r := by
  intro hf
  rcases (andThen_eq_fault_iff _ _ _).1 hf with hf | ⟨u, -, hf⟩
  · split at hf
    · exact (h.shift d).latchAndStore_ne_fault r hf
    · exact nomatch hf
  · exact nomatch hf

/-- A bit event faults only where its bit is used (41_sequencer.md R126). -/
theorem State.Inv.bitEvent_ne_fault (h : s.Inv) (hr : s.run = true) (i : SerialIn) (r : Fault) :
    s.bitEvent i ≠ .fault r := by
  cases hv : s.fsv
  · rw [State.bitEvent_first hv]
    exact nofun
  cases hs : s.synced
  · cases he : fsEdge s.active s.fsPrev i.fs
    · rw [State.bitEvent_waiting hv hs he]
      exact nofun
    cases hd : s.active.fsDelay
    · rw [State.bitEvent_acquires hv hs he hd]
      exact (h.alignedAt_acquired hr hs i.fs).useBit_ne_fault i.sd r
    · rw [State.bitEvent_acquires_delayed hv hs he hd]
      exact nofun
  · by_cases he : fsEdge s.active s.fsPrev i.fs = true ∧ s.pos.toNat ≠ s.active.edgePos
    · obtain ⟨he, hp⟩ := he
      cases hd : s.active.fsDelay
      · rw [State.bitEvent_realigns hv hs he hp hd]
        exact (h.alignedAt_realigned hr hs i.fs).useBit_ne_fault i.sd r
      · rw [State.bitEvent_realigns_delayed hv hs he hp hd]
        exact nofun
    · rw [State.bitEvent_tracked hv hs he]
      exact (h.alignedAt_pos hr hs i.fs).useBit_ne_fault i.sd r

theorem seqTurn_ne_fault (h : s.Inv) (r : Fault) : seqTurn s ≠ .fault r := by
  unfold seqTurn
  split
  next hr => exact (h.toRisingEdge hr).sampled.bitEvent_ne_fault (by simpa using hr) _ r
  next => exact nofun

theorem clockTick_ne_fault (h : s.Inv) (hr : s.run = true) (r : Fault) : clockTick s ≠ .fault r := by
  unfold clockTick
  split
  · exact (h.divTick hr).sampled.bitEvent_ne_fault (by simpa using hr) _ r
  · exact nofun

/-! ### The machine's step -/

/-- One step after another does not fault if the first does not, nor the second from any state the first answers. -/
theorem andThen_ne_fault {o : Host.Outcome State Fault Refusal} {f : State → Host.Outcome State Fault Refusal}
    {r : Fault} (ho : o ≠ .fault r) (hf : ∀ u, o = .next u → f u ≠ .fault r) : andThen o f ≠ .fault r := by
  intro h
  rcases (andThen_eq_fault_iff _ _ _).1 h with h | ⟨u, hu, h⟩
  · exact ho h
  · exact hf u hu h

theorem cycleFront_ne_fault (h : s.Inv) (present : Bool) (r : Fault) : cycleFront present s ≠ .fault r := by
  unfold cycleFront
  split
  · exact asmTurn_ne_fault h r
  split
  · exact andThen_ne_fault (hostTurn_ne_fault s r) fun u hu => asmTurn_ne_fault (hostTurn_inv h hu) r
  · exact andThen_ne_fault (asmTurn_ne_fault h r) fun u _ => hostTurn_ne_fault u r

theorem cycleTurn_ne_fault (h : s.Inv) (present : Bool) (r : Fault) : cycleTurn present s ≠ .fault r := by
  refine andThen_ne_fault (cycleFront_ne_fault h present r) fun u hu => ?_
  split
  next hr => exact clockTick_ne_fault (cycleFront_inv h hu) (Bool.and_eq_true_iff.1 hr).2 r
  next => exact nofun

theorem takeTurn_ne_fault (h : s.Inv) (turn : Turn) (r : Fault) : takeTurn turn s ≠ .fault r := by
  cases turn with
  | host => exact hostTurn_ne_fault s r
  | seq => exact seqTurn_ne_fault h r
  | asm => exact asmTurn_ne_fault h r
  | cycle present => exact cycleTurn_ne_fault h present r
  | reset => exact nofun

end

/-- Settles O55: using up the turn keeps the invariant, from which no turn faults. -/
theorem noStepFaultsUnderTheInvariant : Obligations.NoStepFaultsUnderTheInvariant :=
  fun _ h r => takeTurn_ne_fault h.turnTaken _ r

end Sys2Proof.Machine

/-! An assembly from its first step to its last: what its frame holds, and what ends it (43_frame_assembler.md R182 to
R187, 42_capture_buffer.md R161). -/

namespace Sys2Proof.Machine

/-! ### Samples that stand in the frame -/

section
variable {s t : State} {n : Nat}

/-- The source words depend on A, the snapshot and the capture RAM alone (43_frame_assembler.md R182, R184). -/
theorem State.sourceWord_congr (ha : t.active = s.active) (hz : t.asmZero = s.asmZero) (hr : t.rh = s.rh)
    (hc : t.cap = s.cap) (he : t.ramEpoch = s.ramEpoch) (n : Nat) : t.sourceWord n = s.sourceWord n := by
  simp only [State.sourceWord, ha, hz, hr, State.capWord_congr hc he]

/-- A sample stands in the frame as long as its bytes and its source word are as they were. -/
theorem State.frameHolds.congr (h : s.frameHolds n) (ha : t.active = s.active)
    (hf : ∀ b < s.active.sampleBytes,
      t.frameByte (n * s.active.sampleBytes + b) = s.frameByte (n * s.active.sampleBytes + b))
    (hw : t.sourceWord n = s.sourceWord n) : t.frameHolds n := by
  intro b hb
  rw [ha] at hb ⊢
  rw [hf b hb, hw, h b hb]

/-- A step adds its own sample to those that stand in the frame (43_frame_assembler.md R183). -/
theorem State.frameHolds_asmStored (hdone : ∀ n < s.asmN.toNat, s.frameHolds n) (hn : n < s.asmN.toNat + 1) :
    (s.frameStore s.asmAddr s.asmBytes).frameHolds n := by
  rcases Nat.lt_succ_iff_lt_or_eq.1 hn with hlt | rfl
  · refine (hdone n hlt).congr rfl (fun b hb => State.frameByte_asmStored_outside fun hin => ?_) rfl
    have hend : (n + 1) * s.active.sampleBytes ≤ s.asmN.toNat * s.active.sampleBytes := Nat.mul_le_mul_right _ hlt
    rw [Nat.succ_mul] at hend
    omega
  · exact fun b hb => State.frameByte_asmStored_inside hb

/-- The end of a step leaves the samples that stand in the frame. -/
theorem State.frameHolds.asmAdvance (h : s.frameHolds n) : s.asmAdvance.frameHolds n :=
  h.congr s.asmAdvance_active (fun _ _ => s.frameByte_asmAdvance _)
    (State.sourceWord_congr s.asmAdvance_active s.asmAdvance_asmZero s.asmAdvance_rh s.asmAdvance_cap
      s.asmAdvance_ramEpoch n)

end

/-! ### One turn of a running assembly -/

/-- A running assembly whose first `asmN` samples stand in the frame. -/
structure State.Filling (s : State) : Prop where
  busy : s.asmBusy = true
  done : ∀ n < s.asmN.toNat, s.frameHolds n

section
variable {s : State}

/-- What a turn of ASM answers in a running assembly: the next sample, or after the last one the whole frame, with
FRAME_DONE pending (43_frame_assembler.md R183, 44_delivery.md R203). -/
theorem State.Filling.asmTurn (hs : s.Filling) (h : s.Inv) : ∃ t, asmTurn s = .next t ∧
    (s.asmN.toNat + 1 ≠ s.active.outSamples → t.Filling ∧ t.asmN.toNat = s.asmN.toNat + 1) ∧
    (s.asmN.toNat + 1 = s.active.outSamples → t.Assembled ∧ t.irqPend.getLsbD 8 = true) := by
  obtain ⟨hb, hdone⟩ := hs
  have hv := h.valid_of_busy hb
  obtain ⟨-, hmax, -⟩ := outSamples_le hv
  have hlt := (h.asm.busy hb).1
  have hholds (n : Nat) (hn : n < s.asmN.toNat + 1) : (s.frameStore s.asmAddr s.asmBytes).asmAdvance.frameHolds n :=
    (State.frameHolds_asmStored hdone hn).asmAdvance
  refine ⟨_, h.asmTurn_eq hb, fun hn => ?_, fun hn => ?_⟩
  · rw [State.asmAdvance_of_ne (s := s.frameStore s.asmAddr s.asmBytes) hn] at hholds ⊢
    have hnext : (s.asmN + 1).toNat = s.asmN.toNat + 1 := by
      rw [BitVec.toNat_add]
      exact Nat.mod_eq_of_lt (show s.asmN.toNat + 1 < 1024 by omega)
    exact ⟨⟨hb, fun n hlt => hholds n (hnext ▸ hlt)⟩, hnext⟩
  · rw [hn] at hholds
    rw [State.asmAdvance_of_eq (s := s.frameStore s.asmAddr s.asmBytes) hn] at hholds ⊢
    refine ⟨⟨rfl, rfl, rfl, bytes_eq hv, hholds⟩, ?_⟩
    show (s.irqPend ||| frameDoneBit).getLsbD 8 = true
    rw [BitVec.getLsbD_or, show frameDoneBit.getLsbD 8 = true from rfl, Bool.or_true]

end

/-! ### A run of ASM alone -/

/-- What turns of ASM keep of what the assembly reads, of what SEQ owns and of what HOST presents
(43_frame_assembler.md R183). -/
structure State.AsmKept (s t : State) : Prop where
  active : t.active = s.active
  asmZero : t.asmZero = s.asmZero
  rh : t.rh = s.rh
  wt : t.wt = s.wt
  cap : t.cap = s.cap
  bus : t.bus = s.bus

theorem State.AsmKept.trans {s u t : State} (h : s.AsmKept u) (h' : u.AsmKept t) : s.AsmKept t :=
  ⟨h'.active.trans h.active, h'.asmZero.trans h.asmZero, h'.rh.trans h.rh, h'.wt.trans h.wt, h'.cap.trans h.cap,
    h'.bus.trans h.bus⟩

theorem asmTurn_asmKept {s t : State} (h : asmTurn s = .next t) : s.AsmKept t := by
  rw [asmTurn_effect h]
  exact ⟨rfl, rfl, rfl, rfl, rfl, rfl⟩

theorem runTurns_asmKept {s t : State} {k : Nat} (h : runTurns (List.replicate k .asm) s = .next t) : s.AsmKept t := by
  refine runTurns_induction s.AsmKept _ (fun turn hturn u v hu hv => ?_) s t ⟨rfl, rfl, rfl, rfl, rfl, rfl⟩ h
  rw [List.eq_of_mem_replicate hturn] at hv
  exact hu.trans (asmTurn_asmKept hv)

/-- A run keeps the invariant. -/
theorem runTurns_inv {s t : State} {ts : List Turn} (h : s.Inv) (ht : runTurns ts s = .next t) : t.Inv :=
  runTurns_induction State.Inv ts (fun _ _ _ _ hu => takeTurn_inv hu) s t h ht

/-- A run of one turn more takes that turn last. -/
theorem runTurns_replicate_succ (turn : Turn) (k : Nat) (s : State) :
    runTurns (List.replicate (k + 1) turn) s = andThen (runTurns (List.replicate k turn) s) (takeTurn turn) := by
  rw [List.replicate_succ', runTurns_append]
  congr 1
  exact funext fun u => andThen_pure _

section
variable {s : State}

/-- After fewer turns than samples the assembly goes on, with a sample for each turn in the frame
(43_frame_assembler.md R183, R187). -/
theorem State.Inv.filling_after (h : s.Inv) (hb : s.asmBusy = true) (h0 : s.asmN = 0) (k : Nat)
    (hk : k < s.active.outSamples) :
    ∃ u, runTurns (List.replicate k .asm) s = .next u ∧ u.Filling ∧ u.asmN.toNat = k := by
  have hzero : s.asmN.toNat = 0 := by rw [h0]; rfl
  induction k with
  | zero => exact ⟨s, rfl, ⟨hb, by simp [hzero]⟩, hzero⟩
  | succ k ih =>
    obtain ⟨u, hrun, hu, hn⟩ := ih (Nat.lt_of_succ_lt hk)
    obtain ⟨t, hturn, hnext, -⟩ := hu.asmTurn (runTurns_inv h hrun)
    have hne : u.asmN.toNat + 1 ≠ u.active.outSamples := by
      rw [(runTurns_asmKept hrun).active, hn]
      exact Nat.ne_of_lt hk
    obtain ⟨hfill, hindex⟩ := hnext hne
    exact ⟨t, by rw [runTurns_replicate_succ, hrun, andThen_next]; exact hturn, hfill, hindex.trans (by rw [hn])⟩

/-- After as many turns as samples the whole frame stands, and FRAME_DONE is pending (43_frame_assembler.md R183, R185,
R187). -/
theorem State.Inv.assembled_after (h : s.Inv) (hb : s.asmBusy = true) (h0 : s.asmN = 0) :
    ∃ t, runTurns (List.replicate s.active.outSamples .asm) s = .next t ∧ t.Assembled ∧ t.irqPend.getLsbD 8 = true := by
  have hpos := (outSamples_le (h.valid_of_busy hb)).1
  obtain ⟨k, hk⟩ : ∃ k, s.active.outSamples = k + 1 := ⟨s.active.outSamples - 1, by omega⟩
  obtain ⟨u, hrun, hu, hn⟩ := h.filling_after hb h0 k (by omega)
  obtain ⟨t, hturn, -, hlast⟩ := hu.asmTurn (runTurns_inv h hrun)
  refine ⟨t, ?_, hlast ?_⟩
  · rw [hk, runTurns_replicate_succ, hrun, andThen_next]
    exact hturn
  · rw [(runTurns_asmKept hrun).active, hn, hk]

/-- Further turns of ASM change nothing (log 4). -/
theorem runTurns_asm_past {t : State} {m k : Nat} (hrun : runTurns (List.replicate m .asm) s = .next t)
    (ht : t.asmBusy = false) (hk : m ≤ k) : runTurns (List.replicate k .asm) s = .next t := by
  obtain ⟨j, rfl⟩ := Nat.exists_eq_add_of_le hk
  rw [List.replicate_add, runTurns_append, hrun, andThen_next, runTurns_asm_idle ht]

/-- An ASMRUN ends the assembly (30_encoding.md R103). -/
theorem State.Inv.assembled_after_asmrun (h : s.Inv) (hb : s.asmBusy = true) (h0 : s.asmN = 0) (hturns : s.turns = []) :
    ∃ t, runLine .asmrun s = .next t ∧ t.Assembled ∧ s.AsmKept t ∧ t.turns = [] := by
  obtain ⟨t, hrun, ht, -⟩ := h.assembled_after hb h0
  obtain ⟨hactive, hzero, hrh, hwt, hcap, hbus⟩ := runTurns_asmKept hrun
  have hpast : runTurns assemblyTurns s = .next t :=
    runTurns_asm_past hrun ht.idle (outSamples_le (h.valid_of_busy hb)).2.1
  refine ⟨{ t with turns := [] }, by rw [runLine_asmrun hturns, hpast, andThen_next], ?_,
    ⟨hactive, hzero, hrh, hwt, hcap, hbus⟩, rfl⟩
  exact ⟨ht.idle, ht.ready, ht.ok, ht.len, ht.done⟩

/-! ### A WAIT on FRAME_READY -/

/-- Bit 4 of the STATUS word is FRAME_READY (10_state.md R31). -/
theorem State.statusWord_and_frameReady (s : State) : s.statusWord &&& 0x10 = if s.frameReady then 0x10 else 0 := by
  have hbit : s.statusWord.getLsbD 4 = s.frameReady := by
    simp only [State.statusWord, BitVec.getLsbD_or, getLsbD_bitAt]
    simp
  rw [← hbit]
  exact BitVec.and_twoPow s.statusWord 4

/-- A read of STATUS, with nothing else listed, only answers the STATUS word (45_bus_access.md R224). -/
theorem runLine_rdStatus (hbus : s.bus = []) (hturns : s.turns = []) :
    runLine (.rd .status) s = .next (s.respondRead s.statusWord) := by
  rw [runLine_word rfl rfl rfl hbus hturns, hostTurn_of_decode (i := .rdStatus) (rest := []) rfl
    (decode_mkTxn_reg (by decide) (by decide) rfl), ← hbus]
  rfl

/-- The read of STATUS ends a WAIT on FRAME_READY iff FRAME_READY = 1 (30_encoding.md R103). -/
theorem State.waitEnds_statusRead (s : State) :
    (s.respondRead s.statusWord).waitEnds 0x10 0x10 = s.frameReady := by
  show (s.statusWord &&& 0x10 == 0x10) = s.frameReady
  rw [s.statusWord_and_frameReady]
  cases s.frameReady <;> rfl

/-- A WAIT on FRAME_READY in an assembly's first state reads in vain, lets ASM finish, and reads again
(30_encoding.md R103, 70_reset_and_hazards.md R285; log 21). -/
theorem State.Inv.wait_frameReady (h : s.Inv) (hb : s.asmBusy = true) (h0 : s.asmN = 0) (hbus : s.bus = [])
    (hturns : s.turns = []) (n : Nat) : ∃ t : State, t.Assembled ∧ t.active = s.active ∧
      runWait .status 0x10 0x10 (n + 2) s = some (.next (t.respondRead t.statusWord)) := by
  have hu : (s.respondRead s.statusWord).Inv := h.with_inputs ..
  obtain ⟨t, hasm, ht, hkept, hnone⟩ := hu.assembled_after_asmrun hb h0 hturns
  have hvain := s.waitEnds_statusRead.trans (h.asm.busy hb).2
  have hends := t.waitEnds_statusRead.trans ht.ready
  refine ⟨t, ht, hkept.active, ?_⟩
  rw [runWait_again _ (runLine_rdStatus hbus hturns) hvain, hasm, thenRun_next,
    runWait_ends n (runLine_rdStatus (hkept.bus.trans hbus) hnone) hends]

end

/-- Settles O42: each turn of ASM adds a sample to the frame and the last one ends the assembly; a WAIT's read in vain is
followed by those turns. -/
theorem assemblyIsExactlyNSteps : Obligations.AssemblyIsExactlyNSteps := by
  intro s h hb h0
  refine ⟨fun k hk => ?_, ?_, fun reads hreads hbus hturns => ?_⟩
  · obtain ⟨u, hrun, hu, -⟩ := h.filling_after hb h0 k hk
    exact ⟨u, hrun, hu.busy⟩
  · obtain ⟨t, hrun, ht, hirq⟩ := h.assembled_after hb h0
    have hkept := runTurns_asmKept hrun
    have hlen := ht.len
    have hdone := ht.done
    rw [hkept.active] at hlen hdone
    exact ⟨t, hrun, ht.idle, ht.ready, ht.ok, hlen, hkept.cap, hirq, hdone,
      fun k => runTurns_asm_past hrun ht.idle,
      runTurns_asm_past hrun ht.idle (outSamples_le (h.valid_of_busy hb)).2.1⟩
  · obtain ⟨n, rfl⟩ := Nat.exists_eq_add_of_le' hreads
    obtain ⟨t, ht, ha, hwait⟩ := h.wait_frameReady hb h0 hbus hturns n
    have hready : t.statusWord &&& 0x10 = 0x10 := by rw [t.statusWord_and_frameReady, if_pos ht.ready]
    refine ⟨t.respondRead t.statusWord, t.statusWord, ?_, ht.idle, ha ▸ ht.done, rfl, hready⟩
    rw [programEnd, runWhole, hwait]
    rfl

/-! ### A zero-fill assembly -/

/-- Settles O43: every byte of the frame is a byte of some sample, whose source word is 0. -/
theorem zeroFillFrameIsSilence : Obligations.ZeroFillFrameIsSilence := by
  intro s h hb hz h0
  have hv := h.valid_of_busy hb
  obtain ⟨t, hrun, ht, -⟩ := h.assembled_after hb h0
  have hkept := runTurns_asmKept hrun
  have hbytes := bytes_eq hv
  refine ⟨t, hrun, ht.idle, BitVec.eq_of_toNat_eq ?_, fun a ha => ?_⟩
  · rw [ht.len, hkept.active, hbytes]
  · rw [hbytes] at ha
    have hB : 0 < s.active.sampleBytes := Nat.pos_of_lt_mul_left ha
    have hsample := ht.done (a / s.active.sampleBytes)
    rw [hkept.active] at hsample
    have hbyte := hsample (Nat.div_lt_of_lt_mul (by rwa [Nat.mul_comm])) (a % s.active.sampleBytes)
    have hsilent : t.sourceWord (a / s.active.sampleBytes) = 0 := if_pos (hkept.asmZero.trans hz)
    rw [hkept.active, Nat.div_add_mod', hsilent] at hbyte
    rw [hbyte (Nat.mod_lt a hB)]
    exact BitVec.extractLsb'_zero

end Sys2Proof.Machine

/-! An assembly that no completion event overtakes, under every agent's turn (42_capture_buffer.md R161,
43_frame_assembler.md R187). -/

namespace Sys2Proof.Machine

/-- What a running assembly reads and has written is as before: A, its own registers, WT, the frame and the words of the
read-ready halves (42_capture_buffer.md R161). -/
structure State.AssemblyKept (s t : State) : Prop where
  active : t.active = s.active
  asmBusy : t.asmBusy = s.asmBusy
  asmZero : t.asmZero = s.asmZero
  asmN : t.asmN = s.asmN
  rh : t.rh = s.rh
  wt : t.wt = s.wt
  frameByte : ∀ a, t.frameByte a = s.frameByte a
  readReady : s.ReadReadyKept t

section
variable {s u t : State}

/-- An update of nothing that an assembly reads or writes. -/
theorem State.AssemblyKept.of_fields (ha : t.active = s.active) (hb : t.asmBusy = s.asmBusy)
    (hz : t.asmZero = s.asmZero) (hn : t.asmN = s.asmN) (hr : t.rh = s.rh) (hw : t.wt = s.wt) (hf : t.frame = s.frame)
    (hc : t.cap = s.cap) (he : t.ramEpoch = s.ramEpoch) : s.AssemblyKept t :=
  ⟨ha, hb, hz, hn, hr, hw, State.frameByte_congr hf he, .of_cap hc he⟩

theorem State.AssemblyKept.trans (h : s.AssemblyKept u) (h' : u.AssemblyKept t) : s.AssemblyKept t := by
  refine ⟨h'.active.trans h.active, h'.asmBusy.trans h.asmBusy, h'.asmZero.trans h.asmZero, h'.asmN.trans h.asmN,
    h'.rh.trans h.rh, h'.wt.trans h.wt, fun a => (h'.frameByte a).trans (h.frameByte a), fun l j hj => ?_⟩
  rw [← h.readReady l j hj, ← h.wt, h'.readReady l j hj]

/-- A running assembly's source words are read from the read-ready halves (42_capture_buffer.md R161,
43_frame_assembler.md R182). -/
theorem State.Assembling.sourceWord_eq (hs : s.Assembling) (h : s.Inv) (hk : s.AssemblyKept t) {n : Nat}
    (hn : n < s.active.outSamples) : t.sourceWord n = s.sourceWord n := by
  have hv := h.valid_of_busy hs.busy
  obtain ⟨hline, hindex⟩ := source_in_half hv hn
  have hhalf := (half_le hv).2
  have hmax := s.params.half_range.2
  simp only [State.sourceWord, hk.active, hk.asmZero, hk.rh, hs.snapshot _ hline]
  rw [hk.readReady _ _ (by omega)]

/-- An assembly goes on undisturbed as long as what it reads and has written is as before. -/
theorem State.Assembling.keep (hs : s.Assembling) (h : s.Inv) (hk : s.AssemblyKept t) : t.Assembling where
  busy := hk.asmBusy.trans hs.busy
  snapshot := by
    rw [hk.active, hk.rh, hk.wt]
    exact hs.snapshot
  done n hn := by
    rw [hk.asmN] at hn
    exact (hs.done n hn).congr hk.active (fun b _ => hk.frameByte _)
      (hs.sourceWord_eq h hk (hn.trans (h.asm.busy hs.busy).1))

/-! ### HOST's turn -/

/-- While ASM_BUSY = 1 no transaction reaches the assembly: START and FRAME_REQ are ignored (41_sequencer.md R123,
44_delivery.md R202). -/
theorem ExecCase.assemblyKept {i : Instr} {r : Response} (hc : ExecCase i s r t) (hb : s.asmBusy = true) :
    s.AssemblyKept t := by
  cases hc
  case start hi hr hidle hv => exact absurd hb (by simp [hidle])
  case decline hi hidle ok => exact absurd hb (by simp [hidle])
  case assemble hi hidle hv => exact absurd hb (by simp [hidle])
  all_goals exact .of_fields rfl rfl rfl rfl rfl rfl rfl rfl rfl

theorem hostTurn_assemblyKept (h : hostTurn s = .next t) (hb : s.asmBusy = true) : s.AssemblyKept t := by
  rcases hostTurn_effect h with rfl | ⟨w, rest, i, r, -, -, hc⟩
  · exact .of_fields rfl rfl rfl rfl rfl rfl rfl rfl rfl
  · have hword : s.AssemblyKept { s with bus := rest } := .of_fields rfl rfl rfl rfl rfl rfl rfl rfl rfl
    exact hword.trans (hc.assemblyKept hb)

/-! ### SEQ's turn -/

/-- A bit event that is no completion event leaves the assembly alone (42_capture_buffer.md R161). -/
theorem State.bitEvent_assemblyKept {i : SerialIn} (h : s.bitEvent i = .next t) (hcnt : t.halfcnt = s.halfcnt) :
    s.AssemblyKept t := by
  have hready := State.bitEvent_readReadyKept h
  rcases State.bitEvent_effect h with ht | ht
  · unfold State.Advanced at ht
    have hframe (a : Nat) : t.frameByte a = s.frameByte a := by
      rw [ht]
      rfl
    exact ⟨by rw [ht], by rw [ht], by rw [ht], by rw [ht], by rw [ht], by rw [ht], hframe, hready⟩
  · have hnext : t.halfcnt = s.halfcnt + 1 := congrArg State.halfcnt ht
    exact absurd (hnext.symm.trans hcnt) (by simp)

theorem seqTurn_assemblyKept (h : seqTurn s = .next t) (hcnt : t.halfcnt = s.halfcnt) : s.AssemblyKept t := by
  unfold seqTurn at h
  split at h
  · have hclock : s.AssemblyKept s.toRisingEdge.sampled := by apply State.AssemblyKept.of_fields <;> simp
    exact hclock.trans (State.bitEvent_assemblyKept h (by simpa using hcnt))
  · cases h
    exact .of_fields rfl rfl rfl rfl rfl rfl rfl rfl rfl

/-! ### ASM's turn -/

/-- ASM's turn adds a sample to an undisturbed assembly, or ends it (43_frame_assembler.md R183). -/
theorem State.Assembling.asmTurn (hs : s.Assembling) (h : s.Inv) (ht : asmTurn s = .next t) :
    t.Assembling ∨ t.Assembled := by
  obtain ⟨u, hu, hgoes, hends⟩ := State.Filling.asmTurn ⟨hs.busy, hs.done⟩ h
  cases hu.symm.trans ht
  by_cases hn : s.asmN.toNat + 1 = s.active.outSamples
  · exact .inr (hends hn).1
  · obtain ⟨hfill, -⟩ := hgoes hn
    have hkept := asmTurn_asmKept ht
    refine .inl ⟨hfill.busy, ?_, hfill.done⟩
    rw [hkept.active, hkept.rh, hkept.wt]
    exact hs.snapshot

end

/-- Settles O44: HOST and SEQ keep what the assembly reads and has written, ASM carries it on. -/
theorem undisturbedAssemblyIsTheInterleave : Obligations.UndisturbedAssemblyIsTheInterleave := by
  intro turn s t h hs hagent ht hcnt
  cases turn with
  | host => exact .inl (hs.keep h (hostTurn_assemblyKept ht hs.busy))
  | seq => exact .inl (hs.keep h (seqTurn_assemblyKept ht hcnt))
  | asm => exact hs.asmTurn h ht
  | cycle present => exact nomatch hagent
  | reset => exact nomatch hagent

end Sys2Proof.Machine

/-! The frame between requests, FRAME_REQ itself, and the frame-RAM window (44_delivery.md R202 to R204, R209). -/

namespace Sys2Proof.Machine

/-! ### A predicate that every turn but a reset keeps -/

/-- HOST's, SEQ's and ASM's turns keep a predicate on states, and so does the divider's part of a cycle. -/
structure KeptByAgents (P : State → Prop) : Prop where
  host {s t} : P s → hostTurn s = .next t → P t
  seq {s t} : P s → seqTurn s = .next t → P t
  asm {s t} : P s → asmTurn s = .next t → P t
  tick {s t} : P s → clockTick s = .next t → P t

namespace KeptByAgents

variable {P : State → Prop} {s t : State}

/-- ASM's and HOST's part of a cycle, in either order (60_exceptions.md R248, R249). -/
theorem cycleFront (h : KeptByAgents P) {present : Bool} (hs : P s) (ht : cycleFront present s = .next t) : P t := by
  unfold Machine.cycleFront at ht
  split at ht
  · exact h.asm hs ht
  split at ht <;> obtain ⟨u, h1, h2⟩ := (andThen_eq_next_iff _ _ _).1 ht
  · exact h.asm (h.host hs h1) h2
  · exact h.host (h.asm hs h1) h2

/-- The divider ticks after ASM and HOST, or not at all (41_sequencer.md R125). -/
theorem cycleTurn (h : KeptByAgents P) {present : Bool} (hs : P s) (ht : cycleTurn present s = .next t) : P t := by
  obtain ⟨u, h1, h2⟩ := (andThen_eq_next_iff _ _ _).1 ht
  have hu := h.cycleFront hs h1
  split at h2
  · exact h.tick hu h2
  · cases h2
    exact hu

theorem takeTurn (h : KeptByAgents P) {turn : Turn} (hne : turn ≠ .reset) (hs : P s)
    (ht : takeTurn turn s = .next t) : P t := by
  cases turn with
  | host => exact h.host hs ht
  | seq => exact h.seq hs ht
  | asm => exact h.asm hs ht
  | cycle present => exact h.cycleTurn hs ht
  | reset => exact absurd rfl hne

/-- A run without a reset keeps what the agents keep. -/
theorem runTurns (h : KeptByAgents P) {ts : List Turn} (hts : Turn.reset ∉ ts) (hs : P s)
    (ht : runTurns ts s = .next t) : P t :=
  runTurns_induction P ts (fun _ hturn _ _ => h.takeTurn fun he => hts (he ▸ hturn)) s t hs ht

end KeptByAgents

/-! ### Between requests -/

/-- `t` is between requests and its frame is that of `s`: no assembly runs, no FRAME_REQ is among the words HOST has
still to present, and the frame RAM and the result registers are as in `s` (44_delivery.md R209). -/
structure State.FrameOf (s t : State) : Prop where
  idle : t.asmBusy = false
  noRequest : ∀ w ∈ t.bus, w ≠ encode .cmdFrameReq
  frame : t.frame = s.frame
  ramEpoch : t.ramEpoch = s.ramEpoch
  frameReady : t.frameReady = s.frameReady
  frameOk : t.frameOk = s.frameOk
  frameLen : t.frameLen = s.frameLen

section
variable {s u t : State}

/-- An update that does not reach the delivery of a frame. -/
theorem State.FrameOf.of_fields (h : s.FrameOf u) (hb : t.asmBusy = u.asmBusy) (hw : t.bus = u.bus)
    (hf : t.frame = u.frame) (he : t.ramEpoch = u.ramEpoch) (hr : t.frameReady = u.frameReady)
    (ho : t.frameOk = u.frameOk) (hl : t.frameLen = u.frameLen) : s.FrameOf t :=
  ⟨hb.trans h.idle, hw ▸ h.noRequest, hf.trans h.frame, he.trans h.ramEpoch, hr.trans h.frameReady,
    ho.trans h.frameOk, hl.trans h.frameLen⟩

/-- A word presented leaves the others to present. -/
theorem State.FrameOf.presented (h : s.FrameOf u) {w : Txn} {rest : List Txn} (hb : u.bus = w :: rest) :
    s.FrameOf { u with bus := rest } :=
  ⟨h.idle, fun v hv => h.noRequest v (hb ▸ List.mem_cons_of_mem w hv), h.frame, h.ramEpoch, h.frameReady, h.frameOk,
    h.frameLen⟩

/-- No transaction but FRAME_REQ reaches the delivery of a frame (44_delivery.md R202, R209). -/
theorem ExecCase.frameOf {i : Instr} {r : Response} (hc : ExecCase i u r t) (hi : i ≠ .cmdFrameReq)
    (h : s.FrameOf u) : s.FrameOf t := by
  cases hc
  case decline hreq _ _ => exact absurd hreq hi
  case assemble hreq _ _ => exact absurd hreq hi
  all_goals exact h.of_fields rfl rfl rfl rfl rfl rfl rfl

/-- A bit event delivers nothing (41_sequencer.md R126). -/
theorem State.bitEvent_frameOf {i : SerialIn} (h : s.FrameOf u) (ht : u.bitEvent i = .next t) : s.FrameOf t := by
  rcases State.bitEvent_effect ht with hk | hk <;>
  · rw [hk]
    exact h.of_fields rfl rfl rfl rfl rfl rfl rfl

end

/-- A word that spells a write is the word of that write: only a read's DATA is don't-care (30_encoding.md R92). -/
theorem eq_encode_of_decode_write {p : Params} {w : Txn} {i : Instr} (h : decode p w = some i)
    (hi : i.isWrite = true) : w = encode i := by
  obtain ⟨-, ha⟩ := (decode_eq_some_iff p w i).1 h
  rw [← ha, isWrite_decodeAccess] at hi
  exact (encodeAfterDecodeIsIdentityOnCanonicalWords p w i h (.inl hi)).symm

/-- HOST presents no FRAME_REQ, ASM has nothing to assemble, and SEQ and the divider deliver nothing
(44_delivery.md R209). -/
theorem State.frameOf_kept (s : State) : KeptByAgents s.FrameOf where
  host {u t} h ht := by
    rcases hostTurn_effect ht with rfl | ⟨w, rest, i, r, hb, hd, hc⟩
    · exact h
    have hi : i ≠ .cmdFrameReq := by
      rintro rfl
      exact h.noRequest w (hb ▸ List.mem_cons_self) (eq_encode_of_decode_write hd rfl)
    exact hc.frameOf hi (h.presented hb)
  seq {u t} h ht := by
    unfold seqTurn at ht
    split at ht
    · refine State.bitEvent_frameOf ?_ ht
      apply h.of_fields <;> simp
    · cases ht
      exact h
  asm {u t} h ht := by
    cases (asmTurn_idle h.idle).symm.trans ht
    exact h
  tick {u t} h ht := by
    have htick : s.FrameOf u.divTick := by apply h.of_fields <;> simp
    unfold clockTick at ht
    split at ht
    · refine State.bitEvent_frameOf ?_ ht
      apply htick.of_fields <;> simp
    · cases ht
      exact htick

/-- Settles O45: every turn but a reset keeps the state between requests, with the frame it had. -/
theorem frameIsStableBetweenRequests : Obligations.FrameIsStableBetweenRequests := by
  intro ts s t hidle hbus hts h
  obtain ⟨ht, -, hframe, he, hready, hok, hlen⟩ :=
    s.frameOf_kept.runTurns hts ⟨hidle, hbus, rfl, rfl, rfl, rfl, rfl⟩ h
  exact ⟨State.frameByte_congr hframe he, hready, hok, hlen, ht⟩

/-! ### The frame-RAM window -/

/-- Byte b of a word of the window is the frame byte b above the word's first (20_memory.md R72). -/
theorem State.byteOf_frameWord (s : State) (k : Nat) {b : Nat} (hb : b < 4) :
    byteOf (s.frameWord k) b = s.frameWindowByte (4 * k + b) := by
  rw [State.frameWord, byteOf_wordOf _ _ _ _ b hb]
  interval_cases b <;> rfl

/-- The window shows 0 at and above FRAME_BYTES_MAX (20_memory.md R72). -/
theorem State.getLsbD_frameWindowByte (s : State) (a j : Nat) :
    (s.frameWindowByte a).getLsbD j = (decide (a < s.params.frameBytesMax) && (s.frameByte a).getLsbD j) := by
  unfold State.frameWindowByte
  split
  next h => rw [decide_eq_true h, Bool.true_and]
  next h =>
    rw [decide_eq_false h, Bool.false_and]
    exact BitVec.getLsbD_zero

/-- Settles O35, by whether the window maps the word. -/
theorem frameWindowRead : Obligations.FrameWindowRead := by
  intro s k
  refine ⟨fun hk => ⟨_, if_pos ((frameMapped_iff _ _).2 hk), fun b hb j hj => ?_⟩,
    fun hk => if_neg (mt (frameMapped_iff _ _).1 hk)⟩
  rw [← getLsbD_byteOf _ b hj, State.byteOf_frameWord s _ hb, State.getLsbD_frameWindowByte, Params.frameBytesMax]

/-! ### FRAME_REQ -/

/-- FRAME_REQ while assembling is ignored (44_delivery.md R202). -/
theorem execCmdFrameReq_ignored {s : State} (hb : s.asmBusy = true) :
    execCmdFrameReq s = .next (s.setErr .cmdIgn).respondWrite := by
  rw [execCmdFrameReq, if_pos hb]

section
variable {s : State} (hb : s.asmBusy = false)
include hb

/-- FRAME_REQ while idle looks at MOUNTED, then STREAM, then CFG_VALID (44_delivery.md R202, 60_exceptions.md R250). -/
theorem execCmdFrameReq_idle : execCmdFrameReq s =
    if !s.mounted then .next (s.finish false 0).respondWrite
    else if !s.stream then .next (s.finish true 0).respondWrite
    else if !s.cfgValid then .next (s.finish false 0).respondWrite
    else .next ({ s with frameReady := false } : State).startAssembly.respondWrite := by
  rw [execCmdFrameReq, if_neg (by simp [hb])]
  rfl

theorem execCmdFrameReq_unmounted (hm : s.mounted = false) :
    execCmdFrameReq s = .next (s.finish false 0).respondWrite := by
  rw [execCmdFrameReq_idle hb, hm]
  rfl

variable (hm : s.mounted = true)
include hm

theorem execCmdFrameReq_notStreaming (hs : s.stream = false) :
    execCmdFrameReq s = .next (s.finish true 0).respondWrite := by
  rw [execCmdFrameReq_idle hb, hm, hs]
  rfl

variable (hs : s.stream = true)
include hs

theorem execCmdFrameReq_notConfigured (hv : s.cfgValid = false) :
    execCmdFrameReq s = .next (s.finish false 0).respondWrite := by
  rw [execCmdFrameReq_idle hb, hm, hs, hv]
  rfl

theorem execCmdFrameReq_accepted (hv : s.cfgValid = true) :
    execCmdFrameReq s = .next ({ s with frameReady := false } : State).startAssembly.respondWrite := by
  rw [execCmdFrameReq_idle hb, hm, hs, hv]
  rfl

end

/-- The snapshot names each line's read-ready half, the one its WT does not (10_state.md R43, 44_delivery.md R202). -/
theorem State.getLsbD_startAssembly_rh (s : State) {l : Nat} (hl : l < 6) :
    s.startAssembly.rh.getLsbD l = !s.wt.getLsbD l := by
  rw [State.startAssembly, BitVec.getLsbD_not, decide_eq_true hl, Bool.true_and]

/-- Settles O37, case by case of FRAME_REQ. -/
theorem frameRequestCommand : Obligations.FrameRequestCommand := fun s =>
  ⟨fun hb => execCmdFrameReq_ignored hb, fun hb hm => execCmdFrameReq_unmounted hb hm,
    fun hb hm hs => execCmdFrameReq_notStreaming hb hm hs,
    fun hb hm hs hv => execCmdFrameReq_notConfigured hb hm hs hv,
    fun hb hm hs hv => ⟨_, execCmdFrameReq_accepted hb hm hs hv, fun _ hl => s.getLsbD_startAssembly_rh hl⟩⟩

end Sys2Proof.Machine

/-! The host transactions of identification, status and diagnostics (45_bus_access.md R220 to R234, 42_capture_buffer.md
R155 to R160, 44_delivery.md R206, R207). -/

namespace Sys2Proof.Machine

/-! ### STATUS, bit by bit -/

/-- Bit k of a field placed at n is the field's bit k - n. -/
theorem getLsbD_fieldAt {w : Nat} (v : BitVec w) (n : Nat) {k : Nat} (hk : k < 32) :
    (v.setWidth 32 <<< n).getLsbD k = (decide (n ≤ k) && v.getLsbD (k - n)) := by
  rw [BitVec.getLsbD_shiftLeft, BitVec.getLsbD_setWidth, decide_eq_true hk, decide_eq_true (by omega : k - n < 32),
    Bool.true_and, Bool.true_and, ← decide_not]
  simp only [Nat.not_lt]

/-- Bit k of the STATUS word: each flag at its place, ERRCODE from bit 12 on, WT of the lines that exist from bit 16 on
(10_state.md R31). -/
theorem State.getLsbD_statusWord (s : State) {k : Nat} (hk : k < 32) : s.statusWord.getLsbD k =
    (decide (k = 0) && s.run || decide (k = 1) && s.synced || decide (k = 2) && s.primed || decide (k = 3) && s.asmBusy
      || decide (k = 4) && s.frameReady || decide (k = 5) && s.frameOk || decide (k = 6) && s.cfgValid
      || decide (k = 8) && s.cfgErr || decide (12 ≤ k) && s.errcode.getLsbD (k - 12)
      || decide (16 ≤ k) && (s.wt.getLsbD (k - 16) && (decide (k - 16 < 6) && decide (k - 16 < s.params.nlinesMax)))
      || decide (k = 24) && s.irqO) := by
  simp only [State.statusWord, BitVec.getLsbD_or, getLsbD_bitAt, getLsbD_fieldAt _ _ hk, BitVec.getLsbD_and,
    getLsbD_lineMask, hk, decide_true, Bool.true_and]

/-- Bits 15:12 of the STATUS word are ERRCODE: WT lies above, the flags below (10_state.md R31). -/
theorem State.getLsbD_statusWord_errcode (s : State) {k : Nat} (hk : k < 4) :
    s.statusWord.getLsbD (12 + k) = s.errcode.getLsbD k := by
  rw [s.getLsbD_statusWord (by omega)]
  interval_cases k <;> simp

/-- Bits 21:16 of the STATUS word are WT of the lines that exist: ERRCODE ends below them (10_state.md R31). -/
theorem State.getLsbD_statusWord_wt (s : State) {l : Nat} (hl : l < 6) :
    s.statusWord.getLsbD (16 + l) = (decide (l < s.params.nlinesMax) && s.wt.getLsbD l) := by
  rw [s.getLsbD_statusWord (by omega), Bool.and_comm (decide (l < _))]
  interval_cases l <;> simp

/-- No field of the STATUS word reaches a reserved bit (10_state.md R31). -/
theorem State.getLsbD_statusWord_reserved (s : State) {k : Nat} (hk : k < 32)
    (h : k = 7 ∨ (9 ≤ k ∧ k ≤ 11) ∨ k = 22 ∨ k = 23 ∨ 25 ≤ k) : s.statusWord.getLsbD k = false := by
  have hflags : k ≠ 0 ∧ k ≠ 1 ∧ k ≠ 2 ∧ k ≠ 3 ∧ k ≠ 4 ∧ k ≠ 5 ∧ k ≠ 6 ∧ k ≠ 8 ∧ k ≠ 24 := by omega
  have hfields : k < 12 ∨ (16 ≤ k ∧ 6 ≤ k - 16) := by omega
  rw [s.getLsbD_statusWord hk]
  rcases hfields with hlow | ⟨h16, hwt⟩
  · simp [hflags, hlow, (by omega : k < 16)]
  · simp [hflags, hwt, BitVec.getLsbD_of_ge s.errcode (k - 12) (by omega)]

/-- Settles O14: each bit of the word that RD_STATUS answers is the one field placed there, or none. -/
theorem statusReadBitByBit : Obligations.StatusReadBitByBit := by
  intro s
  refine ⟨s.statusWord, rfl, ?run, ?synced, ?primed, ?asmBusy, ?frameReady, ?frameOk, ?cfgValid, ?cfgErr,
    fun _ hk => s.getLsbD_statusWord_errcode hk, fun _ hl => s.getLsbD_statusWord_wt hl, s.getLsbD_statusWord_irq,
    fun _ hk h => s.getLsbD_statusWord_reserved hk h⟩
  all_goals
    rw [s.getLsbD_statusWord (by decide)]
    simp

/-! ### Clearing, and reserved commands -/

theorem getLsbD_errMask : ∀ k < 32, errMask.getLsbD k = decide (k < 5) := by decide

/-- A write of 1 clears a bit that the register has; every other bit is kept (10_state.md R33, R34). -/
theorem getLsbD_writeOneToClear {mask : Word} {has : Nat → Bool} (h : ∀ k < 32, mask.getLsbD k = has k) (r d : Word) :
    ∀ k < 32, (r &&& ~~~(d &&& mask)).getLsbD k = (r.getLsbD k && !(has k && d.getLsbD k)) := fun k hk => by
  rw [BitVec.getLsbD_and, BitVec.getLsbD_not, decide_eq_true hk, Bool.true_and, getLsbD_and_mask h d k hk,
    Bool.and_comm (has k)]

/-- Settles O17: CLR_DIAG and a reserved command as they are defined, a write of 1 by the bits of the register's mask. -/
theorem clearsAndReservedCommands : Obligations.ClearsAndReservedCommands := by
  intro s d
  have hirq : ∀ k < 32, irqMask.getLsbD k = decide (k < 6 ∨ k = 8) := fun k hk =>
    (getLsbD_irqMask k hk).trans (decide_eq_decide.2 (by omega))
  exact ⟨rfl, rfl, ⟨_, rfl, getLsbD_writeOneToClear getLsbD_errMask s.errflags d⟩,
    ⟨_, rfl, getLsbD_writeOneToClear hirq s.irqPend d⟩⟩

/-! ### Reads of the other registers -/

/-- The fields of PARAMS do not overlap, so the word is their weighted sum (10_state.md R23). -/
theorem paramsWord_eq (p : Params) :
    paramsWord p = BitVec.ofNat 32 (p.nlinesMax + 2 ^ 8 * p.halfWordsMax + 2 ^ 16 * 6) := by
  obtain ⟨-, hn⟩ := p.nlines_range
  obtain ⟨-, hh⟩ := p.half_range
  have hlow : p.nlinesMax ||| 2 ^ 8 * p.halfWordsMax = 2 ^ 8 * p.halfWordsMax + p.nlinesMax := by
    rw [Nat.or_comm, Nat.two_pow_add_eq_or_of_lt (by omega)]
  have hsum : p.nlinesMax ||| 2 ^ 8 * p.halfWordsMax ||| 2 ^ 16 * 6 =
      p.nlinesMax + 2 ^ 8 * p.halfWordsMax + 2 ^ 16 * 6 := by
    rw [hlow, Nat.or_comm, ← Nat.two_pow_add_eq_or_of_lt (by omega)]
    omega
  have hnl : (BitVec.ofNat 3 p.nlinesMax).setWidth 32 = BitVec.ofNat 32 p.nlinesMax :=
    BitVec.setWidth_ofNat_of_le_of_lt (by decide) (by omega)
  have hhw : (BitVec.ofNat 8 p.halfWordsMax).setWidth 32 <<< 8 = BitVec.ofNat 32 (2 ^ 8 * p.halfWordsMax) := by
    rw [BitVec.setWidth_ofNat_of_le_of_lt (by decide) (by omega), BitVec.shiftLeft_eq_mul_twoPow,
      BitVec.mul_comm, BitVec.ofNat_mul]
    rfl
  rw [← hsum, BitVec.ofNat_or, BitVec.ofNat_or, paramsWord, hnl, hhw]
  rfl

/-- FRAME_LEN shows LEN, its upper bits 0 (10_state.md R38). -/
theorem execRdFrameLen_eq (s : State) :
    execRdFrameLen s = .next (s.respondRead (BitVec.ofNat 32 s.frameLen.toNat)) := by
  rw [BitVec.ofNat_toNat, execRdFrameLen]

/-- PARAMS shows the build (45_bus_access.md R222). -/
theorem execRdParams_eq (s : State) : execRdParams s = .next (s.respondRead
    (BitVec.ofNat 32 (s.params.nlinesMax + 2 ^ 8 * s.params.halfWordsMax + 2 ^ 16 * 6))) := by
  rw [execRdParams, paramsWord_eq]

/-- Settles O13: each read answers its register; PARAMS is put together from the build, FRAME_LEN is widened. -/
theorem diagnosticReads : Obligations.DiagnosticReads :=
  fun s => ⟨rfl, execRdParams_eq s, rfl, rfl, rfl, rfl, rfl, rfl, execRdFrameLen_eq s⟩

/-! ### Writes to read-only registers, and NOP -/

/-- Settles O16, transaction by transaction of the list: each is the response alone. -/
theorem writesThatChangeNothing : Obligations.WritesThatChangeNothing := by
  intro s d
  simp only [List.forall_mem_cons, List.not_mem_nil, false_implies, implies_true, and_true]
  exact ⟨rfl, rfl, rfl, rfl, rfl, rfl, rfl, rfl⟩

end Sys2Proof.Machine

/-! The divider's phase is not observed by the agents: no turn reads it but to move it on (41_sequencer.md R125). -/

namespace Sys2Proof.Machine

/-! ### Equal but for the divider -/

section
variable {s t u : State}

theorem State.sameButDivider.symm (h : s.sameButDivider t) : t.sameButDivider s := by
  unfold State.sameButDivider at *
  rw [h]

theorem State.sameButDivider.trans (h : s.sameButDivider u) (h' : u.sameButDivider t) : s.sameButDivider t := by
  unfold State.sameButDivider at *
  rw [h', h]

theorem State.sameButDivider_with (s : State) (c : Nat) (a : BitVec 8) (b : Bool) :
    s.sameButDivider { s with divCnt := c, divAcc := a, bclk := b } := rfl

/-- States that differ in the divider alone differ by a choice of its phase and level. -/
theorem State.sameButDivider.exists_divider (h : s.sameButDivider t) :
    ∃ c a b, t = { s with divCnt := c, divAcc := a, bclk := b } :=
  ⟨t.divCnt, t.divAcc, t.bclk, h⟩

/-- A tick moves the divider alone (41_sequencer.md R125). -/
theorem State.sameButDivider_divTick (s : State) : s.sameButDivider s.divTick := by
  unfold State.divTick
  split <;> exact rfl

/-- The way to the next rising edge moves the divider alone (log 14). -/
theorem State.sameButDivider_toRisingEdge (s : State) : s.sameButDivider s.toRisingEdge := by
  unfold State.toRisingEdge
  split <;> exact rfl

/-- Using up a sample does not reach the divider (log 9). -/
theorem State.sameButDivider.sampled (h : s.sameButDivider t) : s.sampled.sameButDivider t.sampled := by
  obtain ⟨c, a, b, rfl⟩ := h.exists_divider
  cases hs : s.serial <;> simp only [State.sampled, hs] <;> exact rfl

/-- The sample of a bit event does not depend on the divider (log 9). -/
theorem State.sameButDivider.sample_eq (h : s.sameButDivider t) : t.sample = s.sample := by
  rw [h]
  exact rfl

end

/-! ### SEQ's step -/

section
variable (s : State) (c : Nat) (a : BitVec 8) (b : Bool)

theorem State.storeLanes_with_divider : ∀ n, State.storeLanes n { s with divCnt := c, divAcc := a, bclk := b } =
    { State.storeLanes n s with divCnt := c, divAcc := a, bclk := b }
  | 0 => rfl
  | n + 1 => by
    rw [State.storeLanes, State.storeLanes_with_divider n]
    rfl

theorem State.completionEvent_with_divider :
    ({ s with divCnt := c, divAcc := a, bclk := b } : State).completionEvent =
      { s.completionEvent with divCnt := c, divAcc := a, bclk := b } := by
  rw [State.completionEvent_eq, State.completionEvent_errflags, State.completionEvent_missed, State.completionEvent_eq s,
    State.completionEvent_errflags s, State.completionEvent_missed s]
  rfl

end

section
variable {s t : State}

/-- The end of a slot neither reads nor moves the divider (41_sequencer.md R131). -/
theorem State.sameButDivider.latchAndStore (h : s.sameButDivider t) :
    outcomesAgree State.sameButDivider s.latchAndStore t.latchAndStore := by
  obtain ⟨c, a, b, rfl⟩ := h.exists_divider
  unfold State.latchAndStore
  dsimp only
  rw [State.storeLanes_with_divider s c a b]
  split_ifs
  · rw [State.completionEvent_with_divider (State.storeLanes s.active.nlines s) c a b]
    exact rfl
  · exact rfl
  · exact rfl

/-- A used bit neither reads nor moves the divider (41_sequencer.md R130 to R132). -/
theorem State.sameButDivider.useBit (h : s.sameButDivider t) (d : BitVec 6) (p : Nat) :
    outcomesAgree State.sameButDivider (s.useBit d p) (t.useBit d p) := by
  have hshift : (s.shift d).sameButDivider (t.shift d) := by
    rw [h]
    exact rfl
  have hbits : t.active.frameBits = s.active.frameBits := by rw [h]
  unfold State.useBit
  refine outcomesAgree_andThen (r := State.sameButDivider) ?_ fun u v huv => ?_
  · split
    · exact hshift.latchAndStore
    · exact hshift
  · rw [huv, hbits]
    exact rfl

/-- A bit event of the same sample neither reads nor moves the divider (41_sequencer.md R126 to R129). -/
theorem State.sameButDivider.bitEvent (h : s.sameButDivider t) (i : SerialIn) :
    outcomesAgree State.sameButDivider (s.bitEvent i) (t.bitEvent i) := by
  obtain ⟨c, a, b, rfl⟩ := h.exists_divider
  simp only [State.bitEvent, State.track, State.acquire]
  have huse (u : State) (p : Nat) : outcomesAgree State.sameButDivider (u.useBit i.sd p)
      (({ u with divCnt := c, divAcc := a, bclk := b } : State).useBit i.sd p) :=
    (u.sameButDivider_with c a b).useBit i.sd p
  split_ifs with hfirst hsync hedge hdelay hno hdelay
  · exact rfl
  · exact rfl
  · exact huse _ 0
  · exact huse _ s.pos.toNat
  · exact rfl
  · exact rfl
  · exact huse _ 0

end

/-! ### Every agent's turn -/

section
variable {s t : State}

/-- ASM's turn neither reads nor moves the divider (43_frame_assembler.md R183). -/
theorem asmTurn_sameButDivider (h : s.sameButDivider t) :
    outcomesAgree State.sameButDivider (asmTurn s) (asmTurn t) := by
  obtain ⟨c, a, b, rfl⟩ := h.exists_divider
  have hadvance (u : State) : u.asmAdvance.sameButDivider
      ({ u with divCnt := c, divAcc := a, bclk := b } : State).asmAdvance := by
    show State.sameButDivider _ (if u.asmN.toNat + 1 = u.active.outSamples then _ else _)
    rw [State.asmAdvance]
    split <;> rfl
  show outcomesAgree _ _ (if s.asmBusy = true then
    (if (!s.asmZero && !capExists s.params s.asmLine s.asmIndex) = true then _
      else if s.params.frameBytesMax < s.asmAddr + s.asmBytes.length then _ else _) else _)
  rw [asmTurn, State.asmStep]
  split_ifs
  · exact rfl
  · exact rfl
  · exact hadvance (s.frameStore s.asmAddr s.asmBytes)
  · exact rfl

/-- No transaction reads the divider, and START and STOP clear it whatever it is (41_sequencer.md R123, R124). -/
theorem exec_sameButDivider (i : Instr) (h : s.sameButDivider t) :
    outcomesAgree State.sameButDivider (exec i s) (exec i t) := by
  obtain ⟨c, a, b, rfl⟩ := h.exists_divider
  cases i
  case wrCfg0 | wrRate | wrSysclk | wrFramebytes | wrChmap =>
    simp only [exec, execWrCfg0, execWrRate, execWrSysclk, execWrFramebytes, execWrChmap, State.writeCfg]
    split <;> exact rfl
  case rdCapwin =>
    simp only [exec, execRdCapwin]
    split <;> exact rfl
  case rdFramewin =>
    simp only [exec, execRdFramewin]
    split <;> exact rfl
  case cmdStop =>
    simp only [exec, execCmdStop]
    split <;> exact rfl
  case cmdStart =>
    simp only [exec, execCmdStart]
    split_ifs <;> exact rfl
  case cmdFrameReq =>
    unfold exec execCmdFrameReq State.mounted State.stream
    dsimp only
    split_ifs <;> exact rfl
  all_goals exact rfl

/-- HOST's turn does not read the divider (00_scope.md R9). -/
theorem hostTurn_sameButDivider (h : s.sameButDivider t) :
    outcomesAgree State.sameButDivider (hostTurn s) (hostTurn t) := by
  obtain ⟨c, a, b, rfl⟩ := h.exists_divider
  unfold hostTurn
  dsimp only
  split
  · exact rfl
  split
  · exact exec_sameButDivider _ (rfl)
  · exact rfl

/-- SEQ's turn is a bit event at the next rising edge, wherever the divider stands before it (41_sequencer.md R126). -/
theorem seqTurn_sameButDivider (h : s.sameButDivider t) :
    outcomesAgree State.sameButDivider (seqTurn s) (seqTurn t) := by
  have hrun : t.run = s.run := by rw [h]
  by_cases hr : s.run = true
  · rw [seqTurn_of_run hr, seqTurn_of_run (hrun.trans hr), h.sample_eq]
    exact State.sameButDivider.bitEvent (s.sampled.sameButDivider_toRisingEdge.symm.trans
      (h.sampled.trans t.sampled.sameButDivider_toRisingEdge)) _
  · rw [Bool.not_eq_true] at hr
    rw [seqTurn_idle hr, seqTurn_idle (hrun.trans hr)]
    exact h

/-- A run of the agents' own turns does not read the divider. -/
theorem runTurns_sameButDivider {ts : List Turn} (hts : ∀ turn ∈ ts, turn.isAgent = true) (h : s.sameButDivider t) :
    outcomesAgree State.sameButDivider (runTurns ts s) (runTurns ts t) := by
  induction ts generalizing s t with
  | nil => exact h
  | cons turn ts ih =>
    refine outcomesAgree_andThen (r := State.sameButDivider) ?_ fun u v =>
      ih fun x hx => hts x (List.mem_cons_of_mem _ hx)
    cases turn with
    | host => exact hostTurn_sameButDivider h
    | seq => exact seqTurn_sameButDivider h
    | asm => exact asmTurn_sameButDivider h
    | cycle _ => cases hts _ List.mem_cons_self
    | reset => cases hts _ List.mem_cons_self

end

end Sys2Proof.Machine

/-! A system-clock cycle is its agents' turns in one order (60_exceptions.md R248, R249). -/

namespace Sys2Proof.Machine

/-! ### What ASM and HOST leave of SEQ -/

/-- From `s` to `t` nothing that SEQ and the divider work with has changed, but for ERRFLAGS, MISSED and IRQ_PEND: what
ASM does, and HOST while the core keeps running (10_state.md R41, R42). -/
def State.SequencerKept (s t : State) : Prop := t =
  { s with
    cfg := t.cfg, ctrl := t.ctrl, asmBusy := t.asmBusy, frameReady := t.frameReady, frameOk := t.frameOk
    cfgErr := t.cfgErr, errcode := t.errcode, errflags := t.errflags, irqPend := t.irqPend, irqEn := t.irqEn
    missed := t.missed, frameLen := t.frameLen, rh := t.rh, asmZero := t.asmZero, asmN := t.asmN, frame := t.frame
    resp := t.resp, bus := t.bus }

section
variable {s t u : State}

theorem State.SequencerKept.trans (h : s.SequencerKept u) (h' : u.SequencerKept t) : s.SequencerKept t := by
  unfold State.SequencerKept at h'
  rw [h] at h'
  exact h'

theorem State.SequencerKept.run (h : s.SequencerKept t) : t.run = s.run := by rw [h]

/-- ASM works with nothing of SEQ's (43_frame_assembler.md R183). -/
theorem asmTurn_sequencerKept (h : asmTurn s = .next t) : s.SequencerKept t := by
  rw [asmTurn_effect h]
  exact rfl

/-- While RUN = 1 no transaction but STOP reaches the sequencer: a START is ignored (41_sequencer.md R123, R124). -/
theorem ExecCase.sequencerKept {i : Instr} {r : Response} (h : ExecCase i s r t) (hr : s.run = true)
    (hi : i ≠ .cmdStop) : s.SequencerKept t := by
  cases h
  case start hr' _ _ => exact absurd hr (by simp [hr'])
  case stop hstop _ => exact absurd hstop hi
  all_goals exact rfl

/-- The next transaction HOST has to present is a STOP. -/
abbrev State.nextIsStop (s : State) : Prop := s.bus.head? = some (encode .cmdStop)

theorem State.nextIsStop_iff (s : State) : s.nextIsStop ↔ ∃ rest, s.bus = encode .cmdStop :: rest :=
  List.head?_eq_some_iff

/-- HOST's turn while RUN = 1 is a STOP, or leaves the sequencer as it is (10_state.md R47). -/
theorem hostTurn_of_running (h : hostTurn s = .next t) (hr : s.run = true) :
    (s.nextIsStop ∧ t.run = false) ∨ (¬ s.nextIsStop ∧ s.SequencerKept t) := by
  have hdecode : decode s.params (encode .cmdStop) = some .cmdStop := decodeAfterEncodeIsIdentity _ _ rfl
  by_cases hstop : s.nextIsStop
  · obtain ⟨rest, hb⟩ := s.nextIsStop_iff.1 hstop
    rw [hostTurn_of_decode hb hdecode] at h
    cases (execCmdStop_running (s := { s with bus := rest }) hr).symm.trans h
    exact .inl ⟨hstop, rfl⟩
  · refine .inr ⟨hstop, ?_⟩
    rcases hostTurn_effect h with rfl | ⟨w, rest, i, r, hb, hd, hc⟩
    · exact rfl
    have hi : i ≠ .cmdStop := by
      rintro rfl
      exact hstop (s.nextIsStop_iff.2 ⟨rest, eq_encode_of_decode_stop hd ▸ hb⟩)
    exact State.SequencerKept.trans (by rfl) (hc.sequencerKept hr hi)

end

/-! ### ASM's and HOST's part of a cycle -/

/-- An acknowledgement is a W1C write to IRQ_PEND (42_capture_buffer.md R156). -/
theorem State.nextIsAck_iff (s : State) : s.nextIsAck = true ↔ ∃ d rest, s.bus = encode (.w1cIrqPend d) :: rest := by
  unfold State.nextIsAck
  constructor
  · intro h
    split at h
    · cases h
    · split at h
      · rename_i hb _ d hd
        exact ⟨d, _, hb.trans (by rw [eq_encode_of_decode_write hd rfl])⟩
      · cases h
  · rintro ⟨d, rest, hb⟩
    rw [hb]
    simp only [decodeAfterEncodeIsIdentity s.params (.w1cIrqPend d) rfl]

/-- The turns that ASM and HOST take in a cycle, in order (60_exceptions.md R248, R249; log 15). -/
def State.frontTurns (s : State) (present : Bool) : List Turn :=
  if !present then [.asm] else if s.nextIsAck then [.host, .asm] else [.asm, .host]

section
variable {s t : State} {present : Bool}

/-- A run of one turn. -/
theorem runTurns_singleton (turn : Turn) (s : State) : runTurns [turn] s = takeTurn turn s := andThen_pure _

/-- A run of two turns. -/
theorem runTurns_pair (x y : Turn) (s : State) : runTurns [x, y] s = andThen (takeTurn x s) (takeTurn y) := by
  rw [runTurns_cons]
  exact congrArg _ (funext (runTurns_singleton y))

/-- ASM's and HOST's part of a cycle is their turns one after another (60_exceptions.md R248). -/
theorem cycleFront_eq_runTurns (present : Bool) (s : State) :
    cycleFront present s = runTurns (s.frontTurns present) s := by
  unfold cycleFront State.frontTurns
  split_ifs
  · exact (runTurns_singleton .asm s).symm
  · exact (runTurns_pair .host .asm s).symm
  · exact (runTurns_pair .asm .host s).symm

theorem State.isAgent_of_mem_frontTurns {turn : Turn} (h : turn ∈ s.frontTurns present) : turn.isAgent = true := by
  unfold State.frontTurns at h
  split_ifs at h <;> simp only [List.mem_cons, List.not_mem_nil, or_false] at h
  · rw [h]; rfl
  all_goals rcases h with rfl | rfl <;> rfl

/-- A cycle's front, from a state with RUN = 1: HOST stops the core, or the sequencer is as before. -/
theorem cycleFront_of_running (h : cycleFront present s = .next t) (hr : s.run = true) :
    ((present = true ∧ s.nextIsStop) ∧ t.run = false) ∨
      (¬ (present = true ∧ s.nextIsStop) ∧ s.SequencerKept t) := by
  unfold cycleFront at h
  split_ifs at h with hpresent hisAck
  · exact .inr ⟨fun hs => by simp [hs.1] at hpresent, asmTurn_sequencerKept h⟩
  all_goals
    have hp : present = true := by simpa using hpresent
    obtain ⟨u, h1, h2⟩ := (andThen_eq_next_iff _ _ _).1 h
  · have hu := asmTurn_sequencerKept h2
    rcases hostTurn_of_running h1 hr with ⟨hs, hrun⟩ | ⟨hs, hk⟩
    · exact .inl ⟨⟨hp, hs⟩, hu.run.trans hrun⟩
    · exact .inr ⟨fun hc => hs hc.2, hk.trans hu⟩
  · have hu := asmTurn_sequencerKept h1
    have hbus : u.nextIsStop ↔ s.nextIsStop := by rw [asmTurn_effect h1]
    rcases hostTurn_of_running h2 (hu.run.trans hr) with ⟨hs, hrun⟩ | ⟨hs, hk⟩
    · exact .inl ⟨⟨hp, hbus.1 hs⟩, hrun⟩
    · exact .inr ⟨fun hc => hs (hbus.2 hc.2), hu.trans hk⟩

end

/-! ### The divider's part of a cycle -/

section
variable {s t u : State}

/-- The tick that raises `bclk_o` comes with a bit event (41_sequencer.md R125, R126). -/
theorem clockTick_of_rises (h : s.risesNow) : clockTick s = s.divTick.sampled.bitEvent s.sample := by
  obtain ⟨-, hb, hp⟩ := h
  rw [clockTick, if_pos]
  rw [State.divTick_last hp, hb, State.divToggle, hb]
  rfl

/-- Every other tick moves the divider alone (41_sequencer.md R125). -/
theorem clockTick_of_not_rises (hr : s.run = true) (h : ¬ s.risesNow) : clockTick s = .next s.divTick := by
  rw [clockTick, if_neg]
  intro hc
  simp only [Bool.and_eq_true, Bool.not_eq_true'] at hc
  obtain ⟨hb, hrise⟩ := hc
  have hp : s.divCnt + 1 < s.divPeriod := by
    by_contra hp
    exact h ⟨hr, hb, by omega⟩
  rw [State.divTick_inside hp] at hrise
  exact absurd (hb.symm.trans hrise) Bool.false_ne_true

/-- A rise with its bit event is SEQ's turn, up to the divider (41_sequencer.md R126; log 14). -/
theorem clockTick_rises_sameButDivider (hrise : s.risesNow) (h : s.sameButDivider t) :
    outcomesAgree State.sameButDivider (clockTick s) (seqTurn t) := by
  have hrun : t.run = true := by
    rw [h]
    exact hrise.1
  rw [clockTick_of_rises hrise, seqTurn, if_pos hrun, h.sample_eq]
  exact State.sameButDivider.bitEvent
    (s.sameButDivider_divTick.symm.trans (h.trans t.sameButDivider_toRisingEdge)).sampled _

/-- The divider is left at the same phase and level. -/
structure State.DividerKept (s t : State) : Prop where
  divCnt : t.divCnt = s.divCnt
  divAcc : t.divAcc = s.divAcc
  bclk : t.bclk = s.bclk

theorem State.DividerKept.trans (h : s.DividerKept u) (h' : u.DividerKept t) : s.DividerKept t :=
  ⟨h'.divCnt.trans h.divCnt, h'.divAcc.trans h.divAcc, h'.bclk.trans h.bclk⟩

/-- The divider's part of a cycle leaves the divider one tick on, bit event or not (41_sequencer.md R125). -/
theorem clockTick_divider (h : clockTick s = .next t) : s.divTick.DividerKept t := by
  unfold clockTick at h
  split at h
  · have hsampled : s.divTick.DividerKept s.divTick.sampled := by constructor <;> simp
    refine hsampled.trans ?_
    rcases State.bitEvent_effect h with ht | ht <;>
    · rw [ht]
      exact ⟨rfl, rfl, rfl⟩
  · cases h
    exact ⟨rfl, rfl, rfl⟩

/-- A tick reads DIV and the divider alone, which ASM and HOST leave (41_sequencer.md R125). -/
theorem State.SequencerKept.divTick (h : s.SequencerKept t) : s.divTick.DividerKept t.divTick := by
  rw [h]
  by_cases hp : s.divPeriod ≤ s.divCnt + 1
  · rw [State.divTick_last hp]
    rw [State.divTick_last]
    · exact ⟨rfl, rfl, rfl⟩
    · exact hp
  · rw [State.divTick_inside (Nat.lt_of_not_le hp)]
    rw [State.divTick_inside]
    · exact ⟨rfl, rfl, rfl⟩
    · exact Nat.lt_of_not_le hp

end

/-! ### The obligation -/

/-- Outcomes that agree agree on states that the first of them answers. -/
theorem outcomesAgree_answered {r : State → State → Prop} {o p : Host.Outcome State Fault Refusal}
    (h : outcomesAgree r o p) : outcomesAgree (fun u v => o = .next u ∧ r u v) o p := by
  rcases outcomesAgree_cases h with ⟨u, v, rfl, rfl, huv⟩ | ⟨a, rfl, rfl⟩ | ⟨a, rfl, rfl⟩
  · exact ⟨rfl, huv⟩
  · exact rfl
  · exact rfl

/-- SEQ's turn in a cycle, if it takes one: at the rise of `bclk_o`, unless HOST stops the core (41_sequencer.md R124,
R126). -/
def State.backTurns (s : State) (present : Bool) : List Turn :=
  if s.risesNow ∧ ¬ (present = true ∧ s.nextIsStop) then [.seq] else []

theorem State.backTurns_of_rises {s : State} {present : Bool}
    (h : s.risesNow ∧ ¬ (present = true ∧ s.nextIsStop)) : s.backTurns present = [.seq] := if_pos h

theorem State.backTurns_of_not_rises {s : State} {present : Bool}
    (h : ¬ (s.risesNow ∧ ¬ (present = true ∧ s.nextIsStop))) : s.backTurns present = [] := if_neg h

/-- A cycle answers what its list of turns answers, from states that differ in the divider alone (60_exceptions.md
R248). -/
theorem cycleTurn_sameButDivider {s t : State} (h : s.sameButDivider t) (present : Bool) :
    outcomesAgree State.sameButDivider (cycleTurn present s)
      (runTurns (s.frontTurns present ++ s.backTurns present) t) := by
  have hfront : outcomesAgree State.sameButDivider (cycleFront present s) (runTurns (s.frontTurns present) t) := by
    rw [cycleFront_eq_runTurns]
    exact runTurns_sameButDivider (fun _ => State.isAgent_of_mem_frontTurns) h
  rw [runTurns_append]
  refine outcomesAgree_andThen (outcomesAgree_answered hfront) ?_
  rintro u v ⟨hu, huv⟩
  by_cases hr : s.run = true
  case neg =>
    rw [State.backTurns_of_not_rises fun hc => hr hc.1.1, Bool.eq_false_of_not_eq_true hr]
    exact huv
  rcases cycleFront_of_running hu hr with ⟨hstop, hrun⟩ | ⟨hgo, hkept⟩
  · rw [State.backTurns_of_not_rises fun hc => hc.2 hstop, hr, hrun]
    exact huv
  have hrun : u.run = true := hkept.run.trans hr
  have hrises : u.risesNow ↔ s.risesNow := by
    rw [hkept]
    exact Iff.rfl
  rw [hr, hrun]
  by_cases hrise : s.risesNow
  · rw [State.backTurns_of_rises ⟨hrise, hgo⟩]
    rw [runTurns_singleton]
    exact clockTick_rises_sameButDivider (hrises.2 hrise) huv
  · rw [State.backTurns_of_not_rises fun hc => hrise hc.1]
    show outcomesAgree _ (clockTick u) _
    rw [clockTick_of_not_rises hrun (mt hrises.1 hrise)]
    exact u.sameButDivider_divTick.symm.trans huv

/-- In a cycle that begins and ends with RUN = 1 the divider ticks once (41_sequencer.md R125). -/
theorem cycleTurn_divider {s u : State} {present : Bool} (h : cycleTurn present s = .next u) (hr : s.run = true)
    (hu : u.run = true) : s.divTick.DividerKept u := by
  obtain ⟨m, hm, h⟩ := (andThen_eq_next_iff _ _ _).1 h
  rcases cycleFront_of_running hm hr with ⟨-, hrun⟩ | ⟨-, hkept⟩
  · rw [hrun, Bool.and_false, if_neg Bool.false_ne_true] at h
    cases h
    exact absurd (hrun.symm.trans hu) Bool.false_ne_true
  · rw [hr, hkept.run.trans hr, Bool.and_self, if_pos rfl] at h
    exact hkept.divTick.trans (clockTick_divider h)

/-- Settles O58: the list is the cycle's own order of turns, and its own part is the divider's tick. -/
theorem cycleIsAnInterleavingOfSteps : Obligations.CycleIsAnInterleavingOfSteps := by
  intro present s t h ack stop
  have hstop : s.nextIsStop ↔ stop := s.nextIsStop_iff
  rw [← hstop]
  refine ⟨⟨s.frontTurns present, s.backTurns present, ?absent, ?ack, ?other, State.backTurns_of_rises,
    State.backTurns_of_not_rises, cycleTurn_sameButDivider h present⟩, fun u hu hr hrun => ?divider⟩
  case absent =>
    rintro rfl
    rfl
  case ack =>
    rintro rfl hisAck
    exact if_pos (s.nextIsAck_iff.2 hisAck)
  case other =>
    rintro rfl hisAck
    exact if_neg (mt s.nextIsAck_iff.1 hisAck)
  case divider =>
    obtain ⟨hcnt, hacc, hbclk⟩ := cycleTurn_divider hu hr hrun
    exact ⟨hcnt, hacc, hbclk⟩

end Sys2Proof.Machine

/-! Every transaction completes, and a diagnostic flag stays set until HOST clears it (60_exceptions.md R240, R243). -/

namespace Sys2Proof.Machine

/-! ### The response to a transaction -/

section
variable {i : Instr} {s t : State} {r : Response}

/-- A transaction's next state holds its response (30_encoding.md R90). -/
theorem ExecCase.resp (h : ExecCase i s r t) : t.resp = some r := by cases h <;> rfl

/-- No transaction changes the build or the other agents' inputs (00_scope.md R5; logs 2, 9). -/
theorem ExecCase.inputs (h : ExecCase i s r t) :
    t.params = s.params ∧ t.serial = s.serial ∧ t.turns = s.turns ∧ t.draws = s.draws := by
  cases h <;> exact ⟨rfl, rfl, rfl, rfl⟩

end

/-- Settles O9: a transaction is one of the cases, and each of them answers and keeps the rest. -/
theorem everyTransactionCompletes : Obligations.EveryTransactionCompletes := by
  intro i s
  obtain ⟨r, t, ht, hc⟩ := exec_cases i s
  obtain ⟨hparams, hserial, hturns, hdraws⟩ := hc.inputs
  obtain ⟨hcap, hframe, hepoch⟩ := hc.rams
  exact ⟨t, r, ht, hc.resp, hparams, hc.bus, hserial, hturns, hdraws, State.capByte_congr hcap hepoch,
    State.frameByte_congr hframe hepoch⟩

/-! ### The flags and pending bits that SEQ raises -/

/-- From `s` to `t` no flag and no pending bit is cleared, and of the flags only SYNC_ERR, TEAR and OVERRUN are set: what
SEQ does to them (60_exceptions.md R243, R244). -/
structure State.SeqRaises (s t : State) : Prop where
  errflags : ∀ k, s.errflags.getLsbD k = true → t.errflags.getLsbD k = true
  hostFlags : ∀ k, 3 ≤ k → t.errflags.getLsbD k = s.errflags.getLsbD k
  irqPend : ∀ k, s.irqPend.getLsbD k = true → t.irqPend.getLsbD k = true

section
variable {s t u : State}

/-- An update of neither register. -/
theorem State.SeqRaises.of_fields (he : t.errflags = s.errflags) (hi : t.irqPend = s.irqPend) : s.SeqRaises t :=
  ⟨fun _ h => he ▸ h, fun _ _ => by rw [he], fun _ h => hi ▸ h⟩

theorem State.SeqRaises.trans (h : s.SeqRaises u) (h' : u.SeqRaises t) : s.SeqRaises t :=
  ⟨fun k hk => h'.errflags k (h.errflags k hk), fun k hk => (h'.hostFlags k hk).trans (h.hostFlags k hk),
    fun k hk => h'.irqPend k (h.irqPend k hk)⟩

/-- An unexpected edge raises SYNC_ERR (41_sequencer.md R129). -/
theorem State.getLsbD_realign_errflags (s : State) (k : Nat) :
    s.realign.errflags.getLsbD k = (s.errflags.getLsbD k || decide (k = 0)) := getLsbD_setErr s .syncErr k

theorem State.realign_seqRaises (s : State) : s.SeqRaises s.realign where
  errflags k hk := by rw [s.getLsbD_realign_errflags, hk, Bool.true_or]
  hostFlags k hk := by rw [s.getLsbD_realign_errflags, decide_eq_false (by omega), Bool.or_false]
  irqPend _ hk := hk

/-- A completion event raises TEAR and OVERRUN, and sets HALF_DONE (42_capture_buffer.md R153, R154). -/
theorem State.completionEvent_seqRaises (s : State) : s.SeqRaises s.completionEvent where
  errflags k hk := by
    rw [State.completionEvent_errflags, BitVec.getLsbD_or, BitVec.getLsbD_or, hk, Bool.true_or, Bool.true_or]
  hostFlags k hk := by
    have hflag (p : Prop) [Decidable p] (f : ErrFlag) (hf : errFlagBit f < 3) :
        (if p then 1#32 <<< errFlagBit f else 0).getLsbD k = false :=
      Bool.eq_false_of_not_eq_true fun hc => by
        have := ((getLsbD_flag_if p f k).1 hc).2
        omega
    rw [State.completionEvent_errflags, BitVec.getLsbD_or, BitVec.getLsbD_or, hflag _ _ (by decide),
      hflag _ _ (by decide), Bool.or_false, Bool.or_false]
  irqPend k hk := by
    rw [State.completionEvent_eq]
    exact (s.getLsbD_setHalfDone s.activeLines k).trans (by rw [hk, Bool.true_or])

/-- The end of a slot raises what its completion event raises, if it is one (41_sequencer.md R131). -/
theorem State.latchAndStore_seqRaises (h : s.latchAndStore = .next t) : s.SeqRaises t := by
  have hstore : s.SeqRaises (State.storeLanes s.active.nlines s) := .of_fields (by simp) (by simp)
  obtain ⟨-, -, ⟨-, rfl⟩ | ⟨-, rfl⟩⟩ := State.latchAndStore_cases h
  · exact hstore.trans (State.completionEvent_seqRaises _)
  · exact hstore.trans (.of_fields rfl rfl)

theorem State.useBit_seqRaises {d : BitVec 6} {p : Nat} (h : s.useBit d p = .next t) : s.SeqRaises t := by
  have hshift : s.SeqRaises (s.shift d) := .of_fields rfl rfl
  rcases State.useBit_cases h with ⟨-, rfl⟩ | ⟨-, u, hu, rfl⟩
  · exact .of_fields rfl rfl
  · exact (hshift.trans (State.latchAndStore_seqRaises hu)).trans (.of_fields rfl rfl)

/-- A bit event clears no flag and no pending bit: re-alignment and the completion event raise theirs, nothing else
touches them (60_exceptions.md R243, R244). -/
theorem State.bitEvent_seqRaises {i : SerialIn} (h : s.bitEvent i = .next t) : s.SeqRaises t := by
  have hsample : s.SeqRaises { s with fsPrev := i.fs } := .of_fields rfl rfl
  have hacquired : s.SeqRaises { s with fsPrev := i.fs, synced := true } := .of_fields rfl rfl
  rcases State.bitEvent_cases h with ⟨-, rfl⟩ | ⟨-, -, -, rfl⟩ | ⟨-, -, -, -, rfl⟩ | ⟨-, -, -, -, hu⟩ |
    ⟨-, -, -, hu⟩ | ⟨-, -, -, -, -, rfl⟩ | ⟨-, -, -, -, -, hu⟩
  case inl | inr.inl | inr.inr.inl => exact .of_fields rfl rfl
  case inr.inr.inr.inl => exact hacquired.trans (State.useBit_seqRaises hu)
  case inr.inr.inr.inr.inl => exact hsample.trans (State.useBit_seqRaises hu)
  case inr.inr.inr.inr.inr.inl => exact (hsample.trans (State.realign_seqRaises _)).trans (.of_fields rfl rfl)
  case inr.inr.inr.inr.inr.inr =>
    exact (hsample.trans (State.realign_seqRaises _)).trans (State.useBit_seqRaises hu)

theorem seqTurn_seqRaises (h : seqTurn s = .next t) : s.SeqRaises t := by
  unfold seqTurn at h
  split at h
  · exact State.SeqRaises.trans (.of_fields (by simp) (by simp)) (State.bitEvent_seqRaises h)
  · cases h
    exact .of_fields rfl rfl

end

/-! ### The flags that HOST clears -/

/-- Of the transactions only a W1C write to ERRFLAGS and CLR_DIAG clear a flag (45_bus_access.md R228, R230). -/
theorem ExecCase.errflags_cases {i : Instr} {s t : State} {r : Response} (h : ExecCase i s r t) :
    (∀ k, s.errflags.getLsbD k = true → t.errflags.getLsbD k = true) ∨
      (∃ d, i = .w1cErrflags d ∧ t.errflags = s.errflags &&& ~~~(d &&& errMask)) ∨ i = .cmdClrDiag := by
  cases h
  case flag f => exact .inl fun k hk => (getLsbD_setErr s f k).trans (by rw [hk, Bool.true_or])
  case clearFlags d hi => exact .inr (.inl ⟨d, hi, rfl⟩)
  case clearDiag hi => exact .inr (.inr hi)
  all_goals exact .inl fun _ hk => hk

/-- Settles O50: ASM keeps the flags, SEQ only raises some, and HOST clears one by the two transactions alone. -/
theorem diagnosticFlagsAreSticky : Obligations.DiagnosticFlagsAreSticky := by
  intro turn s t k ht h hset hclear
  have hkept (hk : s.errflags.getLsbD k = true → t.errflags.getLsbD k = true) : False :=
    Bool.false_ne_true (hclear.symm.trans (hk hset))
  cases turn with
  | host =>
    rcases hostTurn_effect h with rfl | ⟨w, rest, i, r, hb, hd, hc⟩
    · exact (hkept id).elim
    refine ⟨rfl, w, rest, hb, ?_⟩
    rcases hc.errflags_cases with hk | ⟨d, rfl, he⟩ | rfl
    · exact (hkept (hk k)).elim
    · have hbit := getLsbD_writeOneToClear getLsbD_errMask s.errflags d k (BitVec.lt_of_getLsbD hset)
      rw [← he, hclear, hset, Bool.true_and, eq_comm, Bool.not_eq_false', Bool.and_eq_true_iff] at hbit
      exact .inr ⟨d, eq_encode_of_decode_write hd rfl, hbit.2⟩
    · exact .inl (eq_encode_of_decode_write hd rfl)
  | seq => exact (hkept ((seqTurn_seqRaises h).errflags k)).elim
  | asm => exact (hkept fun hk => by rw [asmTurn_effect h]; exact hk).elim
  | cycle _ => cases ht
  | reset => cases ht

end Sys2Proof.Machine

/-! The order of the events of one system-clock cycle (60_exceptions.md R248, R249). -/

namespace Sys2Proof.Machine

/-! ### SEQ's part of a cycle -/

/-- From `s` to `t` only SEQ's and the divider's fields have changed: ASM's and HOST's are as before
(41_sequencer.md R125 to R132, 42_capture_buffer.md R150 to R154). -/
def State.DeliveryKept (s t : State) : Prop := t =
  { s with
    wt := t.wt, primed := t.primed, halfcnt := t.halfcnt, missed := t.missed, errflags := t.errflags
    irqPend := t.irqPend, fsPrev := t.fsPrev, fsv := t.fsv, synced := t.synced, pos := t.pos, widx := t.widx
    sr := t.sr, cap := t.cap, divCnt := t.divCnt, divAcc := t.divAcc, bclk := t.bclk, serial := t.serial
    draws := t.draws }

section
variable {s t u : State}

theorem State.DeliveryKept.trans (h : s.DeliveryKept u) (h' : u.DeliveryKept t) : s.DeliveryKept t := by
  unfold State.DeliveryKept at h'
  rw [h] at h'
  exact h'

theorem State.divTick_deliveryKept (s : State) : s.DeliveryKept s.divTick := by
  unfold State.divTick
  split <;> exact rfl

theorem State.sampled_deliveryKept (s : State) : s.DeliveryKept s.sampled := by
  unfold State.sampled
  split <;> exact rfl

theorem State.bitEvent_deliveryKept {i : SerialIn} (h : s.bitEvent i = .next t) : s.DeliveryKept t := by
  rcases State.bitEvent_effect h with ht | ht <;>
  · rw [ht]
    exact rfl

/-- The divider's part of a cycle, bit event or not, leaves ASM's and HOST's fields. -/
theorem clockTick_deliveryKept (h : clockTick s = .next t) : s.DeliveryKept t := by
  unfold clockTick at h
  split at h
  · exact s.divTick_deliveryKept.trans (s.divTick.sampled_deliveryKept.trans (State.bitEvent_deliveryKept h))
  · cases h
    exact s.divTick_deliveryKept

/-- The divider's part of a cycle clears no flag and no pending bit (60_exceptions.md R243, R244). -/
theorem clockTick_seqRaises (h : clockTick s = .next t) : s.SeqRaises t := by
  unfold clockTick at h
  split at h
  · exact State.SeqRaises.trans (.of_fields (by simp) (by simp)) (State.bitEvent_seqRaises h)
  · cases h
    exact .of_fields (by simp) (by simp)

/-- A re-alignment in a cycle raises SYNC_ERR (41_sequencer.md R129). -/
theorem clockTick_realigns (h : s.realignsNow) (ht : clockTick s = .next t) : t.errflags.getLsbD 0 = true := by
  obtain ⟨hrise, hv, hs, he, hp⟩ := h
  rw [clockTick_of_rises hrise] at ht
  have hset (u : State) : u.realign.errflags.getLsbD 0 = true := by
    rw [u.getLsbD_realign_errflags, decide_eq_true rfl, Bool.or_true]
  have hv' : s.divTick.sampled.fsv = true := by simpa using hv
  have hs' : s.divTick.sampled.synced = true := by simpa using hs
  have he' : fsEdge s.divTick.sampled.active s.divTick.sampled.fsPrev s.sample.fs = true := by simpa using he
  have hp' : s.divTick.sampled.pos.toNat ≠ s.divTick.sampled.active.edgePos := by simpa using hp
  by_cases hd : s.divTick.sampled.active.fsDelay = true
  · cases (State.bitEvent_realigns_delayed hv' hs' he' hp' hd).symm.trans ht
    exact hset _
  · rw [State.bitEvent_realigns hv' hs' he' hp' (Bool.eq_false_of_not_eq_true hd)] at ht
    exact (State.useBit_seqRaises ht).errflags 0 (hset _)

/-- What a completion event in a cycle does, from `s` to `t` (42_capture_buffer.md R151 to R154). -/
structure State.CompletedTick (s t : State) : Prop where
  primed : t.primed = true
  halfcnt : t.halfcnt = s.halfcnt + 1
  wt : ∀ l < s.active.nlines, t.wt.getLsbD l = !s.wt.getLsbD l
  halfDone : ∀ l < s.active.nlines, t.irqPend.getLsbD l = true
  tear : s.asmBusy = true → s.asmZero = false → t.errflags.getLsbD 1 = true
  overrun : s.MissesHalf → t.errflags.getLsbD 2 = true
  missed : s.MissesHalf → t.missed.toNat = min (s.missed.toNat + 1) (2 ^ 32 - 1)

/-- The lines in use of a completion event exist (00_scope.md R5). -/
theorem State.completesNow_nlines (h : s.completesNow) : s.active.nlines ≤ 6 := by
  obtain ⟨-, -, -, -, -, hl, -, -⟩ := h
  exact hl.trans s.params.nlines_range.2

/-- A completion event does the same from every state that agrees in what it reads. -/
theorem State.CompletedTick.of_read (h : u.CompletedTick t) (ha : u.active = s.active) (hw : u.wt = s.wt)
    (hc : u.halfcnt = s.halfcnt) (hi : u.irqPend = s.irqPend) (hm : u.missed = s.missed) (hb : u.asmBusy = s.asmBusy)
    (hz : u.asmZero = s.asmZero) : s.CompletedTick t := by
  obtain ⟨hprimed, hcnt, hwt, hdone, htear, hover, hmissed⟩ := h
  simp only [State.MissesHalf, ha, hw, hc, hi, hm, hb, hz] at hcnt hwt hdone htear hover hmissed
  exact ⟨hprimed, hcnt, hwt, hdone, htear, hover, hmissed⟩

/-- The completion event itself, wherever the frame goes on (42_capture_buffer.md R151 to R154). -/
theorem State.completionEvent_completedTick (hn : u.active.nlines ≤ 6) (p : BitVec 6) :
    u.CompletedTick { u.completionEvent with pos := p } where
  primed := congrArg State.primed u.completionEvent_eq
  halfcnt := congrArg State.halfcnt u.completionEvent_eq
  wt l hl := by
    refine (u.getLsbD_completionEvent_wt (by omega)).trans ?_
    rw [decide_eq_true hl, Bool.xor_true]
  halfDone l hl := by
    refine (u.getLsbD_completionEvent_irqPend hn l).trans ?_
    rw [decide_eq_true hl, Bool.or_true]
  tear hb hz := (State.getLsbD_completionEvent_errflags hn 1).2 (.inl (.inr ⟨⟨hb, hz⟩, rfl⟩))
  overrun hm := (State.getLsbD_completionEvent_errflags hn 2).2 (.inr ⟨hm, rfl⟩)
  missed hm := State.completionEvent_missed_of_missed hn hm

/-- The tick at the last bit of a half is a completion event (41_sequencer.md R131, 42_capture_buffer.md R151). -/
theorem clockTick_completes (h : s.completesNow) (ht : clockTick s = .next t) : s.CompletedTick t := by
  have hn := State.completesNow_nlines h
  obtain ⟨hrise, hv, hs, he, hp, hl, hw, hf⟩ := h
  rw [clockTick_of_rises hrise] at ht
  obtain ⟨u, hbit, hu, -, -⟩ := State.bitEvent_completes (s := s.divTick.sampled) (i := s.sample) (by simpa using hv)
    (by simpa using hs) (by simpa using he) (by simpa using hp) (by simpa using hl) (by simpa using hw)
    (by simpa using hf)
  cases hbit.symm.trans ht
  have hactive : u.active = s.active := by
    rw [hu]
    simp
  refine (State.completionEvent_completedTick (hactive ▸ hn) _).of_read hactive ?_ ?_ ?_ ?_ ?_ ?_
  all_goals
    rw [hu]
    simp

end

/-! ### The end of a cycle -/

/-- From `v`, what ASM and HOST answer in a cycle that begins at `s`, the divider's and SEQ's part answers `t`: a tick if
RUN was 1 and still is, or nothing (41_sequencer.md R125; log 15). -/
def State.CycleEnds (s v t : State) : Prop := (if s.run && v.run then clockTick v else .next v) = .next t

section
variable {s v t : State}

/-- The end of a cycle leaves ASM's and HOST's fields. -/
theorem State.CycleEnds.deliveryKept (h : s.CycleEnds v t) : v.DeliveryKept t := by
  unfold State.CycleEnds at h
  split at h
  · exact clockTick_deliveryKept h
  · cases h
    exact rfl

/-- The end of a cycle clears no flag and no pending bit. -/
theorem State.CycleEnds.seqRaises (h : s.CycleEnds v t) : v.SeqRaises t := by
  unfold State.CycleEnds at h
  split at h
  · exact clockTick_seqRaises h
  · cases h
    exact .of_fields rfl rfl

/-- While RUN = 1 the divider ticks. -/
theorem State.CycleEnds.tick (h : s.CycleEnds v t) (hr : s.run = true) (hk : s.SequencerKept v) :
    clockTick v = .next t := by
  rwa [State.CycleEnds, hr, hk.run.trans hr, Bool.and_self, if_pos rfl] at h

/-- ASM and HOST do not avert a re-alignment. -/
theorem State.CycleEnds.realigns (h : s.CycleEnds v t) (hk : s.SequencerKept v) (hs : s.realignsNow) :
    t.errflags.getLsbD 0 = true := by
  have hv : v.realignsNow := by
    rw [hk]
    exact hs
  exact clockTick_realigns hv (h.tick hs.1.1 hk)

/-- ASM and HOST do not avert a completion event; it takes what they leave. -/
theorem State.CycleEnds.completes (h : s.CycleEnds v t) (hk : s.SequencerKept v) (hs : s.completesNow) :
    v.CompletedTick t := by
  have hv : v.completesNow := by
    rw [hk]
    exact hs
  exact clockTick_completes hv (h.tick hs.1.1 hk)

end

/-! ### ASM's part -/

section
variable {s u : State}

/-- The last step of an assembly is the end of the request (43_frame_assembler.md R183, 44_delivery.md R203). -/
theorem asmTurn_finishes (h : asmTurn s = .next u) (hf : s.finishesNow) :
    u.asmBusy = false ∧ u.frameReady = true ∧ u.irqPend.getLsbD 8 = true := by
  rw [asmTurn_of_busy hf.1] at h
  obtain ⟨-, -, rfl⟩ := State.asmStep_cases h
  rw [State.asmAdvance_of_eq (s := s.frameStore s.asmAddr s.asmBytes) hf.2]
  refine ⟨rfl, rfl, (BitVec.getLsbD_or ..).trans ?_⟩
  rw [show frameDoneBit.getLsbD 8 = true by decide, Bool.or_true]

/-- Before its last step an assembly goes on (43_frame_assembler.md R183). -/
theorem asmTurn_goes_on (h : asmTurn s = .next u) (hb : s.asmBusy = true) (hf : ¬ s.finishesNow) :
    u.asmBusy = true := by
  rw [asmTurn_of_busy hb] at h
  obtain ⟨-, -, rfl⟩ := State.asmStep_cases h
  rw [State.asmAdvance_of_ne (s := s.frameStore s.asmAddr s.asmBytes) fun he => hf ⟨hb, he⟩]
  exact hb

/-- ASM does not reach HALF_DONE, so a completion is missed or not as before (44_delivery.md R203). -/
theorem asmTurn_missesHalf (h : asmTurn s = .next u) (hn : s.active.nlines ≤ 6) (hm : s.MissesHalf) :
    u.MissesHalf := by
  obtain ⟨l, hl, hp⟩ := hm
  refine ⟨l, ?_, (asmTurn_halfDone h (by omega)).trans hp⟩
  rw [(asmTurn_hostKept h).active]
  exact hl

end

/-! ### ASM and HOST in a cycle with a transaction -/

section
variable {s t : State} {rest : List Txn}

/-- A cycle with an acknowledgement: HOST, then ASM, then SEQ (60_exceptions.md R249; log 15). -/
theorem cycleTurn_of_ack {d : Word} (h : cycleTurn true s = .next t) (hb : s.bus = encode (.w1cIrqPend d) :: rest) :
    ∃ v, asmTurn { s with bus := rest, irqPend := s.irqPend &&& ~~~(d &&& irqMask), resp := some (.write false) } =
      .next v ∧ s.CycleEnds v t := by
  obtain ⟨v, hv, ht⟩ := (andThen_eq_next_iff _ _ _).1 h
  refine ⟨v, ?_, ht⟩
  rw [cycleFront, if_neg (by decide), if_pos (s.nextIsAck_iff.2 ⟨d, rest, hb⟩),
    hostTurn_of_decode hb (decodeAfterEncodeIsIdentity s.params (.w1cIrqPend d) rfl)] at hv
  exact hv

/-- A cycle with any other transaction: ASM, then HOST, then SEQ (60_exceptions.md R248). -/
theorem cycleTurn_of_word {i : Instr} (h : cycleTurn true s = .next t) (hb : s.bus = encode i :: rest)
    (hi : i.wf s.params = true) (hne : ∀ d, i ≠ .w1cIrqPend d) :
    ∃ u v, asmTurn s = .next u ∧ exec i { u with bus := rest } = .next v ∧ s.CycleEnds v t := by
  have hdecode := decodeAfterEncodeIsIdentity s.params i hi
  have hnotAck : ¬ s.nextIsAck = true := by
    rw [State.nextIsAck_iff]
    rintro ⟨d, rest', hb'⟩
    have hw : encode i = encode (.w1cIrqPend d) := (List.cons.inj (hb.symm.trans hb')).1
    rw [hw, decodeAfterEncodeIsIdentity s.params (.w1cIrqPend d) rfl] at hdecode
    exact hne d (Option.some.inj hdecode).symm
  obtain ⟨v, hv, ht⟩ := (andThen_eq_next_iff _ _ _).1 h
  rw [cycleFront, if_neg (by decide), if_neg hnotAck] at hv
  obtain ⟨u, hu, hv⟩ := (andThen_eq_next_iff _ _ _).1 hv
  have hbus : u.bus = encode i :: rest := by
    rw [asmTurn_effect hu]
    exact hb
  have hparams : u.params = s.params := by rw [asmTurn_effect hu]
  rw [hostTurn_of_decode hbus (hparams ▸ hdecode)] at hv
  exact ⟨u, v, hu, hv, ht⟩

end

/-! ### The clauses -/

section
variable {s t : State} {rest : List Txn}

/-- An acknowledgement comes before what its cycle sets in IRQ_PEND (60_exceptions.md R249; log 15). -/
theorem cycleTurn_ack_set_wins {d : Word} (h : cycleTurn true s = .next t) (hb : s.bus = encode (.w1cIrqPend d) :: rest) :
    (s.finishesNow → t.asmBusy = false ∧ t.irqPend.getLsbD 8 = true) ∧
      (s.completesNow → t.halfcnt = s.halfcnt + 1 ∧ ∀ l < s.active.nlines, t.irqPend.getLsbD l = true) := by
  obtain ⟨v, hv, ht⟩ := cycleTurn_of_ack h hb
  have hkept : s.SequencerKept v := State.SequencerKept.trans (by rfl) (asmTurn_sequencerKept hv)
  refine ⟨fun hf => ?_, fun hc => ?_⟩
  · obtain ⟨hbusy, -, hdone⟩ := asmTurn_finishes hv hf
    refine ⟨?_, ht.seqRaises.irqPend 8 hdone⟩
    rw [ht.deliveryKept]
    exact hbusy
  · have htick := ht.completes hkept hc
    have hcnt := htick.halfcnt
    have hdone := htick.halfDone
    rw [hkept] at hcnt hdone
    exact ⟨hcnt, hdone⟩

/-- What HOST clears of the flags and MISSED is cleared before what SEQ raises in the same cycle, which takes the
assembly and IRQ_PEND as ASM leaves them (60_exceptions.md R248, R249). -/
theorem cycleTurn_clear_set_wins {u : State} {e m : Word} {r : Response} (hu : asmTurn s = .next u)
    (ht : s.CycleEnds { u with bus := rest, errflags := e, missed := m, resp := some r } t) :
    (s.realignsNow → t.errflags.getLsbD 0 = true) ∧
      (s.completesNow → s.asmBusy = true → ¬ s.finishesNow → s.asmZero = false → t.errflags.getLsbD 1 = true) ∧
      (s.completesNow → s.MissesHalf →
        t.errflags.getLsbD 2 = true ∧ t.missed.toNat = min (m.toNat + 1) (2 ^ 32 - 1)) := by
  have hkept := State.SequencerKept.trans (t := { u with bus := rest, errflags := e, missed := m, resp := some r })
    (asmTurn_sequencerKept hu) rfl
  have hzero : u.asmZero = s.asmZero := by rw [asmTurn_effect hu]
  refine ⟨ht.realigns hkept, fun hc hb hf hz => ?_, fun hc hm => ?_⟩
  · have hbusy := asmTurn_goes_on hu hb hf
    exact (ht.completes hkept hc).tear hbusy (hzero.trans hz)
  · have htick := ht.completes hkept hc
    have hmisses := asmTurn_missesHalf hu (State.completesNow_nlines hc) hm
    exact ⟨htick.overrun hmisses, htick.missed hmisses⟩

/-- An accepted request takes the snapshot before the flip of a completion event in its cycle, which finds the assembly
running (60_exceptions.md R248 (a), (c)). -/
theorem cycleTurn_request_accepted (h : cycleTurn true s = .next t) (hb : s.bus = encode .cmdFrameReq :: rest)
    (hidle : s.asmBusy = false ∨ s.finishesNow) (hm : s.mounted = true) (hs : s.stream = true)
    (hv : s.cfgValid = true) :
    t.asmBusy = true ∧ t.asmN = 0 ∧ t.frameReady = false ∧ (∀ l < 6, t.rh.getLsbD l = !s.wt.getLsbD l) ∧
      t.errflags.getLsbD 4 = s.errflags.getLsbD 4 ∧ (s.finishesNow → t.irqPend.getLsbD 8 = true) ∧
      (s.completesNow → s.primed = true →
        t.errflags.getLsbD 1 = true ∧ ∀ l < s.active.nlines, t.wt.getLsbD l = t.rh.getLsbD l) := by
  obtain ⟨u, v, hu, hexec, ht⟩ := cycleTurn_of_word h hb rfl nofun
  have hasm := asmTurn_effect hu
  have hidle' : u.asmBusy = false := by
    rcases hidle with hb | hf
    · cases (asmTurn_idle hb).symm.trans hu
      exact hb
    · exact (asmTurn_finishes hu hf).1
  have haccepted := execCmdFrameReq_accepted (s := { u with bus := rest }) hidle' (by rw [hasm]; exact hm)
    (by rw [hasm]; exact hs) (by rw [hasm]; exact hv)
  have hv : v = (State.startAssembly { u with bus := rest, frameReady := false }).respondWrite :=
    Host.Outcome.next.inj (hexec.symm.trans haccepted)
  have hkept : s.SequencerKept v := (asmTurn_sequencerKept hu).trans (by rw [hv]; exact rfl)
  have hrh (l : Nat) (hl : l < 6) : v.rh.getLsbD l = !s.wt.getLsbD l := by
    rw [hv, hasm]
    exact State.getLsbD_startAssembly_rh s hl
  have hflags : v.errflags = s.errflags := by
    rw [hv, hasm]
    rfl
  have hlater : t.asmBusy = v.asmBusy ∧ t.asmN = v.asmN ∧ t.frameReady = v.frameReady ∧ t.rh = v.rh := by
    rw [ht.deliveryKept]
    exact ⟨rfl, rfl, rfl, rfl⟩
  obtain ⟨hbusy, hn, hready, hrh'⟩ := hlater
  refine ⟨hbusy.trans (by rw [hv]; rfl), hn.trans (by rw [hv]; rfl), hready.trans (by rw [hv]; rfl),
    fun l hl => hrh' ▸ hrh l hl, (ht.seqRaises.hostFlags 4 (by decide)).trans (by rw [hflags]), fun hf => ?_,
    fun hc hp => ?_⟩
  · refine ht.seqRaises.irqPend 8 ?_
    rw [hv]
    exact (asmTurn_finishes hu hf).2.2
  · have htick := ht.completes hkept hc
    have hwt := htick.wt
    rw [hkept] at hwt
    refine ⟨htick.tear (by rw [hv]; rfl) ?_, fun l hl => ?_⟩
    · rw [hv, hasm]
      exact congrArg not hp
    · have hl6 : l < 6 := hl.trans_le (State.completesNow_nlines hc)
      rw [hrh', hrh l hl6]
      exact hwt l hl

/-- A read of STATUS shows the state that ASM leaves, before a completion event of its cycle (60_exceptions.md R248
(b)). -/
theorem cycleTurn_status_before_event (h : cycleTurn true s = .next t) (hb : s.bus = encode .rdStatus :: rest) :
    (∃ u, asmTurn s = .next u ∧ t.resp = some (.read u.statusWord false)) ∧
      (s.completesNow → t.primed = true ∧ t.halfcnt = s.halfcnt + 1 ∧
        ∀ l < s.active.nlines, t.wt.getLsbD l = !s.wt.getLsbD l) := by
  obtain ⟨u, v, hu, hexec, ht⟩ := cycleTurn_of_word h hb rfl nofun
  have hv : v = State.respondRead { u with bus := rest } u.statusWord := (Host.Outcome.next.inj hexec).symm
  have hkept : s.SequencerKept v := (asmTurn_sequencerKept hu).trans (by rw [hv]; exact rfl)
  refine ⟨⟨u, hu, ?_⟩, fun hc => ?_⟩
  · rw [ht.deliveryKept, hv]
    rfl
  · have htick := ht.completes hkept hc
    have hcnt := htick.halfcnt
    have hwt := htick.wt
    rw [hkept] at hcnt hwt
    exact ⟨htick.primed, hcnt, hwt⟩

/-- A START in the cycle of an assembly's last step finds ASM idle (60_exceptions.md R248 (d)). -/
theorem cycleTurn_start_accepted (h : cycleTurn true s = .next t) (hb : s.bus = encode .cmdStart :: rest)
    (hr : s.run = false) (hf : s.finishesNow) (hv : validate s.params s.cfg = 0) :
    t.run = true ∧ t.active = s.cfg ∧ t.errflags = s.errflags ∧ t.asmBusy = false ∧ t.frameReady = true ∧
      t.irqPend.getLsbD 8 = true := by
  obtain ⟨u, v, hu, hexec, ht⟩ := cycleTurn_of_word h hb rfl nofun
  obtain ⟨hbusy, hready, hdone⟩ := asmTurn_finishes hu hf
  have hasm := asmTurn_effect hu
  have hstarted := execCmdStart_valid (s := { u with bus := rest }) (by rw [hasm]; exact hr) hbusy
    (by rw [hasm]; exact hv)
  cases hexec.symm.trans hstarted
  have hrest : State.respondWrite (State.startStreaming { u with bus := rest }) = t := by
    rw [State.CycleEnds, hr, Bool.false_and, if_neg Bool.false_ne_true] at ht
    exact Host.Outcome.next.inj ht
  subst hrest
  have hcfg : u.cfg = s.cfg ∧ u.errflags = s.errflags := by
    rw [hasm]
    exact ⟨rfl, rfl⟩
  refine ⟨rfl, hcfg.1, hcfg.2, hbusy, hready, (BitVec.getLsbD_and ..).trans ?_⟩
  rw [hdone, show (~~~halfDoneMask).getLsbD 8 = true by decide, Bool.true_and]

end

/-- Settles O59, clause by clause: what a cycle's transaction does comes after ASM's step and before SEQ's. -/
theorem orderOfEventsInACycle : Obligations.OrderOfEventsInACycle := by
  intro s t w rest h hb
  refine ⟨?ack, ?clear, ?request, ?status, ?start⟩
  case ack =>
    rintro d rfl
    exact cycleTurn_ack_set_wins h hb
  case clear =>
    intro d hw
    by_cases hclr : w = encode .cmdClrDiag
    · subst hclr
      obtain ⟨u, v, hu, hexec, ht⟩ := cycleTurn_of_word h hb rfl nofun
      cases hexec
      obtain ⟨hsync, htear, hover⟩ := cycleTurn_clear_set_wins hu ht
      refine ⟨hsync, htear, fun hc hm => ⟨(hover hc hm).1, fun _ => ?_, fun hne => absurd rfl hne⟩⟩
      exact BitVec.eq_of_toNat_eq (hover hc hm).2
    · obtain rfl := hw.resolve_left hclr
      obtain ⟨u, v, hu, hexec, ht⟩ := cycleTurn_of_word h hb rfl nofun
      cases hexec
      have hmissed : u.missed = s.missed := by rw [asmTurn_effect hu]
      obtain ⟨hsync, htear, hover⟩ := cycleTurn_clear_set_wins (m := u.missed) hu ht
      rw [hmissed] at hover
      exact ⟨hsync, htear, fun hc hm => ⟨(hover hc hm).1, fun he => absurd he hclr, fun _ => (hover hc hm).2⟩⟩
  case request =>
    rintro rfl hidle hm hs hv
    exact cycleTurn_request_accepted h hb hidle hm hs hv
  case status =>
    rintro rfl
    exact cycleTurn_status_before_event h hb
  case start =>
    rintro rfl hr hf hv
    exact cycleTurn_start_accepted h hb hr hf hv

end Sys2Proof.Machine

/-! Reset: the values it loads, what the host and the pins then see, and the invariant (70_reset_and_hazards.md R270,
R272). -/

namespace Sys2Proof.Machine

/-- With every source masked `irq_o` is 0 (10_state.md R46, 70_reset_and_hazards.md R272). -/
theorem State.irqO_of_irqEn_zero {s : State} (h : s.irqEn = 0) : s.irqO = false := by
  refine Bool.eq_false_iff.mpr fun hirq => ?_
  obtain ⟨k, -, -, hen⟩ := s.irqO_iff.mp hirq
  simp [h] at hen

section
variable (p : Params) (epoch : Nat) (bus : List Txn) (serial : List SerialIn) (turns : List Turn) (draws : Nat)

theorem State.resetWith_irqO : (State.resetWith p epoch bus serial turns draws).irqO = false :=
  State.irqO_of_irqEn_zero rfl

/-- After a reset of any build no bit of STATUS is set: every field it is made of is 0 (70_reset_and_hazards.md R270). -/
theorem State.resetWith_statusWord : (State.resetWith p epoch bus serial turns draws).statusWord = 0 := by
  refine BitVec.eq_of_getLsbD_eq fun k hk => ?_
  rw [State.getLsbD_statusWord _ hk, State.resetWith_irqO]
  simp [State.resetWith]

end

/-- Settles O52: the turn answers the reset state of the same build, STATUS and `irq_o` follow from its fields, and every
other value is one of them. -/
theorem resetLoadsTheResetValues : Obligations.ResetLoadsTheResetValues := by
  intro s t h
  cases h
  have hstatus : (resetTurn s).statusWord = 0 := State.resetWith_statusWord ..
  have hirq : (resetTurn s).irqO = false := State.resetWith_irqO ..
  exact ⟨rfl, rfl, rfl, hstatus, rfl, rfl, rfl, rfl, rfl, rfl, rfl, rfl, rfl, rfl, rfl, rfl, rfl, rfl, rfl, rfl, rfl, rfl,
    rfl, rfl, rfl, rfl, rfl, rfl, rfl, rfl, rfl, hirq, rfl⟩

/-- Settles O53: `State.reset` and the state after a reset of any build are both a `State.resetWith`. -/
theorem resetStateMeetsTheInvariant : Obligations.ResetStateMeetsTheInvariant := by
  refine ⟨State.resetWith_inv .., fun s t h => ?_⟩
  cases h
  exact State.resetWith_inv ..

end Sys2Proof.Machine
